-- ==== Sys2Proof/Word.lean ====
section
/-! DEFINITION. The word types of CORE: the byte of sample memory and of every data field, and the 48-bit command word
(spec/30_encoding.md R110). Everything wider or narrower is written where it is used, at the width the spec gives. -/

namespace Sys2Proof

/-- A byte: a sample byte, a register data byte (R9). -/
abbrev Byte := BitVec 8

/-- One command word, exactly 48 bits (R110, R121). Bit 0 is the least significant bit (R10). -/
abbrev CommandWord := BitVec 48

end Sys2Proof
end

