-- ==== Sys2Proof/Syntax.lean ====
section
/-! DEFINITION. The commands of CORE as syntax: one constructor of `Instr` for each of the 28 rows of spec/opcode_table.json,
carrying the fields the row's `encoding` string names by a letter (`c` CHIP, `a` ADDR, `s` slot, `g` group, `e` chip enable,
`b` bank, `d` DATA) and nothing else: the bits written `x` are ignored (spec/30_encoding.md R111). Then the assembler's lines
and pseudo-instructions (R123, R124), with operands as the numbers a line writes. -/

namespace Sys2Proof

/-- A command of CORE, one constructor per row of spec/opcode_table.json, in the table's order. -/
inductive Instr where
  /-- `NOP`, OP 0x0 (R278). -/
  | nop
  /-- `WREG.POSL`, function 0x0 (R141). -/
  | wregPosl (chip : BitVec 4) (slot : BitVec 3) (data : Byte)
  /-- `WREG.POSH`, function 0x1 (R142). -/
  | wregPosh (chip : BitVec 4) (slot : BitVec 3) (data : Byte)
  /-- `WREG.STEPL`, function 0x2 (R143). -/
  | wregStepl (chip : BitVec 4) (slot : BitVec 3) (data : Byte)
  /-- `WREG.STEPH`, function 0x3 (R144). -/
  | wregSteph (chip : BitVec 4) (slot : BitVec 3) (data : Byte)
  /-- `WREG.LOOPL`, function 0x4 (R145). -/
  | wregLoopl (chip : BitVec 4) (slot : BitVec 3) (data : Byte)
  /-- `WREG.LOOPH`, function 0x5 (R146). -/
  | wregLooph (chip : BitVec 4) (slot : BitVec 3) (data : Byte)
  /-- `WREG.START`, function 0x6 (R147). -/
  | wregStart (chip : BitVec 4) (slot : BitVec 3) (data : Byte)
  /-- `WREG.VOL`, function 0x7 (R148). -/
  | wregVol (chip : BitVec 4) (slot : BitVec 3) (data : Byte)
  /-- `WREG.PAN`, function 0x8 (R149). -/
  | wregPan (chip : BitVec 4) (slot : BitVec 3) (data : Byte)
  /-- `WREG.TRIG`, function 0x9, data ignored (R150). -/
  | wregTrig (chip : BitVec 4) (slot : BitVec 3)
  /-- `WREG.RSVD`, channel functions 0xA and 0xB (R153). -/
  | wregRsvdChA (chip : BitVec 4) (slot : BitVec 3)
  /-- `WREG.RSVD`, channel functions 0xC to 0xF (R153). -/
  | wregRsvdChC (chip : BitVec 4) (slot : BitVec 3)
  /-- `WREG.GCTRL`, address 0x80, data bits 6:4 ignored (R151). -/
  | wregGctrl (chip : BitVec 4) (chipOn : Bool) (bank : BitVec 4)
  /-- `WREG.CHON`, addresses 0x90 to 0x9F (R152). -/
  | wregChon (chip : BitVec 4) (group : BitVec 4) (data : Byte)
  /-- `WREG.RSVD`, address 0x81 (R154). -/
  | wregRsvdG81 (chip : BitVec 4)
  /-- `WREG.RSVD`, addresses 0x82 and 0x83 (R154). -/
  | wregRsvdG82 (chip : BitVec 4)
  /-- `WREG.RSVD`, addresses 0x84 to 0x87 (R154). -/
  | wregRsvdG84 (chip : BitVec 4)
  /-- `WREG.RSVD`, addresses 0x88 to 0x8F (R154). -/
  | wregRsvdG88 (chip : BitVec 4)
  /-- `WREG.RSVD`, addresses 0xA0 to 0xBF (R154). -/
  | wregRsvdGA0 (chip : BitVec 4)
  /-- `WREG.RSVD`, addresses 0xC0 to 0xFF (R154). -/
  | wregRsvdGC0 (chip : BitVec 4)
  /-- `WMEM`, OP 0x2 (R200). -/
  | wmem (chip : BitVec 4) (addr : BitVec 32) (data : Byte)
  /-- `TICK`, OP 0x3 (R210). -/
  | tick (chip : BitVec 4)
  /-- `FRAME`, OP 0x4 (R270). -/
  | frame
  /-- `WMIX.GVOLL`, OP 0x5 with `A[0] = 0` (R276). -/
  | wmixGvoll (data : Byte)
  /-- `WMIX.GVOLH`, OP 0x5 with `A[0] = 1` (R277). -/
  | wmixGvolh (data : Byte)
  /-- `RSVD`, operation codes 0x6 and 0x7 (R279). -/
  | rsvd6
  /-- `RSVD`, operation codes 0x8 to 0xF (R279). -/
  | rsvd8
deriving DecidableEq, Repr

/-- The channel functions an assembler line names (R116, R123). -/
inductive ChannelFunc where
  | posl | posh | stepl | steph | loopl | looph | start | vol | pan | trig
deriving DecidableEq, Repr

/-- An assembler line of R123, with its numbers as written. -/
inductive AsmLine where
  /-- `NOP`. -/
  | nop
  /-- `WREG k, A, D`. -/
  | wreg (k a d : Nat)
  /-- `WREG k, FUNC@s, D`; the short form `WREG k, TRIG@s` is the same with `D = 0x00`. -/
  | wregFunc (k : Nat) (func : ChannelFunc) (slot d : Nat)
  /-- `WREG k, GCTRL, D`. -/
  | wregGctrl (k d : Nat)
  /-- `WREG k, CHON<g>, D`. -/
  | wregChon (k g d : Nat)
  /-- `WMEM k, addr, D`. -/
  | wmem (k addr d : Nat)
  /-- `TICK k`. -/
  | tick (k : Nat)
  /-- `FRAME`. -/
  | frame
  /-- `WMIX GVOLL, D`. -/
  | wmixGvoll (d : Nat)
  /-- `WMIX GVOLH, D`. -/
  | wmixGvolh (d : Nat)
deriving DecidableEq, Repr

/-- A pseudo-instruction of R124. -/
inductive Pseudo where
  /-- `SETSTEP k, s, v16`. -/
  | setstep (k slot v : Nat)
  /-- `SETLOOP k, s, v16`. -/
  | setloop (k slot v : Nat)
  /-- `SETPOS k, s, v16`. -/
  | setpos (k slot v : Nat)
  /-- `KEYON k, s`. -/
  | keyon (k slot : Nat)
  /-- `CHIPON k, b`. -/
  | chipon (k bank : Nat)
  /-- `CHIPOFF k, b`. -/
  | chipoff (k bank : Nat)
  /-- `SETGVOL v16`. -/
  | setgvol (v : Nat)
  /-- `LOADMEM k, a, b0, b1, ..., bn`. -/
  | loadmem (k addr : Nat) (bytes : List Nat)
deriving DecidableEq, Repr

end Sys2Proof
end

