-- ==== Sys2Proof/Config.lean ====
section
/-! DEFINITION. The implementation parameters of CORE (spec/00_scope.md R7) as plain data, and the reference configuration
(R8). No transaction writes a parameter and reset keeps it (R49, R331). The two function-valued parameters, STEP_MAP and
VOL_LUT, are held as their finite lists of exceptions to the reference law (assumption log 6): every total function on their
finite domains has that form. Nothing is left open: the model has no free value. -/

namespace Sys2Proof

/-- STEP_MODE (R7): the fixed-point add of R217, or the 8-bit countdown counter of R218. -/
inductive StepMode where
  | accum
  | countdown
deriving DecidableEq, Repr

/-- CODING (R7): subtract a bias (R220), or sign bit and magnitude (R221). -/
inductive Coding where
  | bias
  | signmag
deriving DecidableEq, Repr

/-- The parameters of one chip instance: those R7 marks with `[k]`, and the fixed-point format, ADDR_BITS and FRAC, which R3
lets each chip instance take for itself (assumption log 10). -/
structure ChipConfig where
  /-- ADDR_BITS: byte-address bits of a position. -/
  addrBits : Nat
  /-- FRAC: fractional bits of a position and of a step. -/
  frac : Nat
  /-- STEP_MODE: which rule steps the position. -/
  stepMode : StepMode
  /-- STEP_MAP: the pairs (STEP value, increment) at which the map differs from the identity. -/
  stepMap : List (Nat × Nat)
  /-- SENTINEL: the "end of data" byte. -/
  sentinel : Byte
  /-- CODING: how a sample byte is read. -/
  coding : Coding
  /-- BIAS_VAL: what BIAS coding subtracts. -/
  biasVal : Byte
  /-- VOL_LUT: the pairs (VOL value, gain) at which the table differs from the reference law. -/
  volLut : List (Nat × Nat)
  /-- OUT_SHIFT: right shift of each channel contribution. -/
  outShift : Nat
  /-- CHIP_GAIN: per-chip calibration gain, unsigned Q8.8. -/
  chipGain : Nat
  /-- CLOCK: chip clock in Hz. -/
  clock : Nat
  /-- DIVISOR: native rate = CLOCK / DIVISOR. -/
  divisor : Nat
deriving DecidableEq, Repr

/-- The parameters of one CORE instance (R7). NCHIP is the length of `chips`. -/
structure Config where
  /-- NCH: channels per chip instance. -/
  nch : Nat
  /-- OUT_RATE: output frame rate in Hz. -/
  outRate : Nat
  /-- The per-chip parameters, one record for each chip instance, in index order. -/
  chips : List ChipConfig
deriving DecidableEq, Repr

/-- NCHIP: the number of chip instances (R7). -/
abbrev Config.nchip (cfg : Config) : Nat := cfg.chips.length

/-- The reference value of every parameter of a chip instance (R7, R8): 16 address bits, 11 fractional bits. -/
def ChipConfig.reference : ChipConfig where
  addrBits := 16
  frac := 11
  stepMode := .accum
  stepMap := []
  sentinel := 0xFF#8
  coding := .bias
  biasVal := 0x80#8
  volLut := []
  outShift := 4
  chipGain := 0x0100
  clock := 12500000
  divisor := 384

/-- The reference configuration (R8): 2 chips of 16 channels, 44 100 Hz. -/
def Config.reference : Config where
  nch := 16
  outRate := 44100
  chips := [ChipConfig.reference, ChipConfig.reference]

end Sys2Proof
end

