-- ==== Sys2Proof/WellFormed.lean ====
section
/-! DEFINITION. What is well formed. A command has no ill-formed operand: every field of `Instr` has exactly the width the
encoding gives it and every value is legal (spec/60_exceptions.md R300, spec/30_encoding.md R120), so there is no check on
`Instr`. The checks are on the configuration (spec/00_scope.md R7: "a configuration outside them is refused by the model")
and on the assembler's lines, whose operands are written as numbers (spec/30_encoding.md R123). -/

namespace Sys2Proof

/-- The legal ranges of the parameters of a chip instance (R7). The ranges of SENTINEL and BIAS_VAL are their type. -/
def ChipConfig.legal (cc : ChipConfig) : Bool :=
  decide (8 ≤ cc.addrBits) && decide (cc.addrBits ≤ 24) &&
  decide (cc.frac ≤ 16) &&
  cc.stepMap.all (fun e => decide (e.1 < 2 ^ 16) && decide (e.2 < 2 ^ 32)) &&
  cc.volLut.all (fun e => decide (e.1 < 2 ^ 8) && decide (e.2 ≤ 256)) &&
  decide (cc.outShift ≤ 16) &&
  decide (cc.chipGain < 2 ^ 16) &&
  decide (cc.clock < 2 ^ 32) &&
  decide (1 ≤ cc.divisor) && decide (cc.divisor < 2 ^ 16)

/-- The legal ranges of every parameter (R7). -/
def Config.legal (cfg : Config) : Bool :=
  decide (1 ≤ cfg.nchip) && decide (cfg.nchip ≤ 16) &&
  decide (1 ≤ cfg.nch) && decide (cfg.nch ≤ 128) &&
  decide (1 ≤ cfg.outRate) && decide (cfg.outRate < 2 ^ 20) &&
  cfg.chips.all ChipConfig.legal

/-- The ranges R123 gives the operands of an assembler line: a slot is 0..7, a CHON group 0..15. Every other number is cut
to its field's width by R123 itself. -/
def AsmLine.wf : AsmLine → Bool
  | .wregFunc _ _ slot _ => decide (slot < 8)
  | .wregChon _ g _ => decide (g < 16)
  | .nop | .wreg .. | .wregGctrl .. | .wmem .. | .tick .. | .frame | .wmixGvoll .. | .wmixGvolh .. => true

/-- A pseudo-instruction's slot is a slot (R124). -/
def Pseudo.wf : Pseudo → Bool
  | .setstep _ slot _ | .setloop _ slot _ | .setpos _ slot _ | .keyon _ slot => decide (slot < 8)
  | .chipon .. | .chipoff .. | .setgvol .. | .loadmem .. => true

end Sys2Proof
end

