-- ==== Sys2Proof/Decode.lean ====
section
/-! DEFINITION. Command words and commands (spec/30_encoding.md). `decode` is total on every 48-bit word and refuses none:
"There is no illegal encoding" (R120). It follows the case structure of R122, and splits the reserved spaces into the rows of
spec/opcode_table.json. `encode` writes 0 in every ignored field, as the assembler does (R123). `opcodeRows` is the table
itself. A word is presented to CORE whole, so it has no byte order (assumption log 8). -/

namespace Sys2Proof

/-! ## Fields of a word (R110, R111) -/

/-- `OP = W[47:44]`. -/
def wordOp (w : CommandWord) : BitVec 4 := w.extractLsb' 44 4
/-- `CHIP = W[43:40]`. -/
def wordChip (w : CommandWord) : BitVec 4 := w.extractLsb' 40 4
/-- `ADDR = W[39:8]`. -/
def wordAddr (w : CommandWord) : BitVec 32 := w.extractLsb' 8 32
/-- `DATA = W[7:0]`. -/
def wordData (w : CommandWord) : Byte := w.extractLsb' 0 8
/-- The register address `A = ADDR[7:0]`. -/
def wordRegAddr (w : CommandWord) : Byte := w.extractLsb' 8 8

/-- `slot = A[6:4]` (R115). -/
def regSlot (a : Byte) : BitVec 3 := a.extractLsb' 4 3
/-- `func = A[3:0]`, and the CHON group `g = A[3:0]` (R115, R117). -/
def regFunc (a : Byte) : BitVec 4 := a.extractLsb' 0 4

/-! ## Decoding (R122) -/

/-- The channel register space, `A[7] = 0` (R116). -/
def decodeChannel (chip : BitVec 4) (slot : BitVec 3) (func : BitVec 4) (data : Byte) : Instr :=
  if func = 0x0#4 then .wregPosl chip slot data
  else if func = 0x1#4 then .wregPosh chip slot data
  else if func = 0x2#4 then .wregStepl chip slot data
  else if func = 0x3#4 then .wregSteph chip slot data
  else if func = 0x4#4 then .wregLoopl chip slot data
  else if func = 0x5#4 then .wregLooph chip slot data
  else if func = 0x6#4 then .wregStart chip slot data
  else if func = 0x7#4 then .wregVol chip slot data
  else if func = 0x8#4 then .wregPan chip slot data
  else if func = 0x9#4 then .wregTrig chip slot
  else if func.extractLsb' 1 3 = 0b101#3 then .wregRsvdChA chip slot
  else .wregRsvdChC chip slot

/-- The global register space, `A[7] = 1` (R117). -/
def decodeGlobal (chip : BitVec 4) (a data : Byte) : Instr :=
  if a = 0x80#8 then .wregGctrl chip (data.getLsbD 7) (data.extractLsb' 0 4)
  else if a.extractLsb' 4 4 = 0x9#4 then .wregChon chip (regFunc a) data
  else if a = 0x81#8 then .wregRsvdG81 chip
  else if a.extractLsb' 1 7 = 0b1000001#7 then .wregRsvdG82 chip
  else if a.extractLsb' 2 6 = 0b100001#6 then .wregRsvdG84 chip
  else if a.extractLsb' 3 5 = 0b10001#5 then .wregRsvdG88 chip
  else if a.extractLsb' 5 3 = 0b101#3 then .wregRsvdGA0 chip
  else .wregRsvdGC0 chip

/-- The decode function of R122, total on every word. -/
def decode (w : CommandWord) : Instr :=
  let op := wordOp w
  let a := wordRegAddr w
  if op = 0x0#4 then .nop
  else if op = 0x1#4 then
    if a.getLsbD 7 = false then decodeChannel (wordChip w) (regSlot a) (regFunc a) (wordData w)
    else decodeGlobal (wordChip w) a (wordData w)
  else if op = 0x2#4 then .wmem (wordChip w) (wordAddr w) (wordData w)
  else if op = 0x3#4 then .tick (wordChip w)
  else if op = 0x4#4 then .frame
  else if op = 0x5#4 then
    if a.getLsbD 0 = false then .wmixGvoll (wordData w) else .wmixGvolh (wordData w)
  else if op.extractLsb' 1 3 = 0b011#3 then .rsvd6
  else .rsvd8

/-- The row's instruction for the host's question: the word's bits are numbered as the table numbers them, bits above
`nbits` are 0, and a number that needs more than 48 bits is no command (R121). -/
def decodeTableWord (nbits w : Nat) : Option Instr :=
  if w % 2 ^ nbits < 2 ^ 48 then some (decode (BitVec.ofNat 48 (w % 2 ^ nbits))) else none

/-! ## Encoding (R110, R123) -/

/-- A word from its four fields (R110). -/
def packWord (op chip : BitVec 4) (addr : BitVec 32) (data : Byte) : CommandWord := op ++ chip ++ addr ++ data

/-- A WREG word: `ADDR[31:8]` is 0 (R123). -/
def packWreg (chip : BitVec 4) (a data : Byte) : CommandWord := packWord 0x1#4 chip (a.setWidth 32) data

/-- A channel register's address: `A[7] = 0`, slot, function (R115). -/
def channelRegAddr (slot : BitVec 3) (func : BitVec 4) : Byte := 0b0#1 ++ slot ++ func

/-- The address of a CHON group, `A[7:4] = 0x9` (R117). -/
def chonRegAddr (group : BitVec 4) : Byte := 0x9#4 ++ group

/-- GCTRL's data byte: chip enable, three reserved bits, bank (R151). -/
def gctrlData (chipOn : Bool) (bank : BitVec 4) : Byte := BitVec.ofBool chipOn ++ 0b000#3 ++ bank

/-- The encoder: the word of a command, 0 in every ignored field. -/
def encode : Instr → CommandWord
  | .nop => packWord 0x0#4 0#4 0#32 0#8
  | .wregPosl chip slot data => packWreg chip (channelRegAddr slot 0x0#4) data
  | .wregPosh chip slot data => packWreg chip (channelRegAddr slot 0x1#4) data
  | .wregStepl chip slot data => packWreg chip (channelRegAddr slot 0x2#4) data
  | .wregSteph chip slot data => packWreg chip (channelRegAddr slot 0x3#4) data
  | .wregLoopl chip slot data => packWreg chip (channelRegAddr slot 0x4#4) data
  | .wregLooph chip slot data => packWreg chip (channelRegAddr slot 0x5#4) data
  | .wregStart chip slot data => packWreg chip (channelRegAddr slot 0x6#4) data
  | .wregVol chip slot data => packWreg chip (channelRegAddr slot 0x7#4) data
  | .wregPan chip slot data => packWreg chip (channelRegAddr slot 0x8#4) data
  | .wregTrig chip slot => packWreg chip (channelRegAddr slot 0x9#4) 0#8
  | .wregRsvdChA chip slot => packWreg chip (channelRegAddr slot 0xA#4) 0#8
  | .wregRsvdChC chip slot => packWreg chip (channelRegAddr slot 0xC#4) 0#8
  | .wregGctrl chip chipOn bank => packWreg chip 0x80#8 (gctrlData chipOn bank)
  | .wregChon chip group data => packWreg chip (chonRegAddr group) data
  | .wregRsvdG81 chip => packWreg chip 0x81#8 0#8
  | .wregRsvdG82 chip => packWreg chip 0x82#8 0#8
  | .wregRsvdG84 chip => packWreg chip 0x84#8 0#8
  | .wregRsvdG88 chip => packWreg chip 0x88#8 0#8
  | .wregRsvdGA0 chip => packWreg chip 0xA0#8 0#8
  | .wregRsvdGC0 chip => packWreg chip 0xC0#8 0#8
  | .wmem chip addr data => packWord 0x2#4 chip addr data
  | .tick chip => packWord 0x3#4 chip 0#32 0#8
  | .frame => packWord 0x4#4 0#4 0#32 0#8
  | .wmixGvoll data => packWord 0x5#4 0#4 0#32 data
  | .wmixGvolh data => packWord 0x5#4 0#4 1#32 data
  | .rsvd6 => packWord 0x6#4 0#4 0#32 0#8
  | .rsvd8 => packWord 0x8#4 0#4 0#32 0#8

/-! ## The opcode table -/

/-- A row of spec/opcode_table.json: `mask` has a 1 at each fixed bit of `encoding`, `pattern` their values (the table's
`match`), `used` a 1 at each bit that is fixed or belongs to a lettered field: the rest is written `x`, ignored. -/
structure OpcodeRow where
  mnemonic : String
  pattern : CommandWord
  mask : CommandWord
  used : CommandWord
deriving DecidableEq, Repr

/-- A word selects a row when `W & mask = match`. -/
def OpcodeRow.selects (r : OpcodeRow) (w : CommandWord) : Bool := w &&& r.mask == r.pattern

/-- Rows 0 to 12: NOP and the channel registers. -/
def opcodeRowsChannel : List OpcodeRow :=
  [⟨"NOP", 0x000000000000#48, 0xF00000000000#48, 0xF00000000000#48⟩,
   ⟨"WREG.POSL", 0x100000000000#48, 0xF00000008F00#48, 0xFF000000FFFF#48⟩,
   ⟨"WREG.POSH", 0x100000000100#48, 0xF00000008F00#48, 0xFF000000FFFF#48⟩,
   ⟨"WREG.STEPL", 0x100000000200#48, 0xF00000008F00#48, 0xFF000000FFFF#48⟩,
   ⟨"WREG.STEPH", 0x100000000300#48, 0xF00000008F00#48, 0xFF000000FFFF#48⟩,
   ⟨"WREG.LOOPL", 0x100000000400#48, 0xF00000008F00#48, 0xFF000000FFFF#48⟩,
   ⟨"WREG.LOOPH", 0x100000000500#48, 0xF00000008F00#48, 0xFF000000FFFF#48⟩,
   ⟨"WREG.START", 0x100000000600#48, 0xF00000008F00#48, 0xFF000000FFFF#48⟩,
   ⟨"WREG.VOL", 0x100000000700#48, 0xF00000008F00#48, 0xFF000000FFFF#48⟩,
   ⟨"WREG.PAN", 0x100000000800#48, 0xF00000008F00#48, 0xFF000000FFFF#48⟩,
   ⟨"WREG.TRIG", 0x100000000900#48, 0xF00000008F00#48, 0xFF000000FF00#48⟩,
   ⟨"WREG.RSVD", 0x100000000A00#48, 0xF00000008E00#48, 0xFF000000FE00#48⟩,
   ⟨"WREG.RSVD", 0x100000000C00#48, 0xF00000008C00#48, 0xFF000000FC00#48⟩]

/-- Rows 13 to 20: the global registers. -/
def opcodeRowsGlobal : List OpcodeRow :=
  [⟨"WREG.GCTRL", 0x100000008000#48, 0xF0000000FF00#48, 0xFF000000FF8F#48⟩,
   ⟨"WREG.CHON", 0x100000009000#48, 0xF0000000F000#48, 0xFF000000FFFF#48⟩,
   ⟨"WREG.RSVD", 0x100000008100#48, 0xF0000000FF00#48, 0xFF000000FF00#48⟩,
   ⟨"WREG.RSVD", 0x100000008200#48, 0xF0000000FE00#48, 0xFF000000FE00#48⟩,
   ⟨"WREG.RSVD", 0x100000008400#48, 0xF0000000FC00#48, 0xFF000000FC00#48⟩,
   ⟨"WREG.RSVD", 0x100000008800#48, 0xF0000000F800#48, 0xFF000000F800#48⟩,
   ⟨"WREG.RSVD", 0x10000000A000#48, 0xF0000000E000#48, 0xFF000000E000#48⟩,
   ⟨"WREG.RSVD", 0x10000000C000#48, 0xF0000000C000#48, 0xFF000000C000#48⟩]

/-- Rows 21 to 27: the other operations. -/
def opcodeRowsOther : List OpcodeRow :=
  [⟨"WMEM", 0x200000000000#48, 0xF00000000000#48, 0xFFFFFFFFFFFF#48⟩,
   ⟨"TICK", 0x300000000000#48, 0xF00000000000#48, 0xFF0000000000#48⟩,
   ⟨"FRAME", 0x400000000000#48, 0xF00000000000#48, 0xF00000000000#48⟩,
   ⟨"WMIX.GVOLL", 0x500000000000#48, 0xF00000000100#48, 0xF000000001FF#48⟩,
   ⟨"WMIX.GVOLH", 0x500000000100#48, 0xF00000000100#48, 0xF000000001FF#48⟩,
   ⟨"RSVD", 0x600000000000#48, 0xE00000000000#48, 0xE00000000000#48⟩,
   ⟨"RSVD", 0x800000000000#48, 0x800000000000#48, 0x800000000000#48⟩]

/-- The 28 rows of spec/opcode_table.json, in its order. -/
def opcodeRows : List OpcodeRow := opcodeRowsChannel ++ opcodeRowsGlobal ++ opcodeRowsOther

/-- The place of a constructor's row in the table. -/
def Instr.rowIndex : Instr → Nat
  | .nop => 0
  | .wregPosl .. => 1
  | .wregPosh .. => 2
  | .wregStepl .. => 3
  | .wregSteph .. => 4
  | .wregLoopl .. => 5
  | .wregLooph .. => 6
  | .wregStart .. => 7
  | .wregVol .. => 8
  | .wregPan .. => 9
  | .wregTrig .. => 10
  | .wregRsvdChA .. => 11
  | .wregRsvdChC .. => 12
  | .wregGctrl .. => 13
  | .wregChon .. => 14
  | .wregRsvdG81 .. => 15
  | .wregRsvdG82 .. => 16
  | .wregRsvdG84 .. => 17
  | .wregRsvdG88 .. => 18
  | .wregRsvdGA0 .. => 19
  | .wregRsvdGC0 .. => 20
  | .wmem .. => 21
  | .tick .. => 22
  | .frame => 23
  | .wmixGvoll .. => 24
  | .wmixGvolh .. => 25
  | .rsvd6 => 26
  | .rsvd8 => 27

/-- The table row a command stands for. -/
def Instr.row (i : Instr) : OpcodeRow := opcodeRows.getD i.rowIndex ⟨"", 0#48, 0#48, 0#48⟩

end Sys2Proof
end

