-- ==== Sys2Proof/Machine/State.lean ====
section
/-! DEFINITION. The state of CORE (spec/10_state.md R30) as plain data, the reasons a step can stop, and the state after reset
(R51, spec/70_reset_and_hazards.md R330). Three fields of `State` are the model's own, not the spec's state: `cfg` (R49),
`inputs` and `out` (assumption logs 1, 3, 5). -/

namespace Sys2Proof.Machine

/-- Sample memory: (address, byte) pairs in canonical form, addresses strictly rising and no byte equal to what an unlisted
address reads as, 0x00 (R41). -/
abbrev Memory := List Host.Cell

/-- One channel (R31 to R38). -/
structure Channel where
  /-- The fixed-point position, below `2^PW` (R31; the width is a parameter, assumption log 7). -/
  pos : Nat
  /-- STEP (R32). -/
  step : BitVec 16
  /-- LOOP (R33). -/
  loop : BitVec 16
  /-- START (R34). -/
  start : BitVec 8
  /-- VOL (R35). -/
  vol : BitVec 8
  /-- PAN: left coefficient in bits 3:0, right in bits 7:4 (R36). -/
  pan : BitVec 8
  /-- The enable flag (R37). -/
  en : Bool
  /-- The countdown counter (R38). -/
  cnt : BitVec 8
deriving DecidableEq, Repr

/-- One chip instance (R30, R39 to R43). -/
structure Chip where
  /-- The channel array, NCH entries (R30). -/
  ch : List Channel
  /-- The whole-chip enable flag (R39). -/
  chipOn : Bool
  /-- The bank selector (R40). -/
  bank : BitVec 4
  /-- The sample memory (R41). -/
  mem : Memory
  /-- The most recently generated pair, left (R42). -/
  lastL : BitVec 32
  /-- The most recently generated pair, right (R42). -/
  lastR : BitVec 32
  /-- The rate adapter's accumulator (R43). -/
  racc : Nat
deriving DecidableEq, Repr

/-- The mixer (R44, R45). -/
structure Mixer where
  /-- Global volume, unsigned Q8.8 (R44). -/
  gvol : BitVec 16
  /-- The last emitted frame, left (R45). -/
  frameL : BitVec 32
  /-- The last emitted frame, right (R45). -/
  frameR : BitVec 32
deriving DecidableEq, Repr

/-- A stereo pair a transaction returns (R14, R48): two 32-bit two's-complement integers. -/
structure Pair where
  l : BitVec 32
  r : BitVec 32
deriving DecidableEq, Repr

/-- What the host presents to CORE: a command word, or the reset input, which is "outside the command stream" (R330). -/
inductive HostInput where
  | command (w : CommandWord)
  | reset
deriving DecidableEq, Repr

/-- The state of CORE, with the model's own fields `cfg`, `inputs` and `out`. -/
structure State where
  /-- MODEL'S OWN: the configuration parameters, which no transaction writes (R49; assumption log 1). -/
  cfg : Config
  /-- The chip instances, NCHIP of them (R30). -/
  chips : List Chip
  /-- The mixer (R30). -/
  mix : Mixer
  /-- MODEL'S OWN: what the host has still to present, oldest first (R46, R341; assumption log 3). -/
  inputs : List HostInput
  /-- MODEL'S OWN: the pair the last transaction returned to the host, none if it returned nothing (R48; assumption log 5). -/
  out : Option Pair
deriving DecidableEq, Repr

/-- The faults of CORE: none. "CORE raises no synchronous exception" (R300), so no step stops with a fault. -/
inductive Fault where
deriving DecidableEq, Repr

/-- The refusals. -/
inductive Refusal where
  /-- Raised by `exec`'s arm of an instruction that has no meaning yet; none is left. Safe. -/
  | notModelled (mnemonic : String)
  /-- Raised by `step` when a parameter lies outside its legal range: "a configuration outside them is refused by the model"
  (R7). Safe: nothing is claimed of a machine the spec does not describe. -/
  | illegalConfig
deriving DecidableEq, Repr

/-- A channel after reset: all fields 0, disabled (R31 to R38, R51). -/
def Channel.reset : Channel where
  pos := 0
  step := 0#16
  loop := 0#16
  start := 0#8
  vol := 0#8
  pan := 0#8
  en := false
  cnt := 0#8

/-- A chip of `nch` channels after reset (R39 to R43, R51). -/
def Chip.reset (nch : Nat) : Chip where
  ch := List.replicate nch Channel.reset
  chipOn := false
  bank := 0#4
  mem := []
  lastL := 0#32
  lastR := 0#32
  racc := 0

/-- The mixer after reset: GVOL is 1.0 (R44, R45, R51). -/
def Mixer.reset : Mixer where
  gvol := 0x0100#16
  frameL := 0#32
  frameR := 0#32

/-- The state after reset under a configuration (R330), with `inputs` still to be presented. -/
def State.resetWith (cfg : Config) (inputs : List HostInput) : State where
  cfg := cfg
  chips := List.replicate cfg.nchip (Chip.reset cfg.nch)
  mix := Mixer.reset
  inputs := inputs
  out := none

/-- The machine right after reset, in the reference configuration (R8, R330), the host having presented nothing. -/
def State.reset : State := State.resetWith Config.reference []

end Sys2Proof.Machine
end

