-- ==== Sys2Proof/Machine/Operands.lean ====
section
/-! DEFINITION. The operand forms and the arithmetic of spec/00_scope.md R10, R11: derived parameters (R7), the channel index
of a register write, the byte halves of 16-bit registers, the fixed-point position and its byte address, the two
function-valued parameters, and the 32-bit clamp. Integers are unbounded; what a field stores is narrowed explicitly. -/

namespace Sys2Proof

/-! ## Derived parameters (R7) -/

/-- `PW = ADDR_BITS + FRAC`. -/
def ChipConfig.pw (cc : ChipConfig) : Nat := cc.addrBits + cc.frac

/-- `MEM_SIZE = 2^ADDR_BITS`. -/
def ChipConfig.memSize (cc : ChipConfig) : Nat := 2 ^ cc.addrBits

/-- The per-chip parameters of chip `k`. Asked only for `k < NCHIP`. -/
def Config.chip (cfg : Config) (k : Nat) : ChipConfig := cfg.chips.getD k ChipConfig.reference

/-- `THR[k] = OUT_RATE * DIVISOR[k]` (R43, R274). -/
def Config.thr (cfg : Config) (k : Nat) : Nat := cfg.outRate * (cfg.chip k).divisor

end Sys2Proof

namespace Sys2Proof.Machine

/-! ## The function-valued parameters (R7) -/

/-- The value at `x` of a map given by its exceptions to a base law. -/
def lookupMap (exceptions : List (Nat × Nat)) (base : Nat → Nat) (x : Nat) : Nat :=
  match exceptions with
  | [] => base x
  | (a, v) :: rest => if a = x then v else lookupMap rest base x

/-- `STEP_MAP[k]`: the identity but for the listed exceptions (R7, R219). -/
def stepIncrement (cc : ChipConfig) (step : Nat) : Nat := lookupMap cc.stepMap (fun v => v) step

/-- `VOL_LUT[k]`: `(v * 256) div (v + 10)` but for the listed exceptions (R7, R222). -/
def volumeGain (cc : ChipConfig) (vol : Nat) : Nat := lookupMap cc.volLut (fun v => v * 256 / (v + 10)) vol

/-! ## Register operands -/

/-- The channel a register write reaches: `((bank << 3) | slot) mod NCH` (R115, R140). -/
def channelIndex (cfg : Config) (bank : BitVec 4) (slot : BitVec 3) : Nat :=
  ((bank.toNat <<< 3) ||| slot.toNat) % cfg.nch

/-- `v[7:0]`, the low byte of a 16-bit register. -/
def lowByte (v : BitVec 16) : Byte := v.extractLsb' 0 8

/-- `v[15:8]`, the high byte of a 16-bit register. -/
def highByte (v : BitVec 16) : Byte := v.extractLsb' 8 8

/-- A 16-bit register with bits 7:0 replaced (R84). -/
def setLowByte (v : BitVec 16) (d : Byte) : BitVec 16 := highByte v ++ d

/-- A 16-bit register with bits 15:8 replaced (R84). -/
def setHighByte (v : BitVec 16) (d : Byte) : BitVec 16 := d ++ lowByte v

/-- `PAN[3:0]`, the left coefficient (R36, R223). -/
def panLeft (pan : Byte) : Nat := (pan.extractLsb' 0 4).toNat

/-- `PAN[7:4]`, the right coefficient (R36, R223). -/
def panRight (pan : Byte) : Nat := (pan.extractLsb' 4 4).toNat

/-! ## Position and byte address (R31, R81, R82) -/

/-- `trunc_PW`: what the `pos` field stores of a value (R11, R31). -/
def truncPos (cc : ChipConfig) (v : Nat) : Nat := v % 2 ^ cc.pw

/-- `pos[PW-1:FRAC]`: the byte address of a position, always below MEM_SIZE (R81). -/
def byteAddress (cc : ChipConfig) (pos : Nat) : Nat := (pos >>> cc.frac) % 2 ^ cc.addrBits

/-- `trunc_PW(a << FRAC)`: the position at the start of byte `a`, fraction 0 (R82). -/
def positionOf (cc : ChipConfig) (a : Nat) : Nat := truncPos cc (a <<< cc.frac)

/-- `trunc_PW(START << (8 + FRAC))`: the position a start page names (R34, R82). -/
def startPosition (cc : ChipConfig) (start : Byte) : Nat := truncPos cc (start.toNat <<< (8 + cc.frac))

/-- `trunc_PW(LOOP << FRAC)`: the position the loop register names (R33, R82). -/
def loopPosition (cc : ChipConfig) (loop : BitVec 16) : Nat := positionOf cc loop.toNat

/-- `(ia & ~0xFF) | D` (R141). -/
def setAddressLow (ia : Nat) (d : Byte) : Nat := ia / 2 ^ 8 * 2 ^ 8 + d.toNat

/-- `(ia & ~0xFF00) | (D << 8)` (R142), before it is cut to ADDR_BITS bits. -/
def setAddressHigh (ia : Nat) (d : Byte) : Nat := ia / 2 ^ 16 * 2 ^ 16 + d.toNat * 2 ^ 8 + ia % 2 ^ 8

/-! ## Integers and 32-bit fields (R11) -/

/-- `v >>> n`, which is `floor(v / 2^n)`: it rounds toward minus infinity. -/
def floorShift (v : Int) (n : Nat) : Int := v / 2 ^ n

/-- `clamp32(v) = min(max(v, -2^31), 2^31 - 1)`. -/
def clamp32 (v : Int) : Int := min (max v (-2 ^ 31)) (2 ^ 31 - 1)

/-- What a 32-bit two's-complement field stores of an integer (`trunc_32`, R11; assumption log 12). -/
def store32 (v : Int) : BitVec 32 := BitVec.ofInt 32 v

end Sys2Proof.Machine
end

