-- ==== Sys2Proof/Machine/Flags.lean ====
section
/-! DEFINITION. The only flags of CORE are `ch[c].en` (spec/10_state.md R37) and `chip[k].chip_on` (R39), and no transaction
writes either as a side effect beyond the ones those rules list (R47). This file holds every computation of a flag: arming a
channel, the two arms of CHON, the double sentinel, and GCTRL's chip enable. -/

namespace Sys2Proof.Machine

/-- TRIG: `en <- 1`, position and counter to their start (R150). -/
def Channel.arm (cc : ChipConfig) (ch : Channel) : Channel :=
  { ch with en := true, pos := startPosition cc ch.start, cnt := lowByte ch.step }

/-- A 1 bit of CHON: `en <- 1`, "position and counter kept" (R152). -/
def Channel.enable (ch : Channel) : Channel := { ch with en := true }

/-- A 0 bit of CHON: `en <- 0`, position and counter to their start (R152). -/
def Channel.disable (cc : ChipConfig) (ch : Channel) : Channel :=
  { ch with en := false, pos := startPosition cc ch.start, cnt := lowByte ch.step }

/-- The double sentinel: `en <- 0`, nothing else (R216). -/
def Channel.silence (ch : Channel) : Channel := { ch with en := false }

/-- GCTRL: `chip_on` and `bank`, both written by every GCTRL (R151). -/
def Chip.setControl (chipOn : Bool) (bank : BitVec 4) (chip : Chip) : Chip :=
  { chip with chipOn := chipOn, bank := bank }

end Sys2Proof.Machine
end

