-- ==== Sys2Proof/Machine/Ops.lean ====
section
/-! DEFINITION. The named operations over state: sample memory (spec/00_scope.md R13, spec/20_memory.md), channels and chips by
index, the output port, and the common part of every WREG (spec/40_register_write.md R140). There is no operation that takes
an exception or returns from one: "CORE has no trap" (spec/60_exceptions.md R300, R304, R305). Nor is a device acted on, so
no operation can fail. An index that names no chip or channel of the state reaches nothing (assumption log 9). -/

namespace Sys2Proof.Machine

/-! ## Sample memory -/

/-- What an address nothing has written reads as: the reset contents, 0x00 (R41, R86; assumption log 13). -/
def Memory.unlisted : Byte := 0x00#8

/-- `MemRead`: the byte last stored at `a` (R13, R86). -/
def Memory.read (m : Memory) (a : Nat) : Byte :=
  match m with
  | [] => Memory.unlisted
  | (b, v) :: rest => if b = a then v else Memory.read rest a

/-- An entry in front of a memory, left out where it would only repeat the unlisted value. -/
def Memory.put (a : Nat) (v : Byte) (m : Memory) : Memory := if v = Memory.unlisted then m else (a, v) :: m

/-- `MemWrite`: store the byte `v` at `a` (R13), keeping the canonical form. -/
def Memory.write (m : Memory) (a : Nat) (v : Byte) : Memory :=
  match m with
  | [] => Memory.put a v []
  | (b, x) :: rest =>
    if a < b then Memory.put a v ((b, x) :: rest)
    else if a = b then Memory.put a v rest
    else (b, x) :: Memory.write rest a v

/-- The canonical form: addresses strictly rising, no entry that repeats the unlisted value. -/
abbrev Memory.wf (m : Memory) : Prop := m.Pairwise (fun x y => x.1 < y.1) ∧ ∀ e ∈ m, e.2 ≠ Memory.unlisted

/-! ## Channels and chips by index -/

/-- `ch[c]`. Read only for `c < NCH`. -/
def Chip.channel (chip : Chip) (c : Nat) : Channel := chip.ch.getD c Channel.reset

/-- Replace `ch[c]` by a function of it. -/
def Chip.updateChannel (chip : Chip) (c : Nat) (f : Channel → Channel) : Chip :=
  { chip with ch := chip.ch.modify c f }

/-- `chip[k]`. Read only for `k < NCHIP`. -/
def State.chip (s : State) (k : Nat) : Chip := s.chips.getD k (Chip.reset 0)

/-- `chip[k].ch[c]`. -/
def State.channel (s : State) (k c : Nat) : Channel := (s.chip k).channel c

/-- `chip[k].mem[a]`: the model's read of one byte. -/
def State.readByte (s : State) (k a : Nat) : Byte := Memory.read (s.chip k).mem a

/-- Replace `chip[k]` by a function of it. -/
def State.updateChip (s : State) (k : Nat) (f : Chip → Chip) : State :=
  { s with chips := s.chips.modify k f }

/-! ## The output port -/

/-- The end of a transaction: it presents `o` to the host (R14, R48). -/
def State.respond (s : State) (o : Option Pair) : State := { s with out := o }

/-! ## The common part of a WREG (R140) -/

/-- A write to a global register of chip `k`: no effect when `k >= NCHIP` (R113), no pair returned. -/
def writeGlobal (k : BitVec 4) (f : Config → ChipConfig → Chip → Chip) (s : State) : State :=
  if k.toNat < s.cfg.nchip then (s.updateChip k.toNat (f s.cfg (s.cfg.chip k.toNat))).respond none else s.respond none

/-- A write to a channel register of chip `k`: the channel is computed from the bank the chip holds now (R115), and only that
channel changes. -/
def writeChannel (k : BitVec 4) (slot : BitVec 3) (f : ChipConfig → Channel → Channel) (s : State) : State :=
  writeGlobal k (fun cfg cc chip => chip.updateChannel (channelIndex cfg chip.bank slot) (f cc)) s

end Sys2Proof.Machine
end

