-- ==== Sys2Proof/Machine/Tick.lean ====
section
/-! DEFINITION. Generate: the channel step, the chip's tick and the command TICK (spec/42_generate.md R210 to R226). The
functions have the names and the order of R210's pseudocode. A channel step reads its own channel and the chip's memory and
changes only its own channel, so it is a function of those. -/

namespace Sys2Proof.Machine

/-- The volume shaper: `G = VOL_LUT[k](VOL)` (R222). -/
def gainOf (cc : ChipConfig) (ch : Channel) : Int := (volumeGain cc ch.vol.toNat : Int)

/-- BIAS coding (R220): subtract the bias, scale, pan, and shift with floor. -/
def outputBias (cc : ChipConfig) (ch : Channel) (b : Byte) : Int × Int :=
  let s := (b.toNat : Int) - (cc.biasVal.toNat : Int)
  let p := s * gainOf cc ch
  (floorShift (p * (panLeft ch.pan : Int)) cc.outShift, floorShift (p * (panRight ch.pan : Int)) cc.outShift)

/-- SIGNMAG coding (R221): the magnitude is scaled, panned and shifted, and the output negated if `b[7]` is set. -/
def outputSignmag (cc : ChipConfig) (ch : Channel) (b : Byte) : Int × Int :=
  let mag := ((b.extractLsb' 0 7).toNat : Int)
  let pl := floorShift (mag * gainOf cc ch * (panLeft ch.pan : Int)) cc.outShift
  let pr := floorShift (mag * gainOf cc ch * (panRight ch.pan : Int)) cc.outShift
  if b.getLsbD 7 then (-pl, -pr) else (pl, pr)

/-- `Output(k, c, b)`: what a channel contributes for the byte it plays (R220 to R223). -/
def output (cc : ChipConfig) (ch : Channel) (b : Byte) : Int × Int :=
  match cc.coding with
  | .bias => outputBias cc ch b
  | .signmag => outputSignmag cc ch b

/-- The position step of ACCUM mode: a fixed-point add modulo `2^PW` (R217). -/
def stepAccum (cc : ChipConfig) (ch : Channel) : Channel :=
  { ch with pos := truncPos cc (ch.pos + stepIncrement cc ch.step.toNat) }

/-- The position step of COUNTDOWN mode: a whole byte and a reload when the counter is 0, else a decrement (R218). -/
def stepCountdown (cc : ChipConfig) (ch : Channel) : Channel :=
  if ch.cnt = 0#8 then { ch with pos := truncPos cc (ch.pos + 2 ^ cc.frac), cnt := lowByte ch.step }
  else { ch with cnt := ch.cnt - 1#8 }

/-- `StepPosition(k, c)` (R217, R218). -/
def stepPosition (cc : ChipConfig) (ch : Channel) : Channel :=
  match cc.stepMode with
  | .accum => stepAccum cc ch
  | .countdown => stepCountdown cc ch

/-- The byte at a channel's position (R81, R214). -/
def fetchByte (cc : ChipConfig) (mem : Memory) (ch : Channel) : Byte := Memory.read mem (byteAddress cc ch.pos)

/-- A channel that plays byte `b`: the position is stepped, then the byte is output (R210). No step changes VOL or PAN, so the
output is that of the channel before the step. -/
def playByte (cc : ChipConfig) (ch : Channel) (b : Byte) : Channel × Int × Int :=
  let ch' := stepPosition cc ch
  (ch', output cc ch' b)

/-- The sentinel reload: `pos <- trunc_PW(LOOP << FRAC)`; the counter is not touched (R215). -/
def reload (cc : ChipConfig) (ch : Channel) : Channel := { ch with pos := loopPosition cc ch.loop }

/-- `Advance(k, c)`: the channel step, in the order of R303: the enable test, the sentinel test at the position, the sentinel
test at the loop address, the position step, the output (R210, R213 to R216). -/
def advance (cc : ChipConfig) (mem : Memory) (ch : Channel) : Channel × Int × Int :=
  if ch.en then
    let b := fetchByte cc mem ch
    if b = cc.sentinel then
      let ch' := reload cc ch
      let b' := fetchByte cc mem ch'
      if b' = cc.sentinel then (ch'.silence, 0, 0) else playByte cc ch' b'
    else playByte cc ch b
  else (ch, 0, 0)

/-- One round of the tick's loop: channel `c` advances and its contribution is added to the sums (R210). -/
def advanceInto (cc : ChipConfig) (acc : Chip × Int × Int) (c : Nat) : Chip × Int × Int :=
  let (chip, sumL, sumR) := acc
  if c < chip.ch.length then
    let (ch', l, r) := advance cc chip.mem (chip.channel c)
    (chip.updateChannel c (fun _ => ch'), sumL + l, sumR + r)
  else acc

/-- The channels of a tick, advanced in the order given, with their sums (R210, R212). -/
def advanceAll (cc : ChipConfig) (order : List Nat) (chip : Chip) : Chip × Int × Int :=
  order.foldl (advanceInto cc) (chip, 0, 0)

/-- `TickChip(k)` with the channels taken in the order given. -/
def tickInOrder (cc : ChipConfig) (order : List Nat) (chip : Chip) : Chip :=
  if chip.chipOn then
    let (chip', sumL, sumR) := advanceAll cc order chip
    { chip' with lastL := store32 sumL, lastR := store32 sumR }
  else { chip with lastL := 0#32, lastR := 0#32 }

/-- `TickChip(k)`: a chip that is off mutates no channel and generates (0, 0) (R211), else every channel `0..NCH-1` advances
in ascending order and the pair is the exact sum of the contributions (R210, R212, R224). -/
def tickChip (cfg : Config) (cc : ChipConfig) (chip : Chip) : Chip := tickInOrder cc (List.range cfg.nch) chip

/-- TICK: run one tick of chip `k` and return its new pair; (0, 0) when there is no such chip (R210, R113). It does not read or
change `racc` (R280). -/
def execTick (k : BitVec 4) (s : State) : Host.Outcome State Fault Refusal :=
  if k.toNat < s.cfg.nchip then
    let t := s.updateChip k.toNat (tickChip s.cfg (s.cfg.chip k.toNat))
    .next (t.respond (some ⟨(t.chip k.toNat).lastL, (t.chip k.toNat).lastR⟩))
  else .next (s.respond (some ⟨0#32, 0#32⟩))

end Sys2Proof.Machine
end

