-- ==== Sys2Proof/Machine/Frame.lean ====
section
/-! DEFINITION. The output frame, FRAME: the mix phase and the rate adapters (spec/43_frame_and_mixer.md R270 to R275). -/

namespace Sys2Proof.Machine

/-- One round of the mix loop: an active chip adds its last pair times its calibration gain (R272, R273). -/
def mixInto (s : State) (acc : Int × Int) (k : Nat) : Int × Int :=
  if (s.chip k).chipOn then
    (acc.1 + (s.chip k).lastL.toInt * ((s.cfg.chip k).chipGain : Int),
     acc.2 + (s.chip k).lastR.toInt * ((s.cfg.chip k).chipGain : Int))
  else acc

/-- The mix accumulator of a frame, `(SL, SR)`: recomputed every frame, not kept (R273, R45). -/
def mixSums (s : State) : Int × Int := (List.range s.cfg.nchip).foldl (mixInto s) (0, 0)

/-- `clamp32((S * GVOL) >>> 16)` (R273). -/
def mixLevel (sum : Int) (gvol : BitVec 16) : Int := clamp32 (floorShift (sum * (gvol.toNat : Int)) 16)

/-- `MixPhase()` (R271 to R273). -/
def mixPhase (s : State) : State :=
  { s with mix := { s.mix with
      frameL := store32 (mixLevel (mixSums s).1 s.mix.gvol)
      frameR := store32 (mixLevel (mixSums s).2 s.mix.gvol) } }

/-- `repeat n times: TickChip(k)`. -/
def tickTimes (cfg : Config) (cc : ChipConfig) : Nat → Chip → Chip
  | 0, chip => chip
  | n + 1, chip => tickTimes cfg cc n (tickChip cfg cc chip)

/-- One chip's rate adapter: add the clock, run a tick for every whole `THR` the accumulator holds, keep the remainder
(R274). -/
def rateChip (cfg : Config) (k : Nat) (chip : Chip) : Chip :=
  let thr := cfg.thr k
  let acc := chip.racc + (cfg.chip k).clock
  let n := acc / thr
  tickTimes cfg (cfg.chip k) n { chip with racc := acc - n * thr }

/-- `RatePhase()`: every chip, in ascending index order (R274). -/
def ratePhase (s : State) : State :=
  (List.range s.cfg.nchip).foldl (fun t k => t.updateChip k (rateChip t.cfg k)) s

/-- FRAME: emit the mix of the chips' pairs as they stand, then advance every chip to the next frame's time (R270). -/
def execFrame (s : State) : Host.Outcome State Fault Refusal :=
  let t := ratePhase (mixPhase s)
  .next (t.respond (some ⟨t.mix.frameL, t.mix.frameR⟩))

end Sys2Proof.Machine
end

