-- ==== Sys2Proof/Machine/Mix.lean ====
section
/-! DEFINITION. The mixer registers, WMIX, and the operations with no effect, NOP and RSVD (spec/43_frame_and_mixer.md R276 to
R279). -/

namespace Sys2Proof.Machine

/-- A write to the global volume; a WMIX returns no pair. -/
def writeGvol (v : BitVec 16) (s : State) : State := { s with mix := { s.mix with gvol := v }, out := none }

/-- WMIX.GVOLL: `GVOL[7:0] <- D` (R276). -/
def execWmixGvoll (d : Byte) (s : State) : Host.Outcome State Fault Refusal :=
  .next (writeGvol (setLowByte s.mix.gvol d) s)

/-- WMIX.GVOLH: `GVOL[15:8] <- D` (R277). -/
def execWmixGvolh (d : Byte) (s : State) : Host.Outcome State Fault Refusal :=
  .next (writeGvol (setHighByte s.mix.gvol d) s)

/-- NOP: "no state change, no output pair" (R278). -/
def execNop (s : State) : Host.Outcome State Fault Refusal := .next (s.respond none)

/-- RSVD, operation codes 0x6 and 0x7: "no state change, no output pair" (R279). -/
def execRsvd6 (s : State) : Host.Outcome State Fault Refusal := .next (s.respond none)

/-- RSVD, operation codes 0x8 to 0xF: "no state change, no output pair" (R279). -/
def execRsvd8 (s : State) : Host.Outcome State Fault Refusal := .next (s.respond none)

end Sys2Proof.Machine
end

