-- ==== Sys2Proof/Machine/Wmem.lean ====
section
/-! DEFINITION. The sample memory write, WMEM (spec/41_memory_write.md R200), the one store of CORE. -/

namespace Sys2Proof.Machine

/-- WMEM: store one byte; a chip that is not there or an address at or above MEM_SIZE is ignored, "not wrapped, not clamped"
(R200, R83, R113). -/
def execWmem (k : BitVec 4) (addr : BitVec 32) (d : Byte) (s : State) : Host.Outcome State Fault Refusal :=
  if k.toNat < s.cfg.nchip then
    if addr.toNat < (s.cfg.chip k.toNat).memSize then
      .next ((s.updateChip k.toNat fun chip => { chip with mem := Memory.write chip.mem addr.toNat d }).respond none)
    else .next (s.respond none)
  else .next (s.respond none)

end Sys2Proof.Machine
end

