-- ==== Sys2Proof/Machine/Wreg.lean ====
section
/-! DEFINITION. The register writes, WREG (spec/40_register_write.md): channel registers, global registers and the reserved
addresses of both spaces. Each meaning is the prologue of R140 (`writeChannel`, `writeGlobal`) around its rule's own effect. -/

namespace Sys2Proof.Machine

/-! ## Channel registers -/

/-- WREG.POSL: the low byte of the byte address, fraction cleared (R141). -/
def execWregPosl (k : BitVec 4) (slot : BitVec 3) (d : Byte) (s : State) : Host.Outcome State Fault Refusal :=
  .next (writeChannel k slot
    (fun cc ch => { ch with pos := positionOf cc (setAddressLow (byteAddress cc ch.pos) d) }) s)

/-- WREG.POSH: the high byte of the byte address, bits at or above ADDR_BITS dropped, fraction cleared (R142). -/
def execWregPosh (k : BitVec 4) (slot : BitVec 3) (d : Byte) (s : State) : Host.Outcome State Fault Refusal :=
  .next (writeChannel k slot
    (fun cc ch =>
      { ch with pos := positionOf cc (setAddressHigh (byteAddress cc ch.pos) d % 2 ^ cc.addrBits) }) s)

/-- WREG.STEPL: `STEP[7:0] <- D` (R143). -/
def execWregStepl (k : BitVec 4) (slot : BitVec 3) (d : Byte) (s : State) : Host.Outcome State Fault Refusal :=
  .next (writeChannel k slot (fun _ ch => { ch with step := setLowByte ch.step d }) s)

/-- WREG.STEPH: `STEP[15:8] <- D` (R144). -/
def execWregSteph (k : BitVec 4) (slot : BitVec 3) (d : Byte) (s : State) : Host.Outcome State Fault Refusal :=
  .next (writeChannel k slot (fun _ ch => { ch with step := setHighByte ch.step d }) s)

/-- WREG.LOOPL: `LOOP[7:0] <- D` (R145). -/
def execWregLoopl (k : BitVec 4) (slot : BitVec 3) (d : Byte) (s : State) : Host.Outcome State Fault Refusal :=
  .next (writeChannel k slot (fun _ ch => { ch with loop := setLowByte ch.loop d }) s)

/-- WREG.LOOPH: `LOOP[15:8] <- D` (R146). -/
def execWregLooph (k : BitVec 4) (slot : BitVec 3) (d : Byte) (s : State) : Host.Outcome State Fault Refusal :=
  .next (writeChannel k slot (fun _ ch => { ch with loop := setHighByte ch.loop d }) s)

/-- WREG.START: `START <- D`; the position does not move (R147). -/
def execWregStart (k : BitVec 4) (slot : BitVec 3) (d : Byte) (s : State) : Host.Outcome State Fault Refusal :=
  .next (writeChannel k slot (fun _ ch => { ch with start := d }) s)

/-- WREG.VOL: `VOL <- D` (R148). -/
def execWregVol (k : BitVec 4) (slot : BitVec 3) (d : Byte) (s : State) : Host.Outcome State Fault Refusal :=
  .next (writeChannel k slot (fun _ ch => { ch with vol := d }) s)

/-- WREG.PAN: `PAN <- D` (R149). -/
def execWregPan (k : BitVec 4) (slot : BitVec 3) (d : Byte) (s : State) : Host.Outcome State Fault Refusal :=
  .next (writeChannel k slot (fun _ ch => { ch with pan := d }) s)

/-- WREG.TRIG: arm the channel; any data value arms (R150). -/
def execWregTrig (k : BitVec 4) (slot : BitVec 3) (s : State) : Host.Outcome State Fault Refusal :=
  .next (writeChannel k slot Channel.arm s)

/-- WREG.RSVD, channel functions 0xA and 0xB: the channel index is computed, nothing is written to it (R153). -/
def execWregRsvdChA (k : BitVec 4) (slot : BitVec 3) (s : State) : Host.Outcome State Fault Refusal :=
  .next (writeChannel k slot (fun _ ch => ch) s)

/-- WREG.RSVD, channel functions 0xC to 0xF: the channel index is computed, nothing is written to it (R153). -/
def execWregRsvdChC (k : BitVec 4) (slot : BitVec 3) (s : State) : Host.Outcome State Fault Refusal :=
  .next (writeChannel k slot (fun _ ch => ch) s)

/-! ## Global registers -/

/-- WREG.GCTRL: `chip_on <- D[7]`, `bank <- D[3:0]` (R151). -/
def execWregGctrl (k : BitVec 4) (chipOn : Bool) (bank : BitVec 4) (s : State) : Host.Outcome State Fault Refusal :=
  .next (writeGlobal k (fun _ _ chip => chip.setControl chipOn bank) s)

/-- One round of CHON's loop: data bit `i` controls channel `8g + i`, if there is one (R152). -/
def chonBit (cfg : Config) (cc : ChipConfig) (g : BitVec 4) (d : Byte) (chip : Chip) (i : Nat) : Chip :=
  if 8 * g.toNat + i < cfg.nch then
    chip.updateChannel (8 * g.toNat + i) (if d.getLsbD i then Channel.enable else Channel.disable cc)
  else chip

/-- CHON's loop, `for i in 0..7` (R152). -/
def chonGroup (g : BitVec 4) (d : Byte) (cfg : Config) (cc : ChipConfig) (chip : Chip) : Chip :=
  (List.range 8).foldl (chonBit cfg cc g d) chip

/-- WREG.CHON: bulk enable and disable of a group of eight channels; not redirected by `bank` (R152). -/
def execWregChon (k : BitVec 4) (g : BitVec 4) (d : Byte) (s : State) : Host.Outcome State Fault Refusal :=
  .next (writeGlobal k (chonGroup g d) s)

/-- WREG.RSVD, address 0x81: no effect (R154). -/
def execWregRsvdG81 (k : BitVec 4) (s : State) : Host.Outcome State Fault Refusal :=
  .next (writeGlobal k (fun _ _ chip => chip) s)

/-- WREG.RSVD, addresses 0x82 and 0x83: no effect (R154). -/
def execWregRsvdG82 (k : BitVec 4) (s : State) : Host.Outcome State Fault Refusal :=
  .next (writeGlobal k (fun _ _ chip => chip) s)

/-- WREG.RSVD, addresses 0x84 to 0x87: no effect (R154). -/
def execWregRsvdG84 (k : BitVec 4) (s : State) : Host.Outcome State Fault Refusal :=
  .next (writeGlobal k (fun _ _ chip => chip) s)

/-- WREG.RSVD, addresses 0x88 to 0x8F: no effect (R154). -/
def execWregRsvdG88 (k : BitVec 4) (s : State) : Host.Outcome State Fault Refusal :=
  .next (writeGlobal k (fun _ _ chip => chip) s)

/-- WREG.RSVD, addresses 0xA0 to 0xBF: no effect (R154). -/
def execWregRsvdGA0 (k : BitVec 4) (s : State) : Host.Outcome State Fault Refusal :=
  .next (writeGlobal k (fun _ _ chip => chip) s)

/-- WREG.RSVD, addresses 0xC0 to 0xFF: no effect (R154). -/
def execWregRsvdGC0 (k : BitVec 4) (s : State) : Host.Outcome State Fault Refusal :=
  .next (writeGlobal k (fun _ _ chip => chip) s)

end Sys2Proof.Machine
end

