-- ==== Sys2Proof/Machine/Dispatch.lean ====
section
/-! DEFINITION. The dispatch: one arm per constructor of Instr, each one direct call of its meaning. -/

namespace Sys2Proof.Machine

-- The effect of one command (transaction) on the state: spec/00_scope.md R6, R14.
def exec (i : Instr) (s : State) : Host.Outcome State Fault Refusal :=
  match i with
  | .nop => Sys2Proof.Machine.execNop s
  | .wregPosl k slot d => Sys2Proof.Machine.execWregPosl k slot d s
  | .wregPosh k slot d => Sys2Proof.Machine.execWregPosh k slot d s
  | .wregStepl k slot d => Sys2Proof.Machine.execWregStepl k slot d s
  | .wregSteph k slot d => Sys2Proof.Machine.execWregSteph k slot d s
  | .wregLoopl k slot d => Sys2Proof.Machine.execWregLoopl k slot d s
  | .wregLooph k slot d => Sys2Proof.Machine.execWregLooph k slot d s
  | .wregStart k slot d => Sys2Proof.Machine.execWregStart k slot d s
  | .wregVol k slot d => Sys2Proof.Machine.execWregVol k slot d s
  | .wregPan k slot d => Sys2Proof.Machine.execWregPan k slot d s
  | .wregTrig k slot => Sys2Proof.Machine.execWregTrig k slot s
  | .wregRsvdChA k slot => Sys2Proof.Machine.execWregRsvdChA k slot s
  | .wregRsvdChC k slot => Sys2Proof.Machine.execWregRsvdChC k slot s
  | .wregGctrl k chipOn bank => Sys2Proof.Machine.execWregGctrl k chipOn bank s
  | .wregChon k g d => Sys2Proof.Machine.execWregChon k g d s
  | .wregRsvdG81 k => Sys2Proof.Machine.execWregRsvdG81 k s
  | .wregRsvdG82 k => Sys2Proof.Machine.execWregRsvdG82 k s
  | .wregRsvdG84 k => Sys2Proof.Machine.execWregRsvdG84 k s
  | .wregRsvdG88 k => Sys2Proof.Machine.execWregRsvdG88 k s
  | .wregRsvdGA0 k => Sys2Proof.Machine.execWregRsvdGA0 k s
  | .wregRsvdGC0 k => Sys2Proof.Machine.execWregRsvdGC0 k s
  | .wmem k addr d => Sys2Proof.Machine.execWmem k addr d s
  | .tick k => Sys2Proof.Machine.execTick k s
  | .frame => Sys2Proof.Machine.execFrame s
  | .wmixGvoll d => Sys2Proof.Machine.execWmixGvoll d s
  | .wmixGvolh d => Sys2Proof.Machine.execWmixGvolh d s
  | .rsvd6 => Sys2Proof.Machine.execRsvd6 s
  | .rsvd8 => Sys2Proof.Machine.execRsvd8 s

end Sys2Proof.Machine
end

