-- ==== Sys2Proof/Machine/Ingest.lean ====
section
/-! DEFINITION. What CORE takes from the host (assumption logs 3, 4): the next input, the effect of the reset input
(spec/70_reset_and_hazards.md R330, R331), and the placing of a command word as the next input. CORE fetches nothing: the
host presents each command word (spec/10_state.md R46). -/

namespace Sys2Proof.Machine

/-- The state with its first input taken off. -/
def State.dropInput (s : State) : State := { s with inputs := s.inputs.tail }

/-- The reset input: every field at its reset value; the configuration is kept (R330, R331), and what the host has still to
present is the host's, so it is kept too. -/
def State.applyReset (s : State) : State := State.resetWith s.cfg s.inputs

/-- One input taken by CORE. -/
def ingest (input : HostInput) (s : State) : Host.Outcome State Fault Refusal :=
  match input with
  | .command w => exec (decode w) s
  | .reset => .next s.applyReset

/-- `w` presented as the next command word, its bits above `nbits` 0, before whatever else the host has to present. -/
def presentWord (s : State) (nbits w : Nat) : State :=
  { s with inputs := .command (BitVec.ofNat 48 (w % 2 ^ nbits)) :: s.inputs }

end Sys2Proof.Machine
end

