-- ==== Sys2Proof/Machine/Step.lean ====
section
/-! DEFINITION. One step of CORE: it takes the next input the host presents and runs it to completion (spec/00_scope.md R6,
spec/20_memory.md R88). With nothing presented it stays as it is (assumption log 4). A configuration outside its legal ranges
is refused (spec/00_scope.md R7). -/

namespace Sys2Proof.Machine

/-- One step. -/
def step (s : State) : Host.Outcome State Fault Refusal :=
  if s.cfg.legal then
    match s.inputs with
    | [] => .next s
    | input :: _ => ingest input s.dropInput
  else .refused .illegalConfig

/-- `s` with a command word placed where `step` takes its next input. -/
def State.withFetchWord (s : State) (nbits w : Nat) : State := presentWord s nbits w

end Sys2Proof.Machine
end

