-- ==== Sys2Proof/Machine/Assembler.lean ====
section
/-! DEFINITION. The assembler of spec/30_encoding.md: the word of each line (R123), the expansion of each pseudo-instruction
(R124), and the reading of a line of text. It is the host's tool: no step of CORE uses it. The lexical details R123 does not
give are assumption log 11. -/

namespace Sys2Proof.Machine

/-! ## Words of lines (R123) -/

/-- The function code of a channel function (R116). -/
def funcCode : ChannelFunc → Nat
  | .posl => 0x0
  | .posh => 0x1
  | .stepl => 0x2
  | .steph => 0x3
  | .loopl => 0x4
  | .looph => 0x5
  | .start => 0x6
  | .vol => 0x7
  | .pan => 0x8
  | .trig => 0x9

/-- `{0x1, k[3:0], zext_32(A[7:0]), D[7:0]}`. -/
def wregWord (k a d : Nat) : CommandWord := packWreg (BitVec.ofNat 4 k) (BitVec.ofNat 8 a) (BitVec.ofNat 8 d)

/-- The word of a line: the second column of R123's table. -/
def asmWord : AsmLine → CommandWord
  | .nop => 0x000000000000#48
  | .wreg k a d => wregWord k a d
  | .wregFunc k func slot d => wregWord k ((slot <<< 4) ||| funcCode func) d
  | .wregGctrl k d => wregWord k 0x80 d
  | .wregChon k g d => wregWord k (0x90 + g) d
  | .wmem k addr d => packWord 0x2#4 (BitVec.ofNat 4 k) (BitVec.ofNat 32 addr) (BitVec.ofNat 8 d)
  | .tick k => packWord 0x3#4 (BitVec.ofNat 4 k) 0#32 0#8
  | .frame => 0x400000000000#48
  | .wmixGvoll d => packWord 0x5#4 0#4 0x00000000#32 (BitVec.ofNat 8 d)
  | .wmixGvolh d => packWord 0x5#4 0#4 0x00000001#32 (BitVec.ofNat 8 d)

/-! ## Pseudo-instructions (R124) -/

/-- `v16[7:0]`. -/
def lowOf (v : Nat) : Nat := v % 2 ^ 8
/-- `v16[15:8]`. -/
def highOf (v : Nat) : Nat := v / 2 ^ 8 % 2 ^ 8

/-- `WMEM k, a, b0 ; WMEM k, a+1, b1 ; ...`. -/
def loadLines (k addr : Nat) : List Nat → List AsmLine
  | [] => []
  | b :: rest => .wmem k addr b :: loadLines k (addr + 1) rest

/-- The expansion of a pseudo-instruction, in the order R124 gives. -/
def expandPseudo : Pseudo → List AsmLine
  | .setstep k s v => [.wregFunc k .stepl s (lowOf v), .wregFunc k .steph s (highOf v)]
  | .setloop k s v => [.wregFunc k .loopl s (lowOf v), .wregFunc k .looph s (highOf v)]
  | .setpos k s v => [.wregFunc k .posl s (lowOf v), .wregFunc k .posh s (highOf v)]
  | .keyon k s => [.wregFunc k .trig s 0x00]
  | .chipon k b => [.wregGctrl k (0x80 ||| b % 2 ^ 4)]
  | .chipoff k b => [.wregGctrl k (b % 2 ^ 4)]
  | .setgvol v => [.wmixGvoll (lowOf v), .wmixGvolh (highOf v)]
  | .loadmem k a bs => loadLines k a bs

/-- The command words of a pseudo-instruction. -/
def pseudoWords (p : Pseudo) : List CommandWord := (expandPseudo p).map asmWord

/-! ## Reading a line of text (R123) -/

/-- The word read so far, if any, as a token. -/
def flushToken (cur : List Char) : List (List Char) := if cur = [] then [] else [cur]

/-- The tokens of a line: words, `,` and `@`. Blanks separate; `;` starts a comment. -/
def tokensOf (cur : List Char) : List Char → List (List Char)
  | [] => flushToken cur
  | c :: rest =>
    if c = ';' then flushToken cur
    else if c = ' ' || c = '\t' then flushToken cur ++ tokensOf [] rest
    else if c = ',' || c = '@' then flushToken cur ++ [c] :: tokensOf [] rest
    else tokensOf (cur ++ [c]) rest

/-- The value of a digit in base 16. -/
def digitValue (c : Char) : Option Nat :=
  let n := c.toNat
  if '0'.toNat ≤ n ∧ n ≤ '9'.toNat then some (n - '0'.toNat)
  else if 'A'.toNat ≤ n ∧ n ≤ 'F'.toNat then some (n - 'A'.toNat + 10)
  else if 'a'.toNat ≤ n ∧ n ≤ 'f'.toNat then some (n - 'a'.toNat + 10)
  else none

/-- Digits in a base, after the value read so far. -/
def digitsValue (base acc : Nat) : List Char → Option Nat
  | [] => some acc
  | c :: rest =>
    match digitValue c with
    | some v => if v < base then digitsValue base (base * acc + v) rest else none
    | none => none

/-- A number: decimal, or hexadecimal after `0x`. -/
def numberOf : List Char → Option Nat
  | '0' :: 'x' :: c :: rest => digitsValue 16 0 (c :: rest)
  | c :: rest => digitsValue 10 0 (c :: rest)
  | [] => none

/-- The arguments of a line: its tokens split at the commas. -/
def splitArgs (cur : List (List Char)) : List (List Char) → List (List (List Char))
  | [] => [cur]
  | t :: rest => if t = [','] then cur :: splitArgs [] rest else splitArgs (cur ++ [t]) rest

/-- A channel function's name. -/
def funcOf (t : List Char) : Option ChannelFunc :=
  if t = ['P', 'O', 'S', 'L'] then some .posl
  else if t = ['P', 'O', 'S', 'H'] then some .posh
  else if t = ['S', 'T', 'E', 'P', 'L'] then some .stepl
  else if t = ['S', 'T', 'E', 'P', 'H'] then some .steph
  else if t = ['L', 'O', 'O', 'P', 'L'] then some .loopl
  else if t = ['L', 'O', 'O', 'P', 'H'] then some .looph
  else if t = ['S', 'T', 'A', 'R', 'T'] then some .start
  else if t = ['V', 'O', 'L'] then some .vol
  else if t = ['P', 'A', 'N'] then some .pan
  else if t = ['T', 'R', 'I', 'G'] then some .trig
  else none

/-- The register argument of a WREG, then its data. -/
def wregLine (k : Nat) (reg : List (List Char)) (d : Nat) : Option AsmLine :=
  match reg with
  | [['G', 'C', 'T', 'R', 'L']] => some (.wregGctrl k d)
  | [('C' :: 'H' :: 'O' :: 'N' :: g)] => (numberOf g).map fun g => .wregChon k g d
  | [a] => (numberOf a).map fun a => .wreg k a d
  | [f, ['@'], slot] => (funcOf f).bind fun f => (numberOf slot).map fun slot => .wregFunc k f slot d
  | _ => none

/-- The arguments that are all single numbers. -/
def numbersOf : List (List (List Char)) → Option (List Nat)
  | [] => some []
  | [t] :: rest => (numberOf t).bind fun v => (numbersOf rest).map (v :: ·)
  | _ => none

/-- A line of R123 from its mnemonic and arguments. -/
def lineOf (mnemonic : List Char) (args : List (List (List Char))) : Option AsmLine :=
  match mnemonic, args with
  | ['N', 'O', 'P'], [[]] => some .nop
  | ['F', 'R', 'A', 'M', 'E'], [[]] => some .frame
  | ['T', 'I', 'C', 'K'], [[k]] => (numberOf k).map .tick
  | ['W', 'R', 'E', 'G'], [[k], reg, [d]] => (numberOf k).bind fun k => (numberOf d).bind fun d => wregLine k reg d
  | ['W', 'R', 'E', 'G'], [[k], [['T', 'R', 'I', 'G'], ['@'], slot]] =>
    (numberOf k).bind fun k => (numberOf slot).map fun slot => .wregFunc k .trig slot 0x00
  | ['W', 'M', 'E', 'M'], [[k], [a], [d]] =>
    (numberOf k).bind fun k => (numberOf a).bind fun a => (numberOf d).map fun d => .wmem k a d
  | ['W', 'M', 'I', 'X'], [[['G', 'V', 'O', 'L', 'L']], [d]] => (numberOf d).map .wmixGvoll
  | ['W', 'M', 'I', 'X'], [[['G', 'V', 'O', 'L', 'H']], [d]] => (numberOf d).map .wmixGvolh
  | _, _ => none

/-- A pseudo-instruction of R124 from its mnemonic and the numbers after it. -/
def pseudoOf (mnemonic : List Char) (args : List Nat) : Option Pseudo :=
  match mnemonic, args with
  | ['S', 'E', 'T', 'S', 'T', 'E', 'P'], [k, s, v] => some (.setstep k s v)
  | ['S', 'E', 'T', 'L', 'O', 'O', 'P'], [k, s, v] => some (.setloop k s v)
  | ['S', 'E', 'T', 'P', 'O', 'S'], [k, s, v] => some (.setpos k s v)
  | ['K', 'E', 'Y', 'O', 'N'], [k, s] => some (.keyon k s)
  | ['C', 'H', 'I', 'P', 'O', 'N'], [k, b] => some (.chipon k b)
  | ['C', 'H', 'I', 'P', 'O', 'F', 'F'], [k, b] => some (.chipoff k b)
  | ['S', 'E', 'T', 'G', 'V', 'O', 'L'], [v] => some (.setgvol v)
  | ['L', 'O', 'A', 'D', 'M', 'E', 'M'], k :: a :: b :: bs => some (.loadmem k a (b :: bs))
  | _, _ => none

/-- The command words of one line of assembly text; none where the line is not of R123's or R124's syntax, or a slot or
group is out of its range. A blank or comment line has no word. -/
def assembleLine (text : List Char) : Option (List CommandWord) :=
  match tokensOf [] text with
  | [] => some []
  | mnemonic :: rest =>
    match lineOf mnemonic (splitArgs [] rest) with
    | some line => if line.wf then some [asmWord line] else none
    | none =>
      ((numbersOf (splitArgs [] rest)).bind (pseudoOf mnemonic)).bind fun p =>
        if p.wf then some (pseudoWords p) else none

end Sys2Proof.Machine
end

