-- ==== Sys2Proof/Safety.lean ====
section
/-! DEFINITION. The terms the statements are written in: the invariant of CORE, what a transaction leaves alone, the values
after reset, and repeated host TICKs, FRAMEs and steps. CORE has no unsafe run to exclude, since it raises no exception
(spec/60_exceptions.md R300): a safe run is one from a state that meets the invariant. -/

namespace Sys2Proof.Machine

/-! ## The invariant -/

/-- The largest magnitude of one channel's contribution over every legal configuration, `255 * 256 * 15` (R224). -/
def contributionBound : Int := 979200

/-- A chip's fields in the ranges the spec gives them: NCH channels (R30), PW-bit positions (R31), a canonical memory of
MEM_SIZE bytes (R41), a sum of at most NCH contributions in the last pair (R224), `0 <= racc < THR[k]` (R43). -/
abbrev ChipOk (cfg : Config) (k : Nat) (chip : Chip) : Prop :=
  chip.ch.length = cfg.nch ∧
  (∀ ch ∈ chip.ch, ch.pos < 2 ^ (cfg.chip k).pw) ∧
  (Memory.wf chip.mem ∧ ∀ e ∈ chip.mem, e.1 < (cfg.chip k).memSize) ∧
  (-(cfg.nch * contributionBound) ≤ chip.lastL.toInt ∧ chip.lastL.toInt ≤ cfg.nch * contributionBound) ∧
  (-(cfg.nch * contributionBound) ≤ chip.lastR.toInt ∧ chip.lastR.toInt ≤ cfg.nch * contributionBound) ∧
  chip.racc < cfg.thr k

/-- The invariant: a legal configuration (R7), NCHIP chips (R30), each in range. -/
abbrev State.Inv (s : State) : Prop :=
  s.cfg.legal = true ∧ s.chips.length = s.cfg.nchip ∧ ∀ k < s.cfg.nchip, ChipOk s.cfg k (s.chip k)

/-- The invariant of COUNTDOWN mode: "the fraction of `pos` is always 0 in this mode" (R218). -/
abbrev State.WholeBytes (s : State) : Prop :=
  ∀ k < s.cfg.nchip, (s.cfg.chip k).stepMode = .countdown → ∀ ch ∈ (s.chip k).ch, ch.pos % 2 ^ (s.cfg.chip k).frac = 0

/-! ## What a transaction leaves alone -/

/-- Everything outside chip `k` and the output port is unchanged. -/
structure SameOutsideChip (s t : State) (k : Nat) : Prop where
  cfg : t.cfg = s.cfg
  mix : t.mix = s.mix
  inputs : t.inputs = s.inputs
  count : t.chips.length = s.chips.length
  chips : ∀ j, j ≠ k → t.chip j = s.chip j

/-- Everything but channel `c` of chip `k` and the output port is unchanged, every byte of every memory included. -/
structure SameOutsideChannel (s t : State) (k c : Nat) : Prop where
  outside : SameOutsideChip s t k
  count : (t.chip k).ch.length = (s.chip k).ch.length
  chipOn : (t.chip k).chipOn = (s.chip k).chipOn
  bank : (t.chip k).bank = (s.chip k).bank
  lastL : (t.chip k).lastL = (s.chip k).lastL
  lastR : (t.chip k).lastR = (s.chip k).lastR
  racc : (t.chip k).racc = (s.chip k).racc
  channels : ∀ e, e ≠ c → t.channel k e = s.channel k e
  bytes : ∀ j a, t.readByte j a = s.readByte j a

/-- What no tick changes of a channel: STEP, LOOP, START, VOL, PAN. -/
abbrev SameRegisters (x y : Channel) : Prop :=
  y.step = x.step ∧ y.loop = x.loop ∧ y.start = x.start ∧ y.vol = x.vol ∧ y.pan = x.pan

/-- What a tick of chip `k` leaves alone: everything outside the chip, and of the chip the enable, the bank, every byte of
memory, the rate accumulator and the programmed registers of every channel. -/
structure SameUnderTick (s t : State) (k : Nat) : Prop where
  outside : SameOutsideChip s t k
  count : (t.chip k).ch.length = (s.chip k).ch.length
  chipOn : (t.chip k).chipOn = (s.chip k).chipOn
  bank : (t.chip k).bank = (s.chip k).bank
  racc : (t.chip k).racc = (s.chip k).racc
  registers : ∀ c, SameRegisters (s.channel k c) (t.channel k c)
  bytes : ∀ j a, t.readByte j a = s.readByte j a

/-- The state but for the output port. -/
def State.quiet (s : State) : State := { s with out := none }

/-- The channel a slot of chip `k` reaches now: `((bank << 3) | slot) mod NCH` (R115). -/
def State.target (s : State) (k : Nat) (slot : BitVec 3) : Nat :=
  (8 * (s.chip k).bank.toNat + slot.toNat) % s.cfg.nch

/-- One channel's step and contribution in the state as it stands (R210 `Advance(k, c)`). -/
def State.advanced (s : State) (k c : Nat) : Channel × Int × Int :=
  advance (s.cfg.chip k) (s.chip k).mem (s.channel k c)

/-- A playing channel: the chip is on, the channel exists and is enabled. -/
abbrev State.Playing (s : State) (k c : Nat) : Prop :=
  k < s.cfg.nchip ∧ (s.chip k).chipOn = true ∧ c < s.cfg.nch ∧ (s.channel k c).en = true

/-- The byte channel `c` of chip `k` plays at its next step: the byte at its byte address, or after a sentinel the byte at its
loop address, or none after a second sentinel (R214 to R216). -/
def State.playedByte (s : State) (k c : Nat) : Option Byte :=
  if s.readByte k ((s.channel k c).pos / 2 ^ (s.cfg.chip k).frac) ≠ (s.cfg.chip k).sentinel then
    some (s.readByte k ((s.channel k c).pos / 2 ^ (s.cfg.chip k).frac))
  else if s.readByte k ((s.channel k c).loop.toNat % (s.cfg.chip k).memSize) ≠ (s.cfg.chip k).sentinel then
    some (s.readByte k ((s.channel k c).loop.toNat % (s.cfg.chip k).memSize))
  else none

/-- `SL * GVOL`'s first factor for one side: the sum over active chips of the last pair's side times the calibration gain
(R272, R273). -/
def State.mixedSum (s : State) (side : Chip → BitVec 32) : Int :=
  ∑ k ∈ Finset.range s.cfg.nchip,
    if (s.chip k).chipOn = true then (side (s.chip k)).toInt * ((s.cfg.chip k).chipGain : Int) else 0

/-! ## Families of commands -/

/-- The channel register write a function name stands for (R116). -/
def funcInstr (func : ChannelFunc) (k : BitVec 4) (slot : BitVec 3) (d : Byte) : Instr :=
  match func with
  | .posl => .wregPosl k slot d
  | .posh => .wregPosh k slot d
  | .stepl => .wregStepl k slot d
  | .steph => .wregSteph k slot d
  | .loopl => .wregLoopl k slot d
  | .looph => .wregLooph k slot d
  | .start => .wregStart k slot d
  | .vol => .wregVol k slot d
  | .pan => .wregPan k slot d
  | .trig => .wregTrig k slot

end Sys2Proof.Machine

namespace Sys2Proof

/-- The reserved commands (R153, R154, R279). -/
def Instr.isReserved : Instr → Bool
  | .wregRsvdChA .. | .wregRsvdChC .. | .wregRsvdG81 .. | .wregRsvdG82 .. | .wregRsvdG84 .. | .wregRsvdG88 ..
  | .wregRsvdGA0 .. | .wregRsvdGC0 .. | .rsvd6 | .rsvd8 => true
  | .nop | .wregPosl .. | .wregPosh .. | .wregStepl .. | .wregSteph .. | .wregLoopl .. | .wregLooph .. | .wregStart ..
  | .wregVol .. | .wregPan .. | .wregTrig .. | .wregGctrl .. | .wregChon .. | .wmem .. | .tick .. | .frame
  | .wmixGvoll .. | .wmixGvolh .. => false

/-- The commands that change what a channel plays but neither the mixer nor a chip's enable: the channel register writes,
CHON and WMEM. -/
def Instr.writesVoices : Instr → Bool
  | .wregPosl .. | .wregPosh .. | .wregStepl .. | .wregSteph .. | .wregLoopl .. | .wregLooph .. | .wregStart ..
  | .wregVol .. | .wregPan .. | .wregTrig .. | .wregChon .. | .wmem .. => true
  | .nop | .wregRsvdChA .. | .wregRsvdChC .. | .wregRsvdG81 .. | .wregRsvdG82 .. | .wregRsvdG84 .. | .wregRsvdG88 ..
  | .wregRsvdGA0 .. | .wregRsvdGC0 .. | .wregGctrl .. | .tick .. | .frame | .wmixGvoll .. | .wmixGvolh .. | .rsvd6
  | .rsvd8 => false

/-- The commands that tick: TICK, and FRAME through its rate phase. -/
def Instr.ticks (i : Instr) (k : Nat) : Prop := (∃ chip, i = .tick chip ∧ chip.toNat = k) ∨ i = .frame

end Sys2Proof

namespace Sys2Proof.Machine

/-! ## Reset values -/

/-- Every field at the reset value of spec/10_state.md R51. -/
structure ResetValues (t : State) : Prop where
  chips : t.chips.length = t.cfg.nchip
  channels : ∀ k < t.cfg.nchip, (t.chip k).ch.length = t.cfg.nch ∧ ∀ c < t.cfg.nch,
    t.channel k c = ⟨0, 0#16, 0#16, 0#8, 0#8, 0#8, false, 0#8⟩
  chipFields : ∀ k < t.cfg.nchip, (t.chip k).chipOn = false ∧ (t.chip k).bank = 0#4 ∧ (t.chip k).lastL = 0#32 ∧
    (t.chip k).lastR = 0#32 ∧ (t.chip k).racc = 0
  bytes : ∀ k < t.cfg.nchip, ∀ a, t.readByte k a = 0x00#8
  mixer : t.mix = ⟨0x0100#16, 0#32, 0#32⟩

/-! ## Repeated commands -/

/-- The state after `n` host TICKs of chip `k`. -/
def afterTicks (k : BitVec 4) : Nat → State → State
  | 0, s => s
  | n + 1, s =>
    match exec (.tick k) s with
    | .next t => afterTicks k n t
    | .fault _ => s
    | .refused _ => s

/-- The state after `n` FRAMEs. -/
def afterFrames : Nat → State → State
  | 0, s => s
  | n + 1, s =>
    match exec .frame s with
    | .next t => afterFrames n t
    | .fault _ => s
    | .refused _ => s

/-- `n` steps, stopping at the first refusal. -/
def stepTimes : Nat → State → Host.Outcome State Fault Refusal
  | 0, s => .next s
  | n + 1, s =>
    match step s with
    | .next t => stepTimes n t
    | .fault r => .fault r
    | .refused r => .refused r

end Sys2Proof.Machine
end

