-- ==== Sys2Proof/Certificates/Slice0/Obligations.lean ====
section
/-! DEFINITION. The statements about the model, each from the rules of spec/ that its docstring and OBLIGATIONS.json name. -/

open Sys2Proof Sys2Proof.Machine

/-! ## Encoding -/

/-- Decoding an encoded command gives it back, with every operand at every value (30_encoding.md). -/
def Obligations.DecodeUndoesEncode : Prop := ∀ i : Instr, decode (encode i) = i

/-- Encoding a decoded word gives the word with exactly the bits its table row writes `x` cleared: every lettered field is
read from and written to its own bits, and an ignored field may hold any value (R111). -/
def Obligations.EncodeClearsExactlyIgnoredBits : Prop :=
  ∀ w : CommandWord, encode (decode w) = w &&& (decode w).row.used

/-- R120: every word decodes to exactly one row of the table, no word traps, NOP and the reserved operation codes change no
state. -/
def Obligations.EveryWordIsOneRowAndNoneTraps : Prop :=
  ∀ w : CommandWord,
    ((decode w).row ∈ opcodeRows ∧ (decode w).row.selects w = true ∧
      ∀ r ∈ opcodeRows, r.selects w = true → r = (decode w).row) ∧
    (6 ≤ (wordOp w).toNat → (decode w).row.mnemonic = "RSVD") ∧
    ((wordOp w).toNat = 0 → (decode w).row.mnemonic = "NOP") ∧
    ∀ s : State, (∃ t, exec (decode w) s = .next t) ∧
      ((wordOp w).toNat = 0 ∨ 6 ≤ (wordOp w).toNat → exec (decode w) s = .next s.quiet)

/-- Words written out from the encodings of the spec's examples decode to the commands they stand for. -/
def Obligations.ExampleWordsDecode : Prop :=
  decode 0x100000002034#48 = .wregPosl 0#4 2#3 0x34#8 ∧
  decode 0x100000002101#48 = .wregPosh 0#4 2#3 0x01#8 ∧
  decode 0x100000000900#48 = .wregTrig 0#4 0#3 ∧
  decode 0x100000008081#48 = .wregGctrl 0#4 true 1#4 ∧
  decode 0x100000009180#48 = .wregChon 0#4 1#4 0x80#8 ∧
  decode 0x2000000004FF#48 = .wmem 0#4 4#32 0xFF#8 ∧
  decode 0x300000000000#48 = .tick 0#4 ∧
  decode 0x5F0000000340#48 = .wmixGvolh 0x40#8 ∧
  decode 0x7100000080FF#48 = .rsvd6

/-- The words of the assembler's lines decode to the commands the lines name, for every slot 0..7 and group 0..15, with every
other operand cut to its field (30_encoding.md R123). -/
def Obligations.AssemblerWordsDecode : Prop :=
  (∀ (k slot d : Nat) (func : ChannelFunc), slot < 8 →
    decode (asmWord (.wregFunc k func slot d)) =
      funcInstr func (BitVec.ofNat 4 k) (BitVec.ofNat 3 slot) (BitVec.ofNat 8 d)) ∧
  (∀ k a d : Nat, wordOp (asmWord (.wreg k a d)) = 0x1#4 ∧ wordChip (asmWord (.wreg k a d)) = BitVec.ofNat 4 k ∧
    wordAddr (asmWord (.wreg k a d)) = BitVec.ofNat 32 (a % 2 ^ 8) ∧
    wordData (asmWord (.wreg k a d)) = BitVec.ofNat 8 d) ∧
  (∀ k d : Nat, decode (asmWord (.wregGctrl k d)) =
    .wregGctrl (BitVec.ofNat 4 k) (decide (d / 2 ^ 7 % 2 = 1)) (BitVec.ofNat 4 d)) ∧
  (∀ k g d : Nat, g < 16 → decode (asmWord (.wregChon k g d)) =
    .wregChon (BitVec.ofNat 4 k) (BitVec.ofNat 4 g) (BitVec.ofNat 8 d)) ∧
  (∀ k a d : Nat, decode (asmWord (.wmem k a d)) = .wmem (BitVec.ofNat 4 k) (BitVec.ofNat 32 a) (BitVec.ofNat 8 d)) ∧
  (∀ k : Nat, decode (asmWord (.tick k)) = .tick (BitVec.ofNat 4 k)) ∧
  (∀ d : Nat, decode (asmWord (.wmixGvoll d)) = .wmixGvoll (BitVec.ofNat 8 d) ∧
    decode (asmWord (.wmixGvolh d)) = .wmixGvolh (BitVec.ofNat 8 d)) ∧
  decode (asmWord .nop) = .nop ∧ decode (asmWord .frame) = .frame

/-- The words of the pseudo-instructions decode to the commands of their expansions, in order (30_encoding.md R124). -/
def Obligations.PseudoInstructionsExpand : Prop :=
  (∀ k s v : Nat, s < 8 →
    (pseudoWords (.setstep k s v)).map decode =
      [.wregStepl (BitVec.ofNat 4 k) (BitVec.ofNat 3 s) (BitVec.ofNat 8 v),
       .wregSteph (BitVec.ofNat 4 k) (BitVec.ofNat 3 s) (BitVec.ofNat 8 (v / 2 ^ 8))] ∧
    (pseudoWords (.setloop k s v)).map decode =
      [.wregLoopl (BitVec.ofNat 4 k) (BitVec.ofNat 3 s) (BitVec.ofNat 8 v),
       .wregLooph (BitVec.ofNat 4 k) (BitVec.ofNat 3 s) (BitVec.ofNat 8 (v / 2 ^ 8))] ∧
    (pseudoWords (.setpos k s v)).map decode =
      [.wregPosl (BitVec.ofNat 4 k) (BitVec.ofNat 3 s) (BitVec.ofNat 8 v),
       .wregPosh (BitVec.ofNat 4 k) (BitVec.ofNat 3 s) (BitVec.ofNat 8 (v / 2 ^ 8))] ∧
    (pseudoWords (.keyon k s)).map decode = [.wregTrig (BitVec.ofNat 4 k) (BitVec.ofNat 3 s)]) ∧
  (∀ k b : Nat,
    (pseudoWords (.chipon k b)).map decode = [.wregGctrl (BitVec.ofNat 4 k) true (BitVec.ofNat 4 b)] ∧
    (pseudoWords (.chipoff k b)).map decode = [.wregGctrl (BitVec.ofNat 4 k) false (BitVec.ofNat 4 b)]) ∧
  (∀ v : Nat, (pseudoWords (.setgvol v)).map decode =
    [.wmixGvoll (BitVec.ofNat 8 v), .wmixGvolh (BitVec.ofNat 8 (v / 2 ^ 8))]) ∧
  (∀ (k a : Nat) (bs : List Nat), (pseudoWords (.loadmem k a bs)).map decode =
    bs.mapIdx fun n b => .wmem (BitVec.ofNat 4 k) (BitVec.ofNat 32 (a + n)) (BitVec.ofNat 8 b))

/-! ## The step -/

/-- A step runs the decoded command: whatever word the host presents next, and in particular the encoding of any command, is
taken off the inputs and executed. -/
def Obligations.StepRunsPresentedCommand : Prop :=
  (∀ (s : State) (w : CommandWord) (rest : List HostInput), s.cfg.legal = true → s.inputs = .command w :: rest →
    step s = exec (decode w) { s with inputs := rest }) ∧
  (∀ (s : State) (i : Instr) (rest : List HostInput), s.cfg.legal = true → s.inputs = .command (encode i) :: rest →
    step s = exec i { s with inputs := rest }) ∧
  (∀ (s : State) (w : CommandWord), s.cfg.legal = true → step (s.withFetchWord 48 w.toNat) = exec (decode w) s)

/-- With nothing presented a step changes nothing (the model's choice, assumption log 4), and a configuration outside the
legal ranges is refused (R7; where it is refused is the model's choice, assumption log 2). -/
def Obligations.StepIdlesOrRefuses : Prop :=
  (∀ s : State, s.cfg.legal = true → s.inputs = [] → step s = .next s) ∧
  (∀ s : State, s.cfg.legal = false → step s = .refused .illegalConfig)

/-- R51, R330, R331: `State.reset` has every field at its reset value, and the reset input, from any state, gives those values
and changes no configuration parameter. -/
def Obligations.ResetInputRestoresResetValues : Prop :=
  ResetValues State.reset ∧
  ∀ (s : State) (rest : List HostInput), s.cfg.legal = true → s.inputs = .reset :: rest →
    ∃ t, step s = .next t ∧ ResetValues t ∧ t.cfg = s.cfg

/-- Every step keeps the invariant: a legal configuration, NCHIP chips of NCH channels, PW-bit positions, canonical memories of
MEM_SIZE bytes, pairs that are sums of NCH bounded contributions, `racc < THR[k]`. -/
def Obligations.StepKeepsInvariant : Prop := ∀ s t : State, s.Inv → step s = .next t → t.Inv

/-- The state after reset meets both invariants, in every legal configuration. -/
def Obligations.ResetMeetsInvariants : Prop :=
  State.reset.Inv ∧ ∀ (cfg : Config) (inputs : List HostInput), cfg.legal = true →
    (State.resetWith cfg inputs).Inv ∧ (State.resetWith cfg inputs).WholeBytes

/-- R218's last sentence: in COUNTDOWN mode the fraction of every position stays 0, whatever is presented. -/
def Obligations.CountdownPositionsStayWholeBytes : Prop :=
  ∀ s t : State, s.Inv → s.WholeBytes → step s = .next t → t.WholeBytes

/-- CORE raises no exception: every command is total over every operand and state, and so is every step of a legal
configuration (60_exceptions.md R300). -/
def Obligations.EveryCommandCompletes : Prop :=
  (∀ (i : Instr) (s : State), ∃ t, exec i s = .next t) ∧
  ∀ s : State, s.cfg.legal = true → ∃ t, step s = .next t

/-- No step changes a configuration parameter (R49, R331). That a step takes exactly the first of the host's pending inputs,
or none if there is none, and that a reset keeps the pending ones, is the model's choice, assumption logs 3 and 4. -/
def Obligations.ConfigurationNeverChanges : Prop :=
  ∀ s t : State, step s = .next t → t.cfg = s.cfg ∧ t.inputs = s.inputs.tail

/-! ## Register writes -/

/-- R113: WREG, WMEM and TICK act on chip CHIP; a chip that is not there is not an error and nothing changes, TICK returning
(0, 0); the other operations ignore CHIP. -/
def Obligations.CommandsToAbsentChipsChangeNothing : Prop :=
  (∀ (s : State) (w : CommandWord), s.cfg.nchip ≤ (wordChip w).toNat →
    (wordOp w = 0x1#4 ∨ wordOp w = 0x2#4 → exec (decode w) s = .next s.quiet) ∧
    (wordOp w = 0x3#4 → exec (decode w) s = .next { s with out := some ⟨0#32, 0#32⟩ })) ∧
  (∀ (s : State) (w : CommandWord), wordOp w = 0x1#4 ∨ wordOp w = 0x2#4 ∨ wordOp w = 0x3#4 →
    ∃ t, exec (decode w) s = .next t ∧ SameOutsideChip s t (wordChip w).toNat) ∧
  (∀ w w' : CommandWord, wordOp w ≠ 0x1#4 → wordOp w ≠ 0x2#4 → wordOp w ≠ 0x3#4 →
    wordOp w' = wordOp w → wordAddr w' = wordAddr w → wordData w' = wordData w → decode w' = decode w)

/-- R140: what every WREG leaves alone. It returns no pair and writes no pair, accumulator, memory byte or mixer field; in the
channel space only channel `((bank << 3) | slot) mod NCH` of its chip changes; in the global space GCTRL changes no channel,
CHON only enables, positions and counters, and the rest nothing. -/
def Obligations.RegisterWritesChangeOnlyTheirTarget : Prop :=
  ∀ (s : State) (w : CommandWord), wordOp w = 0x1#4 → ∃ t, exec (decode w) s = .next t ∧
    t.out = none ∧ SameOutsideChip s t (wordChip w).toNat ∧
    (s.cfg.nchip ≤ (wordChip w).toNat → t = s.quiet) ∧
    (∀ j, (t.chip j).lastL = (s.chip j).lastL ∧ (t.chip j).lastR = (s.chip j).lastR ∧
      (t.chip j).racc = (s.chip j).racc ∧ ∀ a, t.readByte j a = s.readByte j a) ∧
    ((wordRegAddr w).getLsbD 7 = false →
      SameOutsideChannel s t (wordChip w).toNat (s.target (wordChip w).toNat (regSlot (wordRegAddr w)))) ∧
    (wordRegAddr w = 0x80#8 → ∀ c, t.channel (wordChip w).toNat c = s.channel (wordChip w).toNat c) ∧
    ((wordRegAddr w).extractLsb' 4 4 = 0x9#4 → ∀ j c, (t.chip j).chipOn = (s.chip j).chipOn ∧
      (t.chip j).bank = (s.chip j).bank ∧ SameRegisters (s.channel j c) (t.channel j c)) ∧
    ((wordRegAddr w).getLsbD 7 = true → wordRegAddr w ≠ 0x80#8 → (wordRegAddr w).extractLsb' 4 4 ≠ 0x9#4 → t = s.quiet)

/-- R141: WREG.POSL replaces the low byte of the byte address, keeps the address bits above it, and clears the fraction; the
rest of the channel, and everything outside it, is unchanged; the next advance reads the new address. -/
def Obligations.PoslReplacesLowAddressByte : Prop :=
  (∀ w : CommandWord, wordOp w = 0x1#4 → (wordRegAddr w).getLsbD 7 = false → regFunc (wordRegAddr w) = 0x0#4 →
    decode w = .wregPosl (wordChip w) (regSlot (wordRegAddr w)) (wordData w)) ∧
  ∀ (s : State) (k : BitVec 4) (slot : BitVec 3) (d : Byte) (c : Nat), s.Inv → k.toNat < s.cfg.nchip →
    c = s.target k.toNat slot →
    ∃ t, exec (.wregPosl k slot d) s = .next t ∧ t.out = none ∧ SameOutsideChannel s t k.toNat c ∧
      { t.channel k.toNat c with pos := (s.channel k.toNat c).pos } = s.channel k.toNat c ∧
      (t.channel k.toNat c).pos % 2 ^ (s.cfg.chip k.toNat).frac = 0 ∧
      (t.channel k.toNat c).pos / 2 ^ (s.cfg.chip k.toNat).frac % 2 ^ 8 = d.toNat ∧
      (t.channel k.toNat c).pos / 2 ^ (s.cfg.chip k.toNat).frac / 2 ^ 8 =
        (s.channel k.toNat c).pos / 2 ^ (s.cfg.chip k.toNat).frac / 2 ^ 8 ∧
      fetchByte (t.cfg.chip k.toNat) (t.chip k.toNat).mem (t.channel k.toNat c) =
        s.readByte k.toNat ((t.channel k.toNat c).pos / 2 ^ (s.cfg.chip k.toNat).frac)

/-- R142: WREG.POSH replaces byte 1 of the byte address, drops the bits at or above ADDR_BITS, keeps the address bits below and
above the byte, and clears the fraction. -/
def Obligations.PoshReplacesHighAddressByte : Prop :=
  (∀ w : CommandWord, wordOp w = 0x1#4 → (wordRegAddr w).getLsbD 7 = false → regFunc (wordRegAddr w) = 0x1#4 →
    decode w = .wregPosh (wordChip w) (regSlot (wordRegAddr w)) (wordData w)) ∧
  ∀ (s : State) (k : BitVec 4) (slot : BitVec 3) (d : Byte) (c : Nat), s.Inv → k.toNat < s.cfg.nchip →
    c = s.target k.toNat slot →
    ∃ t, exec (.wregPosh k slot d) s = .next t ∧ t.out = none ∧ SameOutsideChannel s t k.toNat c ∧
      { t.channel k.toNat c with pos := (s.channel k.toNat c).pos } = s.channel k.toNat c ∧
      (t.channel k.toNat c).pos % 2 ^ (s.cfg.chip k.toNat).frac = 0 ∧
      (t.channel k.toNat c).pos / 2 ^ (s.cfg.chip k.toNat).frac % 2 ^ 8 =
        (s.channel k.toNat c).pos / 2 ^ (s.cfg.chip k.toNat).frac % 2 ^ 8 ∧
      (t.channel k.toNat c).pos / 2 ^ (s.cfg.chip k.toNat).frac / 2 ^ 8 % 2 ^ 8 =
        d.toNat % 2 ^ ((s.cfg.chip k.toNat).addrBits - 8) ∧
      (t.channel k.toNat c).pos / 2 ^ (s.cfg.chip k.toNat).frac / 2 ^ 16 =
        (s.channel k.toNat c).pos / 2 ^ (s.cfg.chip k.toNat).frac / 2 ^ 16

/-- R143, R144: WREG.STEPL and WREG.STEPH replace one byte of STEP and keep the other. -/
def Obligations.StepBytesAreWrittenSeparately : Prop :=
  (∀ w : CommandWord, wordOp w = 0x1#4 → (wordRegAddr w).getLsbD 7 = false →
    (regFunc (wordRegAddr w) = 0x2#4 → decode w = .wregStepl (wordChip w) (regSlot (wordRegAddr w)) (wordData w)) ∧
    (regFunc (wordRegAddr w) = 0x3#4 → decode w = .wregSteph (wordChip w) (regSlot (wordRegAddr w)) (wordData w))) ∧
  ∀ (s : State) (k : BitVec 4) (slot : BitVec 3) (d : Byte) (c : Nat), s.Inv → k.toNat < s.cfg.nchip →
    c = s.target k.toNat slot →
    (∃ t, exec (.wregStepl k slot d) s = .next t ∧ t.out = none ∧ SameOutsideChannel s t k.toNat c ∧
      { t.channel k.toNat c with step := (s.channel k.toNat c).step } = s.channel k.toNat c ∧
      (t.channel k.toNat c).step.toNat = (s.channel k.toNat c).step.toNat / 2 ^ 8 * 2 ^ 8 + d.toNat) ∧
    (∃ t, exec (.wregSteph k slot d) s = .next t ∧ t.out = none ∧ SameOutsideChannel s t k.toNat c ∧
      { t.channel k.toNat c with step := (s.channel k.toNat c).step } = s.channel k.toNat c ∧
      (t.channel k.toNat c).step.toNat = d.toNat * 2 ^ 8 + (s.channel k.toNat c).step.toNat % 2 ^ 8)

/-- R145, R146: WREG.LOOPL and WREG.LOOPH replace one byte of LOOP and keep the other; the position does not move. -/
def Obligations.LoopBytesAreWrittenSeparately : Prop :=
  (∀ w : CommandWord, wordOp w = 0x1#4 → (wordRegAddr w).getLsbD 7 = false →
    (regFunc (wordRegAddr w) = 0x4#4 → decode w = .wregLoopl (wordChip w) (regSlot (wordRegAddr w)) (wordData w)) ∧
    (regFunc (wordRegAddr w) = 0x5#4 → decode w = .wregLooph (wordChip w) (regSlot (wordRegAddr w)) (wordData w))) ∧
  ∀ (s : State) (k : BitVec 4) (slot : BitVec 3) (d : Byte) (c : Nat), s.Inv → k.toNat < s.cfg.nchip →
    c = s.target k.toNat slot →
    (∃ t, exec (.wregLoopl k slot d) s = .next t ∧ t.out = none ∧ SameOutsideChannel s t k.toNat c ∧
      { t.channel k.toNat c with loop := (s.channel k.toNat c).loop } = s.channel k.toNat c ∧
      (t.channel k.toNat c).loop.toNat = (s.channel k.toNat c).loop.toNat / 2 ^ 8 * 2 ^ 8 + d.toNat) ∧
    (∃ t, exec (.wregLooph k slot d) s = .next t ∧ t.out = none ∧ SameOutsideChannel s t k.toNat c ∧
      { t.channel k.toNat c with loop := (s.channel k.toNat c).loop } = s.channel k.toNat c ∧
      (t.channel k.toNat c).loop.toNat = d.toNat * 2 ^ 8 + (s.channel k.toNat c).loop.toNat % 2 ^ 8)

/-- R147, R148, R149: WREG.START, WREG.VOL and WREG.PAN replace their 8-bit register and nothing else of the channel. -/
def Obligations.ByteRegistersAreReplaced : Prop :=
  (∀ w : CommandWord, wordOp w = 0x1#4 → (wordRegAddr w).getLsbD 7 = false →
    (regFunc (wordRegAddr w) = 0x6#4 → decode w = .wregStart (wordChip w) (regSlot (wordRegAddr w)) (wordData w)) ∧
    (regFunc (wordRegAddr w) = 0x7#4 → decode w = .wregVol (wordChip w) (regSlot (wordRegAddr w)) (wordData w)) ∧
    (regFunc (wordRegAddr w) = 0x8#4 → decode w = .wregPan (wordChip w) (regSlot (wordRegAddr w)) (wordData w))) ∧
  ∀ (s : State) (k : BitVec 4) (slot : BitVec 3) (d : Byte) (c : Nat), s.Inv → k.toNat < s.cfg.nchip →
    c = s.target k.toNat slot →
    (∃ t, exec (.wregStart k slot d) s = .next t ∧ t.out = none ∧ SameOutsideChannel s t k.toNat c ∧
      t.channel k.toNat c = { s.channel k.toNat c with start := d }) ∧
    (∃ t, exec (.wregVol k slot d) s = .next t ∧ t.out = none ∧ SameOutsideChannel s t k.toNat c ∧
      t.channel k.toNat c = { s.channel k.toNat c with vol := d }) ∧
    (∃ t, exec (.wregPan k slot d) s = .next t ∧ t.out = none ∧ SameOutsideChannel s t k.toNat c ∧
      t.channel k.toNat c = { s.channel k.toNat c with pan := d })

/-- R150: WREG.TRIG, whatever its data, enables the channel, moves it to its start page and loads its counter; its next advance
reads the byte at `(START * 256) mod MEM_SIZE`. -/
def Obligations.TrigArmsTheChannel : Prop :=
  (∀ w : CommandWord, wordOp w = 0x1#4 → (wordRegAddr w).getLsbD 7 = false → regFunc (wordRegAddr w) = 0x9#4 →
    decode w = .wregTrig (wordChip w) (regSlot (wordRegAddr w))) ∧
  ∀ (s : State) (k : BitVec 4) (slot : BitVec 3) (c : Nat), s.Inv → k.toNat < s.cfg.nchip →
    c = s.target k.toNat slot →
    ∃ t, exec (.wregTrig k slot) s = .next t ∧ t.out = none ∧ SameOutsideChannel s t k.toNat c ∧
      t.channel k.toNat c = { s.channel k.toNat c with
        en := true
        pos := (s.channel k.toNat c).start.toNat * 2 ^ (8 + (s.cfg.chip k.toNat).frac) %
          2 ^ ((s.cfg.chip k.toNat).addrBits + (s.cfg.chip k.toNat).frac)
        cnt := BitVec.ofNat 8 (s.channel k.toNat c).step.toNat } ∧
      fetchByte (t.cfg.chip k.toNat) (t.chip k.toNat).mem (t.channel k.toNat c) =
        s.readByte k.toNat ((s.channel k.toNat c).start.toNat * 256 % 2 ^ (s.cfg.chip k.toNat).addrBits)

/-- R151: WREG.GCTRL writes the chip enable from D[7] and the bank from D[3:0], ignores D[6:4], and leaves every channel of
the chip as it is. -/
def Obligations.GctrlWritesEnableAndBank : Prop :=
  (∀ w : CommandWord, wordOp w = 0x1#4 → wordRegAddr w = 0x80#8 →
    decode w = .wregGctrl (wordChip w) (decide ((wordData w).toNat / 2 ^ 7 = 1)) (BitVec.ofNat 4 (wordData w).toNat)) ∧
  ∀ (s : State) (k : BitVec 4) (on : Bool) (bank : BitVec 4), s.Inv → k.toNat < s.cfg.nchip →
    ∃ t, exec (.wregGctrl k on bank) s = .next t ∧ t.out = none ∧ SameOutsideChip s t k.toNat ∧
      t.chip k.toNat = { s.chip k.toNat with chipOn := on, bank := bank }

/-- R152: WREG.CHON enables channel `8g + i` where data bit `i` is 1, keeping its position and counter, and where it is 0
disables it and takes it to its start page with its counter reloaded; it is not redirected by the bank, and reaches no other
channel. -/
def Obligations.ChonEnablesAndDisablesItsGroup : Prop :=
  (∀ w : CommandWord, wordOp w = 0x1#4 → (wordRegAddr w).toNat / 16 = 9 →
    decode w = .wregChon (wordChip w) (BitVec.ofNat 4 (wordRegAddr w).toNat) (wordData w)) ∧
  ∀ (s : State) (k g : BitVec 4) (d : Byte), s.Inv → k.toNat < s.cfg.nchip →
    ∃ t, exec (.wregChon k g d) s = .next t ∧ t.out = none ∧ SameOutsideChip s t k.toNat ∧
      { t.chip k.toNat with ch := (s.chip k.toNat).ch } = s.chip k.toNat ∧
      (t.chip k.toNat).ch.length = s.cfg.nch ∧
      ∀ c < s.cfg.nch, t.channel k.toNat c =
        if c / 8 = g.toNat then
          if d.toNat.testBit (c % 8) then { s.channel k.toNat c with en := true }
          else { s.channel k.toNat c with
            en := false
            pos := (s.channel k.toNat c).start.toNat * 2 ^ (8 + (s.cfg.chip k.toNat).frac) %
              2 ^ ((s.cfg.chip k.toNat).addrBits + (s.cfg.chip k.toNat).frac)
            cnt := BitVec.ofNat 8 (s.channel k.toNat c).step.toNat }
        else s.channel k.toNat c

/-- R118, R153, R154: writes to the reserved register addresses change no state, and GCTRL's data bits 6:4 are ignored. -/
def Obligations.ReservedRegistersAreIgnored : Prop :=
  (∀ (s : State) (i : Instr), i.isReserved = true → exec i s = .next s.quiet) ∧
  (∀ w : CommandWord, wordOp w = 0x1#4 →
    ((wordRegAddr w).toNat < 0x80 ∧ 0xA ≤ (wordRegAddr w).toNat % 16) ∨
      (0x81 ≤ (wordRegAddr w).toNat ∧ (wordRegAddr w).toNat ≤ 0x8F) ∨ 0xA0 ≤ (wordRegAddr w).toNat →
    (decode w).isReserved = true) ∧
  (∀ w w' : CommandWord, wordOp w = 0x1#4 → wordOp w' = 0x1#4 → wordRegAddr w = 0x80#8 → wordRegAddr w' = 0x80#8 →
    wordChip w' = wordChip w → (wordData w').toNat / 2 ^ 7 = (wordData w).toNat / 2 ^ 7 →
    (wordData w').toNat % 2 ^ 4 = (wordData w).toNat % 2 ^ 4 → decode w' = decode w)

/-! ## Sample memory -/

/-- R83, R200: WMEM stores its byte at its address and changes no other byte and nothing else; at or above MEM_SIZE it changes
nothing at all; a channel that is about to read the byte reads the new one. -/
def Obligations.WmemStoresOneByteOrNothing : Prop :=
  (∀ w : CommandWord, wordOp w = 0x2#4 → decode w = .wmem (wordChip w) (wordAddr w) (wordData w)) ∧
  ∀ (s : State) (k : BitVec 4) (addr : BitVec 32) (d : Byte), s.Inv → k.toNat < s.cfg.nchip →
    (2 ^ (s.cfg.chip k.toNat).addrBits ≤ addr.toNat → exec (.wmem k addr d) s = .next s.quiet) ∧
    (addr.toNat < 2 ^ (s.cfg.chip k.toNat).addrBits →
      ∃ t, exec (.wmem k addr d) s = .next t ∧ t.out = none ∧ SameOutsideChip s t k.toNat ∧
        { t.chip k.toNat with mem := (s.chip k.toNat).mem } = s.chip k.toNat ∧
        t.readByte k.toNat addr.toNat = d ∧
        (∀ j a, j ≠ k.toNat ∨ a ≠ addr.toNat → t.readByte j a = s.readByte j a) ∧
        ∀ c < s.cfg.nch, (s.channel k.toNat c).pos / 2 ^ (s.cfg.chip k.toNat).frac = addr.toNat →
          fetchByte (t.cfg.chip k.toNat) (t.chip k.toNat).mem (t.channel k.toNat c) = d)

/-- Memory writes are idempotent as states, not only byte by byte: a second equal WMEM changes nothing, storing the byte that
is there changes nothing, and stores to different places commute (20_memory.md R86; the canonical form of memory). -/
def Obligations.WmemIsIdempotentAndCanonical : Prop :=
  (∀ (s t : State) (k : BitVec 4) (a : BitVec 32) (d : Byte), s.Inv → exec (.wmem k a d) s = .next t →
    exec (.wmem k a d) t = .next t) ∧
  (∀ (s : State) (k : BitVec 4) (a : BitVec 32), s.Inv →
    exec (.wmem k a (s.readByte k.toNat a.toNat)) s = .next s.quiet) ∧
  (∀ (s t u t' u' : State) (k k' : BitVec 4) (a a' : BitVec 32) (d d' : Byte), s.Inv → k ≠ k' ∨ a ≠ a' →
    exec (.wmem k a d) s = .next t → exec (.wmem k' a' d') t = .next u →
    exec (.wmem k' a' d') s = .next t' → exec (.wmem k a d) t' = .next u' → u = u')

/-- R81, R82: an advance reads the byte at the integer part of the position, which is always inside the memory; a position
stepped past the top wraps to the bottom; LOOP and START address their byte modulo MEM_SIZE. -/
def Obligations.ByteAddressesWrapModuloMemSize : Prop :=
  ∀ cc : ChipConfig,
    (∀ pos, byteAddress cc pos < cc.memSize) ∧
    (∀ pos < 2 ^ (cc.addrBits + cc.frac), byteAddress cc pos = pos / 2 ^ cc.frac) ∧
    (∀ (mem : Memory) (ch : Channel), ch.pos < 2 ^ (cc.addrBits + cc.frac) →
      fetchByte cc mem ch = Memory.read mem (ch.pos / 2 ^ cc.frac)) ∧
    (∀ pos inc, byteAddress cc (truncPos cc (pos + inc)) = (pos + inc) / 2 ^ cc.frac % cc.memSize) ∧
    (∀ pos, byteAddress cc pos = cc.memSize - 1 → byteAddress cc (truncPos cc (pos + 2 ^ cc.frac)) = 0) ∧
    (∀ loop, byteAddress cc (loopPosition cc loop) = loop.toNat % cc.memSize) ∧
    (∀ start, byteAddress cc (startPosition cc start) = start.toNat * 256 % cc.memSize)

/-! ## Generate -/

/-- R211: a tick of a chip that is off writes (0, 0) as its pair and changes nothing else: no channel, no memory byte, no
accumulator; it is so for every tick, those of FRAME too, and TICK returns that pair. -/
def Obligations.IdleChipGeneratesSilence : Prop :=
  (∀ (cfg : Config) (cc : ChipConfig) (chip : Chip), chip.chipOn = false →
    tickChip cfg cc chip = { chip with lastL := 0#32, lastR := 0#32 }) ∧
  ∀ (s : State) (k : BitVec 4), s.Inv → k.toNat < s.cfg.nchip → (s.chip k.toNat).chipOn = false →
    ∃ t, exec (.tick k) s = .next t ∧ t.out = some ⟨0#32, 0#32⟩ ∧ SameOutsideChip s t k.toNat ∧
      t.chip k.toNat = { s.chip k.toNat with lastL := 0#32, lastR := 0#32 }

/-- TICK of a chip that is on: every channel takes its step from where it was, the pair is the exact sum of the channels'
contributions, it is stored and returned, and nothing else changes (42_generate.md R210). -/
def Obligations.TickStepsEveryChannelAndSums : Prop :=
  ∀ (s : State) (k : BitVec 4), s.Inv → k.toNat < s.cfg.nchip → (s.chip k.toNat).chipOn = true →
    ∃ t, exec (.tick k) s = .next t ∧ SameUnderTick s t k.toNat ∧
      (∀ c < s.cfg.nch, t.channel k.toNat c = (s.advanced k.toNat c).1) ∧
      (t.chip k.toNat).lastL.toInt = ∑ c ∈ Finset.range s.cfg.nch, (s.advanced k.toNat c).2.1 ∧
      (t.chip k.toNat).lastR.toInt = ∑ c ∈ Finset.range s.cfg.nch, (s.advanced k.toNat c).2.2 ∧
      t.out = some ⟨(t.chip k.toNat).lastL, (t.chip k.toNat).lastR⟩

/-- R224: the pair is the exact integer sum of the enabled channels' contributions, disabled channels adding 0, and never
overflows 32 bits; with the reference parameters a contribution is within 29 520 and the sum of 16 channels within 472 320. -/
def Obligations.ChipSumsNeverOverflow : Prop :=
  ∀ (s : State) (k : BitVec 4), s.Inv → k.toNat < s.cfg.nchip → (s.chip k.toNat).chipOn = true →
    ∃ t, exec (.tick k) s = .next t ∧
      (t.chip k.toNat).lastL.toInt =
        ∑ c ∈ (Finset.range s.cfg.nch).filter (fun c => (s.channel k.toNat c).en = true), (s.advanced k.toNat c).2.1 ∧
      (t.chip k.toNat).lastR.toInt =
        ∑ c ∈ (Finset.range s.cfg.nch).filter (fun c => (s.channel k.toNat c).en = true), (s.advanced k.toNat c).2.2 ∧
      (∀ c, |(s.advanced k.toNat c).2.1| ≤ 979200 ∧ |(s.advanced k.toNat c).2.2| ≤ 979200) ∧
      |(t.chip k.toNat).lastL.toInt| ≤ 125337600 ∧ |(t.chip k.toNat).lastR.toInt| ≤ 125337600 ∧
      (s.cfg.chip k.toNat = ChipConfig.reference →
        (∀ c, |(s.advanced k.toNat c).2.1| ≤ 29520 ∧ |(s.advanced k.toNat c).2.2| ≤ 29520) ∧
        (s.cfg.nch = 16 → |(t.chip k.toNat).lastL.toInt| ≤ 472320 ∧ |(t.chip k.toNat).lastR.toInt| ≤ 472320))

/-- R213: a disabled channel contributes (0, 0) and is not mutated, by its channel step, by TICK or by FRAME. -/
def Obligations.DisabledChannelsAreNotMutated : Prop :=
  (∀ (cc : ChipConfig) (mem : Memory) (ch : Channel), ch.en = false →
    advance cc mem ch = (ch, 0, 0)) ∧
  ∀ (s : State) (i : Instr) (k c : Nat), s.Inv → (s.channel k c).en = false → i.ticks k →
    ∃ t, exec i s = .next t ∧ t.channel k c = s.channel k c

/-- R214, R215: a playing channel at a sentinel reloads from its loop address and, if the byte there is no sentinel, plays that
byte in the same tick, stepped from the loop position; the reload does not touch the counter. -/
def Obligations.SentinelReloadsFromTheLoopAddress : Prop :=
  ∀ (s : State) (k : BitVec 4) (c : Nat), s.Inv → s.Playing k.toNat c →
    s.readByte k.toNat ((s.channel k.toNat c).pos / 2 ^ (s.cfg.chip k.toNat).frac) = (s.cfg.chip k.toNat).sentinel →
    s.readByte k.toNat ((s.channel k.toNat c).loop.toNat % (s.cfg.chip k.toNat).memSize) ≠
      (s.cfg.chip k.toNat).sentinel →
    ∃ t, exec (.tick k) s = .next t ∧
      (s.advanced k.toNat c).2 = output (s.cfg.chip k.toNat) (s.channel k.toNat c)
        (s.readByte k.toNat ((s.channel k.toNat c).loop.toNat % (s.cfg.chip k.toNat).memSize)) ∧
      t.channel k.toNat c =
        match (s.cfg.chip k.toNat).stepMode with
        | .accum => { s.channel k.toNat c with
            pos := ((s.channel k.toNat c).loop.toNat % (s.cfg.chip k.toNat).memSize * 2 ^ (s.cfg.chip k.toNat).frac +
              stepIncrement (s.cfg.chip k.toNat) (s.channel k.toNat c).step.toNat) % 2 ^ (s.cfg.chip k.toNat).pw }
        | .countdown =>
          if (s.channel k.toNat c).cnt.toNat = 0 then { s.channel k.toNat c with
            pos := ((s.channel k.toNat c).loop.toNat + 1) % (s.cfg.chip k.toNat).memSize * 2 ^ (s.cfg.chip k.toNat).frac
            cnt := BitVec.ofNat 8 (s.channel k.toNat c).step.toNat }
          else { s.channel k.toNat c with
            pos := (s.channel k.toNat c).loop.toNat % (s.cfg.chip k.toNat).memSize * 2 ^ (s.cfg.chip k.toNat).frac
            cnt := BitVec.ofNat 8 ((s.channel k.toNat c).cnt.toNat - 1) }

/-- R216: a second sentinel at the loop address disables the channel at its loop position with its counter unchanged,
contributing (0, 0). Later ticks change none of its fields and it contributes nothing to them, and only a TRIG or a CHON 1 bit
of its chip can enable it again. -/
def Obligations.DoubleSentinelSilencesForGood : Prop :=
  ∀ (s : State) (k : BitVec 4) (c : Nat), s.Inv → s.Playing k.toNat c →
    s.readByte k.toNat ((s.channel k.toNat c).pos / 2 ^ (s.cfg.chip k.toNat).frac) = (s.cfg.chip k.toNat).sentinel →
    s.readByte k.toNat ((s.channel k.toNat c).loop.toNat % (s.cfg.chip k.toNat).memSize) =
      (s.cfg.chip k.toNat).sentinel →
    (s.advanced k.toNat c).2 = (0, 0) ∧
    ∃ t, exec (.tick k) s = .next t ∧
      t.channel k.toNat c = { s.channel k.toNat c with
        en := false
        pos := (s.channel k.toNat c).loop.toNat % (s.cfg.chip k.toNat).memSize * 2 ^ (s.cfg.chip k.toNat).frac } ∧
      (∀ n, (afterTicks k n t).channel k.toNat c = t.channel k.toNat c ∧
        ((afterTicks k n t).advanced k.toNat c).2 = (0, 0)) ∧
      ∀ (i : Instr) (u v : State), u.Inv → (u.channel k.toNat c).en = false → exec i u = .next v →
        (i.ticks k.toNat → v.channel k.toNat c = u.channel k.toNat c) ∧
        ((∀ slot, i ≠ .wregTrig k slot) →
          (∀ g d, g.toNat = c / 8 → d.toNat.testBit (c % 8) = true → i ≠ .wregChon k g d) →
          (v.channel k.toNat c).en = false)

/-- R217: in ACCUM mode a playing channel that meets no sentinel adds its mapped step to its position modulo `2^PW`: the
fraction carries into the byte address and the byte address wraps modulo MEM_SIZE; nothing else of the channel changes. -/
def Obligations.AccumModeAddsTheStep : Prop :=
  ∀ (s : State) (k : BitVec 4) (c : Nat), s.Inv → s.Playing k.toNat c →
    (s.cfg.chip k.toNat).stepMode = .accum →
    s.readByte k.toNat ((s.channel k.toNat c).pos / 2 ^ (s.cfg.chip k.toNat).frac) ≠ (s.cfg.chip k.toNat).sentinel →
    ∃ t, exec (.tick k) s = .next t ∧
      { t.channel k.toNat c with pos := (s.channel k.toNat c).pos } = s.channel k.toNat c ∧
      (t.channel k.toNat c).pos % 2 ^ (s.cfg.chip k.toNat).frac =
        ((s.channel k.toNat c).pos + stepIncrement (s.cfg.chip k.toNat) (s.channel k.toNat c).step.toNat)
          % 2 ^ (s.cfg.chip k.toNat).frac ∧
      (t.channel k.toNat c).pos / 2 ^ (s.cfg.chip k.toNat).frac =
        ((s.channel k.toNat c).pos + stepIncrement (s.cfg.chip k.toNat) (s.channel k.toNat c).step.toNat)
          / 2 ^ (s.cfg.chip k.toNat).frac % (s.cfg.chip k.toNat).memSize

/-- R218: in COUNTDOWN mode a playing channel that meets no sentinel stays on its byte while its counter runs down, and on the
tick after it reaches 0 moves on by one whole byte and reloads its counter from STEP[7:0]: with `cnt = STEP[7:0]` each byte is
played `rate + 1` ticks. -/
def Obligations.CountdownPlaysEachByteRatePlusOneTicks : Prop :=
  ∀ (s : State) (k : BitVec 4) (c : Nat), s.Inv → s.Playing k.toNat c →
    (s.cfg.chip k.toNat).stepMode = .countdown →
    s.readByte k.toNat ((s.channel k.toNat c).pos / 2 ^ (s.cfg.chip k.toNat).frac) ≠ (s.cfg.chip k.toNat).sentinel →
    (∀ n ≤ (s.channel k.toNat c).cnt.toNat, (afterTicks k n s).channel k.toNat c =
      { s.channel k.toNat c with cnt := BitVec.ofNat 8 ((s.channel k.toNat c).cnt.toNat - n) }) ∧
    (afterTicks k ((s.channel k.toNat c).cnt.toNat + 1) s).channel k.toNat c = { s.channel k.toNat c with
      pos := ((s.channel k.toNat c).pos + 2 ^ (s.cfg.chip k.toNat).frac) % 2 ^ (s.cfg.chip k.toNat).pw
      cnt := BitVec.ofNat 8 (s.channel k.toNat c).step.toNat }

/-- R220: with BIAS coding and one enabled channel, TICK returns the floor of sample minus bias, times gain, times the pan
nibble of the side, over `2^OUT_SHIFT`. -/
def Obligations.BiasOutputRoundsTowardMinusInfinity : Prop :=
  ∀ (s : State) (k : BitVec 4) (c : Nat) (b : Byte), s.Inv → s.Playing k.toNat c →
    (∀ e < s.cfg.nch, e ≠ c → (s.channel k.toNat e).en = false) →
    (s.cfg.chip k.toNat).coding = .bias → s.playedByte k.toNat c = some b →
    ∃ t p, exec (.tick k) s = .next t ∧ t.out = some p ∧
      p.l.toInt = (((b.toNat : Int) - (s.cfg.chip k.toNat).biasVal.toNat) *
        volumeGain (s.cfg.chip k.toNat) (s.channel k.toNat c).vol.toNat *
        ((s.channel k.toNat c).pan.toNat % 16 : Nat)) / 2 ^ (s.cfg.chip k.toNat).outShift ∧
      p.r.toInt = (((b.toNat : Int) - (s.cfg.chip k.toNat).biasVal.toNat) *
        volumeGain (s.cfg.chip k.toNat) (s.channel k.toNat c).vol.toNat *
        ((s.channel k.toNat c).pan.toNat / 16 : Nat)) / 2 ^ (s.cfg.chip k.toNat).outShift

/-- R221: with SIGNMAG coding and one enabled channel, TICK returns the magnitude `b[6:0]` scaled, panned and shifted, negated
after the shift when `b[7]` is 1: a negative output rounds toward zero. -/
def Obligations.SignmagOutputNegatesAfterTheShift : Prop :=
  ∀ (s : State) (k : BitVec 4) (c : Nat) (b : Byte), s.Inv → s.Playing k.toNat c →
    (∀ e < s.cfg.nch, e ≠ c → (s.channel k.toNat e).en = false) →
    (s.cfg.chip k.toNat).coding = .signmag → s.playedByte k.toNat c = some b →
    ∃ t p, exec (.tick k) s = .next t ∧ t.out = some p ∧
      p.l.toInt = (if 128 ≤ b.toNat then -1 else 1) *
        ((b.toNat % 128 * volumeGain (s.cfg.chip k.toNat) (s.channel k.toNat c).vol.toNat *
          ((s.channel k.toNat c).pan.toNat % 16) / 2 ^ (s.cfg.chip k.toNat).outShift : Nat) : Int) ∧
      p.r.toInt = (if 128 ≤ b.toNat then -1 else 1) *
        ((b.toNat % 128 * volumeGain (s.cfg.chip k.toNat) (s.channel k.toNat c).vol.toNat *
          ((s.channel k.toNat c).pan.toNat / 16) / 2 ^ (s.cfg.chip k.toNat).outShift : Nat) : Int)

/-- The reference volume law and step map: `(v * 256) div (v + 10)` without 16-bit overflow, 0 to 0 and 255 to 246; the identity
(42_generate.md R219, R222). -/
def Obligations.ReferenceVolumeLawAndStepMap : Prop :=
  (∀ v < 256, volumeGain ChipConfig.reference v = v * 256 / (v + 10) ∧ v * 256 < 2 ^ 16 ∧
    volumeGain ChipConfig.reference v ≤ 246) ∧
  volumeGain ChipConfig.reference 0 = 0 ∧ volumeGain ChipConfig.reference 255 = 246 ∧
  ∀ v, stepIncrement ChipConfig.reference v = v

/-- R212: the result of a tick does not depend on the order in which the channels are stepped. -/
def Obligations.TickIsIndependentOfChannelOrder : Prop :=
  ∀ (cfg : Config) (cc : ChipConfig) (chip : Chip) (order : List Nat), chip.ch.length = cfg.nch →
    order.Perm (List.range cfg.nch) → tickInOrder cc order chip = tickChip cfg cc chip

/-- Channel independence: what a tick does to a channel, and what the channel contributes, depends on the configuration, the
chip's enable and memory and the channel itself, and on no other channel: a double sentinel elsewhere changes nothing here
(42_generate.md R225). -/
def Obligations.ChannelsDoNotAffectEachOther : Prop :=
  ∀ (s s' : State) (k : BitVec 4) (c : Nat), s.Inv → s'.Inv → s'.cfg = s.cfg → k.toNat < s.cfg.nchip →
    (s'.chip k.toNat).chipOn = (s.chip k.toNat).chipOn →
    (∀ a, s'.readByte k.toNat a = s.readByte k.toNat a) → s'.channel k.toNat c = s.channel k.toNat c →
    ∃ t t', exec (.tick k) s = .next t ∧ exec (.tick k) s' = .next t' ∧
      t'.channel k.toNat c = t.channel k.toNat c ∧ (s'.advanced k.toNat c).2 = (s.advanced k.toNat c).2

/-- Reset memory is 0x00, a sample and not a sentinel in the reference configuration: a channel playing on memory the host
never loaded contributes `-128` scaled and panned on each side, and no number of ticks stops it (70_reset_and_hazards.md R334). -/
def Obligations.UnloadedMemoryNeverStopsAChannel : Prop :=
  ∀ (s : State) (k : BitVec 4) (c : Nat), s.Inv → s.Playing k.toNat c →
    s.cfg.chip k.toNat = ChipConfig.reference → (∀ a, s.readByte k.toNat a = 0x00#8) →
    (s.advanced k.toNat c).2.1 =
      (-128 * (volumeGain ChipConfig.reference (s.channel k.toNat c).vol.toNat : Int) *
        ((s.channel k.toNat c).pan.toNat % 16 : Nat)) / 16 ∧
    (s.advanced k.toNat c).2.2 =
      (-128 * (volumeGain ChipConfig.reference (s.channel k.toNat c).vol.toNat : Int) *
        ((s.channel k.toNat c).pan.toNat / 16 : Nat)) / 16 ∧
    ∀ n, (afterTicks k n s).Playing k.toNat c

/-! ## Frames -/

/-- R270, R271, R272, R273: FRAME returns the clamped floor of the active chips' last pairs, as they stood when it began, times
their gains times the global volume; the intermediate products fit 64 bits, and with the reference gains the frame is within
twice 472 320. GVOL is kept, and the frame is what the mixer keeps. -/
def Obligations.FrameMixesTheLastPairs : Prop :=
  ∀ s : State, s.Inv → ∃ t, exec .frame s = .next t ∧ t.out = some ⟨t.mix.frameL, t.mix.frameR⟩ ∧
    t.mix.frameL.toInt = max (-2 ^ 31) (min (2 ^ 31 - 1) (s.mixedSum Chip.lastL * s.mix.gvol.toNat / 2 ^ 16)) ∧
    t.mix.frameR.toInt = max (-2 ^ 31) (min (2 ^ 31 - 1) (s.mixedSum Chip.lastR * s.mix.gvol.toNat / 2 ^ 16)) ∧
    t.mix.gvol = s.mix.gvol ∧
    |s.mixedSum Chip.lastL * s.mix.gvol.toNat| < 2 ^ 63 ∧ |s.mixedSum Chip.lastR * s.mix.gvol.toNat| < 2 ^ 63 ∧
    (s.cfg.nchip = 2 → (∀ k < 2, (s.cfg.chip k).chipGain = 0x0100 ∧ |(s.chip k).lastL.toInt| ≤ 472320 ∧
      |(s.chip k).lastR.toInt| ≤ 472320) → s.mix.gvol.toNat ≤ 0x0100 →
      |t.mix.frameL.toInt| ≤ 2 * 472320 ∧ |t.mix.frameR.toInt| ≤ 2 * 472320)

/-- R274, R280: FRAME's rate phase leaves in each chip's accumulator the remainder of `racc + CLOCK[k]` by THR[k], and does to
the chip exactly what that quotient of host TICKs do; a host TICK neither reads nor changes an accumulator. -/
def Obligations.RatePhaseRunsTheOwedTicks : Prop :=
  (∀ s : State, s.Inv → ∃ t, exec .frame s = .next t ∧ t.chips.length = s.chips.length ∧ t.inputs = s.inputs ∧
    ∀ k : BitVec 4, k.toNat < s.cfg.nchip →
      t.chip k.toNat =
        { (afterTicks k (((s.chip k.toNat).racc + (s.cfg.chip k.toNat).clock) /
            (s.cfg.outRate * (s.cfg.chip k.toNat).divisor)) s).chip k.toNat with
          racc := ((s.chip k.toNat).racc + (s.cfg.chip k.toNat).clock) %
            (s.cfg.outRate * (s.cfg.chip k.toNat).divisor) }) ∧
  (∀ (s s' : State) (k : BitVec 4) (r : Nat), s' = s.updateChip k.toNat (fun x => { x with racc := r }) →
    k.toNat < s.cfg.nchip → s.chips.length = s.cfg.nchip →
    ∃ t t', exec (.tick k) s = .next t ∧ exec (.tick k) s' = .next t' ∧ t'.out = t.out ∧
      (t.chip k.toNat).racc = (s.chip k.toNat).racc ∧ t' = t.updateChip k.toNat (fun x => { x with racc := r }))

/-- R275: zero drift. After `F` FRAMEs each chip is where exactly `floor((racc + F * CLOCK) / THR)` ticks take it and its
accumulator is the remainder, from any state that meets the invariant, and so from reset; with CLOCK = THR every FRAME is one
tick and an accumulator of 0 stays 0. The FRAMEs may be presented to `step` as any words with OP 0x4. -/
def Obligations.RateAdapterHasZeroDrift : Prop :=
  (∀ (s : State) (k : BitVec 4) (F : Nat), s.Inv → k.toNat < s.cfg.nchip →
    (afterFrames F s).chip k.toNat =
      { (afterTicks k (((s.chip k.toNat).racc + F * (s.cfg.chip k.toNat).clock) / s.cfg.thr k.toNat) s).chip k.toNat with
        racc := ((s.chip k.toNat).racc + F * (s.cfg.chip k.toNat).clock) % s.cfg.thr k.toNat }) ∧
  (∀ (cfg : Config) (inputs : List HostInput) (k : BitVec 4) (F : Nat), cfg.legal = true → k.toNat < cfg.nchip →
    ((afterFrames F (State.resetWith cfg inputs)).chip k.toNat).racc = F * (cfg.chip k.toNat).clock % cfg.thr k.toNat) ∧
  (∀ (s : State) (k : BitVec 4) (F : Nat), s.Inv → k.toNat < s.cfg.nchip → (s.chip k.toNat).racc = 0 →
    (s.cfg.chip k.toNat).clock = s.cfg.outRate * (s.cfg.chip k.toNat).divisor →
    (afterFrames F s).chip k.toNat = (afterTicks k F s).chip k.toNat ∧ ((afterFrames F s).chip k.toNat).racc = 0) ∧
  (∀ (s : State) (ws : List CommandWord), s.Inv → (∀ w ∈ ws, wordOp w = 0x4#4) →
    ∃ t, stepTimes ws.length { s with inputs := ws.map .command } = .next t ∧
      t.chips = (afterFrames ws.length s).chips)

/-- R332: after reset and before any command, TICK of any chip and FRAME return (0, 0), and FRAME advances the rate
accumulators. -/
def Obligations.SilenceAfterReset : Prop :=
  ∀ (cfg : Config) (inputs : List HostInput), cfg.legal = true →
    (∀ k : BitVec 4, ∃ t, exec (.tick k) (State.resetWith cfg inputs) = .next t ∧ t.out = some ⟨0#32, 0#32⟩) ∧
    ∃ t, exec .frame (State.resetWith cfg inputs) = .next t ∧ t.out = some ⟨0#32, 0#32⟩ ∧
      ∀ k < cfg.nchip, (t.chip k).racc = (cfg.chip k).clock % cfg.thr k

/-- Output latency: a channel register write, a CHON or a memory write before a FRAME does not change the pair that FRAME
returns (70_reset_and_hazards.md R340). -/
def Obligations.VoiceWritesAreNotHeardInTheNextFrame : Prop :=
  ∀ (i : Instr) (s : State), i.writesVoices = true → ∃ t u u', exec i s = .next t ∧ exec .frame s = .next u ∧
    exec .frame t = .next u' ∧ u'.out = u.out ∧ u'.mix = u.mix

/-! ## The mixer registers and the operations with no effect -/

/-- R276, R277, R119: WMIX replaces the byte of GVOL that A[0] selects and keeps the other; CHIP and ADDR[31:1] are ignored;
nothing else changes and no pair is returned. -/
def Obligations.WmixReplacesOneByteOfGvol : Prop :=
  (∀ w : CommandWord, wordOp w = 0x5#4 →
    ((wordAddr w).toNat % 2 = 0 → decode w = .wmixGvoll (wordData w)) ∧
    ((wordAddr w).toNat % 2 = 1 → decode w = .wmixGvolh (wordData w))) ∧
  ∀ (s : State) (d : Byte),
    exec (.wmixGvoll d) s = .next { s with
      mix := { s.mix with gvol := BitVec.ofNat 16 (s.mix.gvol.toNat / 2 ^ 8 * 2 ^ 8 + d.toNat) }, out := none } ∧
    exec (.wmixGvolh d) s = .next { s with
      mix := { s.mix with gvol := BitVec.ofNat 16 (d.toNat * 2 ^ 8 + s.mix.gvol.toNat % 2 ^ 8) }, out := none }

/-- R278, R279: NOP and the reserved operations, with any fields, change no state and return no pair. -/
def Obligations.NopAndReservedOperationsDoNothing : Prop :=
  (∀ w : CommandWord, (wordOp w).toNat = 0 → decode w = .nop) ∧
  (∀ w : CommandWord, 6 ≤ (wordOp w).toNat → decode w = .rsvd6 ∨ decode w = .rsvd8) ∧
  ∀ s : State, exec .nop s = .next s.quiet ∧ exec .rsvd6 s = .next s.quiet ∧ exec .rsvd8 s = .next s.quiet

/-! ## Whole-machine rules -/

/-- Which commands may change which field of a chip or the mixer: the enable and the bank only GCTRL to that chip, a memory
byte only WMEM to that chip and address, the pair only a tick, the accumulator only FRAME, GVOL only WMIX, the frame only FRAME
(10_state.md R39 to R45). A chip that is off comes on only by GCTRL with D[7] = 1 (60_exceptions.md R309). -/
def Obligations.ChipAndMixerFieldsHaveTheirWriters : Prop :=
  ∀ (i : Instr) (s : State), s.Inv → ∃ t, exec i s = .next t ∧
    (∀ k, (t.chip k).chipOn ≠ (s.chip k).chipOn →
      ∃ chip bank, chip.toNat = k ∧ i = .wregGctrl chip (t.chip k).chipOn bank) ∧
    (∀ k, (t.chip k).bank ≠ (s.chip k).bank → ∃ chip on, chip.toNat = k ∧ i = .wregGctrl chip on (t.chip k).bank) ∧
    (∀ k a, t.readByte k a ≠ s.readByte k a →
      ∃ chip addr, chip.toNat = k ∧ addr.toNat = a ∧ i = .wmem chip addr (t.readByte k a)) ∧
    (∀ k, (t.chip k).lastL ≠ (s.chip k).lastL ∨ (t.chip k).lastR ≠ (s.chip k).lastR → i.ticks k) ∧
    (∀ k, (t.chip k).racc ≠ (s.chip k).racc → i = .frame) ∧
    (t.mix.gvol ≠ s.mix.gvol → ∃ d, i = .wmixGvoll d ∨ i = .wmixGvolh d) ∧
    (t.mix.frameL ≠ s.mix.frameL ∨ t.mix.frameR ≠ s.mix.frameR → i = .frame)

/-- Which commands may change which programmed register of a channel, and that they must be addressed to its chip
(10_state.md R32 to R36). -/
def Obligations.ChannelRegistersHaveTheirWriters : Prop :=
  ∀ (i : Instr) (s : State) (k c : Nat), ∃ t, exec i s = .next t ∧
    ((t.channel k c).step ≠ (s.channel k c).step →
      ∃ chip slot d, chip.toNat = k ∧ (i = .wregStepl chip slot d ∨ i = .wregSteph chip slot d)) ∧
    ((t.channel k c).loop ≠ (s.channel k c).loop →
      ∃ chip slot d, chip.toNat = k ∧ (i = .wregLoopl chip slot d ∨ i = .wregLooph chip slot d)) ∧
    ((t.channel k c).start ≠ (s.channel k c).start → ∃ chip slot d, chip.toNat = k ∧ i = .wregStart chip slot d) ∧
    ((t.channel k c).vol ≠ (s.channel k c).vol → ∃ chip slot d, chip.toNat = k ∧ i = .wregVol chip slot d) ∧
    ((t.channel k c).pan ≠ (s.channel k c).pan → ∃ chip slot d, chip.toNat = k ∧ i = .wregPan chip slot d)

/-- The enable flag is set only by TRIG and a 1 bit of CHON and cleared only by a 0 bit of CHON and by a tick; the position
and the counter move only by the position registers, TRIG, CHON and a tick (10_state.md R31, R37, R38, R47). -/
def Obligations.EnablePositionAndCounterHaveTheirWriters : Prop :=
  ∀ (i : Instr) (s : State) (k c : Nat), ∃ t, exec i s = .next t ∧
    ((s.channel k c).en = false → (t.channel k c).en = true →
      (∃ chip slot, chip.toNat = k ∧ i = .wregTrig chip slot) ∨
      (∃ chip g d, chip.toNat = k ∧ g.toNat = c / 8 ∧ d.toNat.testBit (c % 8) = true ∧ i = .wregChon chip g d)) ∧
    ((s.channel k c).en = true → (t.channel k c).en = false →
      (∃ chip g d, chip.toNat = k ∧ g.toNat = c / 8 ∧ d.toNat.testBit (c % 8) = false ∧ i = .wregChon chip g d) ∨
      i.ticks k) ∧
    ((t.channel k c).pos ≠ (s.channel k c).pos →
      (∃ chip slot d, chip.toNat = k ∧ (i = .wregPosl chip slot d ∨ i = .wregPosh chip slot d)) ∨
      (∃ chip slot, chip.toNat = k ∧ i = .wregTrig chip slot) ∨
      (∃ chip g d, chip.toNat = k ∧ i = .wregChon chip g d) ∨ i.ticks k) ∧
    ((t.channel k c).cnt ≠ (s.channel k c).cnt →
      (∃ chip slot, chip.toNat = k ∧ i = .wregTrig chip slot) ∨
      (∃ chip g d, chip.toNat = k ∧ i = .wregChon chip g d) ∨ i.ticks k)

/-- R226: no envelope. No command but WREG.VOL changes a channel's gain, and no tick changes VOL. -/
def Obligations.OnlyWregVolChangesAGain : Prop :=
  ∀ (i : Instr) (s : State), (∀ k slot d, i ≠ .wregVol k slot d) → ∃ t, exec i s = .next t ∧
    ∀ k c, (t.channel k c).vol = (s.channel k c).vol ∧
      volumeGain (t.cfg.chip k) (t.channel k c).vol.toNat = volumeGain (s.cfg.chip k) (s.channel k c).vol.toNat

/-- R48: the only values CORE presents to the host are the pair of TICK and the pair of FRAME; every other command returns
nothing. -/
def Obligations.OnlyTickAndFrameReturnPairs : Prop :=
  ∀ (i : Instr) (s : State), s.Inv → ∃ t, exec i s = .next t ∧
    (∀ k, i = .tick k → k.toNat < s.cfg.nchip → t.out = some ⟨(t.chip k.toNat).lastL, (t.chip k.toNat).lastR⟩) ∧
    (∀ k, i = .tick k → s.cfg.nchip ≤ k.toNat → t.out = some ⟨0#32, 0#32⟩) ∧
    (i = .frame → t.out = some ⟨t.mix.frameL, t.mix.frameR⟩) ∧
    ((∀ k, i ≠ .tick k) → i ≠ .frame → t.out = none)

/-- Chip instances share no state: what any command does to a chip depends on the command, the configuration and that chip
alone (60_exceptions.md R308). -/
def Obligations.ChipInstancesShareNoState : Prop :=
  ∀ (i : Instr) (s s' : State) (j : Nat), s.Inv → s'.Inv → s'.cfg = s.cfg → s'.chip j = s.chip j →
    ∃ t t', exec i s = .next t ∧ exec i s' = .next t' ∧ t'.chip j = t.chip j

/-- The configuration as data expresses every legal STEP_MAP and VOL_LUT, "any total function" of R7's ranges. -/
def Obligations.ConfigurationExpressesEveryMap : Prop :=
  (∀ f : Nat → Nat, (∀ v < 2 ^ 16, f v < 2 ^ 32) → ∃ xs : List (Nat × Nat), ∀ cc : ChipConfig,
    { cc with stepMap := xs }.legal = { cc with stepMap := [] }.legal ∧
    ∀ v < 2 ^ 16, stepIncrement { cc with stepMap := xs } v = f v) ∧
  (∀ f : Nat → Nat, (∀ v < 2 ^ 8, f v ≤ 256) → ∃ xs : List (Nat × Nat), ∀ cc : ChipConfig,
    { cc with volLut := xs }.legal = { cc with volLut := [] }.legal ∧
    ∀ v < 2 ^ 8, volumeGain { cc with volLut := xs } v = f v)
end

