-- ==== Sys2Proof/Laws/Encoding.lean ====
section
/-! SUPPORT. Words and their fields as numbers, the fields of a packed word, and of the addresses the encoder builds: what the
round trip of `decode` and `encode` rests on. -/

namespace Sys2Proof

/-- A concatenation as a number. -/
theorem toNat_append_eq {n m : Nat} (x : BitVec n) (y : BitVec m) : (x ++ y).toNat = x.toNat * 2 ^ m + y.toNat := by
  rw [BitVec.toNat_append, ← Nat.shiftLeft_add_eq_or_of_lt y.isLt, Nat.shiftLeft_eq]

/-- A slice as a number. -/
theorem toNat_slice {n : Nat} (x : BitVec n) (start len : Nat) :
    (x.extractLsb' start len).toNat = x.toNat / 2 ^ start % 2 ^ len := by
  rw [BitVec.extractLsb'_toNat, Nat.shiftRight_eq_div_pow]

theorem packWord_toNat (op chip : BitVec 4) (addr : BitVec 32) (data : Byte) :
    (packWord op chip addr data).toNat =
      op.toNat * 2 ^ 44 + chip.toNat * 2 ^ 40 + addr.toNat * 2 ^ 8 + data.toNat := by
  have h : (packWord op chip addr data).toNat = BitVec.toNat (op ++ chip ++ addr ++ data) := rfl
  rw [h, toNat_append_eq, toNat_append_eq, toNat_append_eq]
  ring

theorem channelRegAddr_toNat (slot : BitVec 3) (func : BitVec 4) :
    (channelRegAddr slot func).toNat = slot.toNat * 2 ^ 4 + func.toNat := by
  have h : (channelRegAddr slot func).toNat = BitVec.toNat (0b0#1 ++ slot ++ func) := rfl
  rw [h, toNat_append_eq, toNat_append_eq]
  simp

@[simp] theorem wordOp_packWord (op chip : BitVec 4) (addr : BitVec 32) (data : Byte) :
    wordOp (packWord op chip addr data) = op := by
  apply BitVec.eq_of_toNat_eq
  rw [wordOp, toNat_slice, packWord_toNat]
  omega

@[simp] theorem wordChip_packWord (op chip : BitVec 4) (addr : BitVec 32) (data : Byte) :
    wordChip (packWord op chip addr data) = chip := by
  apply BitVec.eq_of_toNat_eq
  rw [wordChip, toNat_slice, packWord_toNat]
  omega

@[simp] theorem wordAddr_packWord (op chip : BitVec 4) (addr : BitVec 32) (data : Byte) :
    wordAddr (packWord op chip addr data) = addr := by
  apply BitVec.eq_of_toNat_eq
  rw [wordAddr, toNat_slice, packWord_toNat]
  omega

@[simp] theorem wordData_packWord (op chip : BitVec 4) (addr : BitVec 32) (data : Byte) :
    wordData (packWord op chip addr data) = data := by
  apply BitVec.eq_of_toNat_eq
  rw [wordData, toNat_slice, packWord_toNat]
  omega

/-- `A = ADDR[7:0]`. -/
theorem wordRegAddr_eq (w : CommandWord) : wordRegAddr w = (wordAddr w).extractLsb' 0 8 := by
  apply BitVec.eq_of_toNat_eq
  rw [wordRegAddr, wordAddr, toNat_slice, toNat_slice, toNat_slice]
  omega

@[simp] theorem wordRegAddr_packWord (op chip : BitVec 4) (addr : BitVec 32) (data : Byte) :
    wordRegAddr (packWord op chip addr data) = addr.extractLsb' 0 8 := by rw [wordRegAddr_eq, wordAddr_packWord]

@[simp] theorem wordOp_packWreg (chip : BitVec 4) (a data : Byte) : wordOp (packWreg chip a data) = 0x1#4 := by
  simp [packWreg]
@[simp] theorem wordChip_packWreg (chip : BitVec 4) (a data : Byte) : wordChip (packWreg chip a data) = chip := by
  simp [packWreg]
@[simp] theorem wordData_packWreg (chip : BitVec 4) (a data : Byte) : wordData (packWreg chip a data) = data := by
  simp [packWreg]
@[simp] theorem wordRegAddr_packWreg (chip : BitVec 4) (a data : Byte) : wordRegAddr (packWreg chip a data) = a := by
  apply BitVec.eq_of_toNat_eq
  rw [packWreg, wordRegAddr_packWord, toNat_slice, BitVec.toNat_setWidth]
  omega

/-- Bit 7 of a byte as a number. -/
theorem bit7_false_iff (a : Byte) : a.getLsbD 7 = false ↔ a.toNat < 128 := by
  have h := a.isLt
  rw [← BitVec.testBit_toNat, Nat.testBit_eq_decide_div_mod_eq]
  simp
  omega

@[simp] theorem channelRegAddr_space (slot : BitVec 3) (func : BitVec 4) :
    (channelRegAddr slot func).getLsbD 7 = false := by
  rw [bit7_false_iff, channelRegAddr_toNat]
  omega

@[simp] theorem regSlot_channelRegAddr (slot : BitVec 3) (func : BitVec 4) :
    regSlot (channelRegAddr slot func) = slot := by
  apply BitVec.eq_of_toNat_eq
  rw [regSlot, toNat_slice, channelRegAddr_toNat]
  omega

@[simp] theorem regFunc_channelRegAddr (slot : BitVec 3) (func : BitVec 4) :
    regFunc (channelRegAddr slot func) = func := by
  apply BitVec.eq_of_toNat_eq
  rw [regFunc, toNat_slice, channelRegAddr_toNat]
  omega

theorem chonRegAddr_toNat (group : BitVec 4) : (chonRegAddr group).toNat = 9 * 2 ^ 4 + group.toNat := by
  have h : (chonRegAddr group).toNat = BitVec.toNat (0x9#4 ++ group) := rfl
  rw [h, toNat_append_eq]
  rfl

@[simp] theorem chonRegAddr_space (group : BitVec 4) : (chonRegAddr group).getLsbD 7 = true := by
  have h := bit7_false_iff (chonRegAddr group)
  rw [chonRegAddr_toNat] at h
  rw [← Bool.not_eq_false, h]
  omega

@[simp] theorem chonRegAddr_high (group : BitVec 4) : (chonRegAddr group).extractLsb' 4 4 = 0x9#4 := by
  apply BitVec.eq_of_toNat_eq
  rw [toNat_slice, chonRegAddr_toNat, BitVec.toNat_ofNat]
  omega

@[simp] theorem regFunc_chonRegAddr (group : BitVec 4) : regFunc (chonRegAddr group) = group := by
  apply BitVec.eq_of_toNat_eq
  rw [regFunc, toNat_slice, chonRegAddr_toNat]
  omega

theorem gctrlData_toNat (chipOn : Bool) (bank : BitVec 4) :
    (gctrlData chipOn bank).toNat = chipOn.toNat * 2 ^ 7 + bank.toNat := by
  have h : (gctrlData chipOn bank).toNat = BitVec.toNat (BitVec.ofBool chipOn ++ 0b000#3 ++ bank) := rfl
  rw [h, toNat_append_eq, toNat_append_eq]
  cases chipOn <;> simp

@[simp] theorem gctrlData_chipOn (chipOn : Bool) (bank : BitVec 4) : (gctrlData chipOn bank).getLsbD 7 = chipOn := by
  have h := bit7_false_iff (gctrlData chipOn bank)
  rw [gctrlData_toNat] at h
  cases chipOn
  · rw [h, Bool.toNat_false]
    omega
  · rw [← Bool.not_eq_false, h, Bool.toNat_true]
    omega

@[simp] theorem gctrlData_bank (chipOn : Bool) (bank : BitVec 4) :
    (gctrlData chipOn bank).extractLsb' 0 4 = bank := by
  apply BitVec.eq_of_toNat_eq
  rw [toNat_slice, gctrlData_toNat]
  have := bank.isLt
  cases chipOn <;> simp <;> omega

/-! ## The same facts at `a[7]`, the form `simp` brings `a.getLsbD 7` to -/

@[simp] theorem channelRegAddr_bit7 (slot : BitVec 3) (func : BitVec 4) : (channelRegAddr slot func)[7] = false := by
  rw [← BitVec.getLsbD_eq_getElem, channelRegAddr_space]

@[simp] theorem chonRegAddr_bit7 (group : BitVec 4) : (chonRegAddr group)[7] = true := by
  rw [← BitVec.getLsbD_eq_getElem, chonRegAddr_space]

@[simp] theorem gctrlData_bit7 (chipOn : Bool) (bank : BitVec 4) : (gctrlData chipOn bank)[7] = chipOn := by
  rw [← BitVec.getLsbD_eq_getElem, gctrlData_chipOn]

/-- No CHON address is GCTRL's. -/
@[simp] theorem chonRegAddr_ne_gctrl (group : BitVec 4) : chonRegAddr group ≠ 0x80#8 := fun h => by
  have := congrArg BitVec.toNat h
  rw [chonRegAddr_toNat] at this
  simp at this
  omega

/-! ## Decoding by operation (R122) -/

theorem decode_channel (w : CommandWord) (h : wordOp w = 0x1#4) (h7 : (wordRegAddr w).getLsbD 7 = false) :
    decode w = decodeChannel (wordChip w) (regSlot (wordRegAddr w)) (regFunc (wordRegAddr w)) (wordData w) := by
  unfold decode
  simp only [h, h7]
  rfl

theorem decode_global (w : CommandWord) (h : wordOp w = 0x1#4) (h7 : (wordRegAddr w).getLsbD 7 = true) :
    decode w = decodeGlobal (wordChip w) (wordRegAddr w) (wordData w) := by
  unfold decode
  simp only [h, h7]
  rfl

theorem decode_wmem (w : CommandWord) (h : wordOp w = 0x2#4) :
    decode w = .wmem (wordChip w) (wordAddr w) (wordData w) := by
  unfold decode
  simp only [h]
  rfl

theorem decode_tick (w : CommandWord) (h : wordOp w = 0x3#4) : decode w = .tick (wordChip w) := by
  unfold decode
  simp only [h]
  rfl

theorem decode_frame (w : CommandWord) (h : wordOp w = 0x4#4) : decode w = .frame := by
  unfold decode
  simp only [h]
  rfl

/-- The row of a command is a row of the table. -/
theorem Instr.row_mem (i : Instr) : i.row ∈ opcodeRows := by
  have h : i.rowIndex < opcodeRows.length := by
    show i.rowIndex < 28
    cases i <;> simp [Instr.rowIndex]
  rw [Instr.row, List.getD_eq_getElem _ _ h]
  exact List.getElem_mem h

end Sys2Proof
end

