-- ==== Sys2Proof/Laws/State.lean ====
section
/-! SUPPORT. Small lemmas of the state updates: one per field per update, and reads of a chip or channel after an update. Later
proofs use these and do not unfold `respond`, `updateChip`, `updateChannel`, `writeGlobal` or `writeChannel`. -/

namespace Sys2Proof.Machine

/-! ## `respond` -/

@[simp] theorem State.respond_cfg (s : State) (o : Option Pair) : (s.respond o).cfg = s.cfg := rfl
@[simp] theorem State.respond_chips (s : State) (o : Option Pair) : (s.respond o).chips = s.chips := rfl
@[simp] theorem State.respond_mix (s : State) (o : Option Pair) : (s.respond o).mix = s.mix := rfl
@[simp] theorem State.respond_inputs (s : State) (o : Option Pair) : (s.respond o).inputs = s.inputs := rfl
@[simp] theorem State.respond_out (s : State) (o : Option Pair) : (s.respond o).out = o := rfl
@[simp] theorem State.respond_chip (s : State) (o : Option Pair) (k : Nat) : (s.respond o).chip k = s.chip k := rfl
@[simp] theorem State.respond_channel (s : State) (o : Option Pair) (k c : Nat) :
    (s.respond o).channel k c = s.channel k c := rfl
@[simp] theorem State.respond_readByte (s : State) (o : Option Pair) (k a : Nat) :
    (s.respond o).readByte k a = s.readByte k a := rfl

/-! ## `updateChip` -/

@[simp] theorem State.updateChip_cfg (s : State) (k : Nat) (f : Chip → Chip) : (s.updateChip k f).cfg = s.cfg := rfl
@[simp] theorem State.updateChip_mix (s : State) (k : Nat) (f : Chip → Chip) : (s.updateChip k f).mix = s.mix := rfl
@[simp] theorem State.updateChip_inputs (s : State) (k : Nat) (f : Chip → Chip) :
    (s.updateChip k f).inputs = s.inputs := rfl
@[simp] theorem State.updateChip_out (s : State) (k : Nat) (f : Chip → Chip) : (s.updateChip k f).out = s.out := rfl
@[simp] theorem State.updateChip_length (s : State) (k : Nat) (f : Chip → Chip) :
    (s.updateChip k f).chips.length = s.chips.length := by simp [State.updateChip]

/-- A chip after an update: the updated one where the index exists, every other as it was. -/
theorem State.updateChip_chip (s : State) (k j : Nat) (f : Chip → Chip) :
    (s.updateChip k f).chip j = if j = k ∧ k < s.chips.length then f (s.chip k) else s.chip j := by
  by_cases hjk : j = k
  · subst hjk
    by_cases hj : j < s.chips.length <;> simp [State.updateChip, State.chip, List.getD, hj]
  · have hkj : ¬ k = j := fun h => hjk h.symm
    simp [State.updateChip, State.chip, List.getD, hjk, hkj]

theorem State.updateChip_chip_self (s : State) (k : Nat) (f : Chip → Chip) (h : k < s.chips.length) :
    (s.updateChip k f).chip k = f (s.chip k) := by simp [State.updateChip_chip, h]

theorem State.updateChip_chip_ne (s : State) (k j : Nat) (f : Chip → Chip) (h : j ≠ k) :
    (s.updateChip k f).chip j = s.chip j := by simp [State.updateChip_chip, h]

/-- A projection of a chip that the update keeps is kept for every chip. -/
theorem State.updateChip_proj {α : Type} (s : State) (k j : Nat) (f : Chip → Chip) (p : Chip → α)
    (h : ∀ x, p (f x) = p x) : p ((s.updateChip k f).chip j) = p (s.chip j) := by
  rw [State.updateChip_chip]
  split
  next hjk => rw [h, hjk.1]
  next => rfl

/-! ## `updateChannel` -/

@[simp] theorem Chip.updateChannel_chipOn (x : Chip) (c : Nat) (f : Channel → Channel) :
    (x.updateChannel c f).chipOn = x.chipOn := rfl
@[simp] theorem Chip.updateChannel_bank (x : Chip) (c : Nat) (f : Channel → Channel) :
    (x.updateChannel c f).bank = x.bank := rfl
@[simp] theorem Chip.updateChannel_mem (x : Chip) (c : Nat) (f : Channel → Channel) :
    (x.updateChannel c f).mem = x.mem := rfl
@[simp] theorem Chip.updateChannel_lastL (x : Chip) (c : Nat) (f : Channel → Channel) :
    (x.updateChannel c f).lastL = x.lastL := rfl
@[simp] theorem Chip.updateChannel_lastR (x : Chip) (c : Nat) (f : Channel → Channel) :
    (x.updateChannel c f).lastR = x.lastR := rfl
@[simp] theorem Chip.updateChannel_racc (x : Chip) (c : Nat) (f : Channel → Channel) :
    (x.updateChannel c f).racc = x.racc := rfl
@[simp] theorem Chip.updateChannel_length (x : Chip) (c : Nat) (f : Channel → Channel) :
    (x.updateChannel c f).ch.length = x.ch.length := by simp [Chip.updateChannel]

/-- A channel after an update: the updated one where the index exists, every other as it was. -/
theorem Chip.updateChannel_channel (x : Chip) (c e : Nat) (f : Channel → Channel) :
    (x.updateChannel c f).channel e = if e = c ∧ c < x.ch.length then f (x.channel c) else x.channel e := by
  by_cases hec : e = c
  · subst hec
    by_cases he : e < x.ch.length <;> simp [Chip.updateChannel, Chip.channel, List.getD, he]
  · have hce : ¬ c = e := fun h => hec h.symm
    simp [Chip.updateChannel, Chip.channel, List.getD, hec, hce]

/-- Every channel an update leaves satisfies what the old ones and the new one satisfy. -/
theorem Chip.updateChannel_forall {p : Channel → Prop} (x : Chip) (c : Nat) (f : Channel → Channel)
    (h : ∀ ch ∈ x.ch, p ch) (hf : ∀ ch ∈ x.ch, p (f ch)) : ∀ ch ∈ (x.updateChannel c f).ch, p ch := by
  intro ch hch
  obtain ⟨e, he, rfl⟩ := List.mem_iff_getElem.mp hch
  simp only [Chip.updateChannel, List.getElem_modify]
  split
  · exact hf _ (List.getElem_mem _)
  · exact h _ (List.getElem_mem _)

/-- A channel below NCH is one of the chip's channels. -/
theorem Chip.channel_mem (x : Chip) (c : Nat) (h : c < x.ch.length) : x.channel c ∈ x.ch := by
  simp [Chip.channel, List.getD, h]

/-! ## `setControl` -/

@[simp] theorem Chip.setControl_ch (b : Bool) (n : BitVec 4) (x : Chip) : (x.setControl b n).ch = x.ch := rfl
@[simp] theorem Chip.setControl_chipOn (b : Bool) (n : BitVec 4) (x : Chip) : (x.setControl b n).chipOn = b := rfl
@[simp] theorem Chip.setControl_bank (b : Bool) (n : BitVec 4) (x : Chip) : (x.setControl b n).bank = n := rfl
@[simp] theorem Chip.setControl_mem (b : Bool) (n : BitVec 4) (x : Chip) : (x.setControl b n).mem = x.mem := rfl
@[simp] theorem Chip.setControl_lastL (b : Bool) (n : BitVec 4) (x : Chip) : (x.setControl b n).lastL = x.lastL := rfl
@[simp] theorem Chip.setControl_lastR (b : Bool) (n : BitVec 4) (x : Chip) : (x.setControl b n).lastR = x.lastR := rfl
@[simp] theorem Chip.setControl_racc (b : Bool) (n : BitVec 4) (x : Chip) : (x.setControl b n).racc = x.racc := rfl

/-! ## The common part of a WREG -/

/-- A write to a chip that is not there changes nothing (R113). -/
theorem writeGlobal_absent (k : BitVec 4) (f : Config → ChipConfig → Chip → Chip) (s : State)
    (h : s.cfg.nchip ≤ k.toNat) : writeGlobal k f s = s.respond none := by
  simp [writeGlobal, Nat.not_lt.mpr h]

/-- A write to a chip that is there: that chip is updated, nothing is returned. -/
theorem writeGlobal_present (k : BitVec 4) (f : Config → ChipConfig → Chip → Chip) (s : State)
    (h : k.toNat < s.cfg.nchip) :
    writeGlobal k f s = (s.updateChip k.toNat (f s.cfg (s.cfg.chip k.toNat))).respond none := by
  simp [writeGlobal, h]

@[simp] theorem writeGlobal_cfg (k : BitVec 4) (f : Config → ChipConfig → Chip → Chip) (s : State) :
    (writeGlobal k f s).cfg = s.cfg := by unfold writeGlobal; split <;> rfl
@[simp] theorem writeGlobal_mix (k : BitVec 4) (f : Config → ChipConfig → Chip → Chip) (s : State) :
    (writeGlobal k f s).mix = s.mix := by unfold writeGlobal; split <;> rfl
@[simp] theorem writeGlobal_inputs (k : BitVec 4) (f : Config → ChipConfig → Chip → Chip) (s : State) :
    (writeGlobal k f s).inputs = s.inputs := by unfold writeGlobal; split <;> rfl
@[simp] theorem writeGlobal_out (k : BitVec 4) (f : Config → ChipConfig → Chip → Chip) (s : State) :
    (writeGlobal k f s).out = none := by unfold writeGlobal; split <;> rfl
@[simp] theorem writeGlobal_length (k : BitVec 4) (f : Config → ChipConfig → Chip → Chip) (s : State) :
    (writeGlobal k f s).chips.length = s.chips.length := by unfold writeGlobal; split <;> simp

/-- A chip after a register write. -/
theorem writeGlobal_chip (k : BitVec 4) (f : Config → ChipConfig → Chip → Chip) (s : State) (j : Nat) :
    (writeGlobal k f s).chip j =
      if j = k.toNat ∧ k.toNat < s.cfg.nchip ∧ k.toNat < s.chips.length then
        f s.cfg (s.cfg.chip k.toNat) (s.chip k.toNat)
      else s.chip j := by
  unfold writeGlobal
  split
  next h => simp [State.updateChip_chip, h]
  next h => simp [h]

/-- A projection of a chip that the write keeps is kept for every chip. -/
theorem writeGlobal_proj {α : Type} (k : BitVec 4) (f : Config → ChipConfig → Chip → Chip) (s : State) (j : Nat)
    (p : Chip → α) (h : ∀ cc x, p (f s.cfg cc x) = p x) : p ((writeGlobal k f s).chip j) = p (s.chip j) := by
  rw [writeGlobal_chip]
  split
  next hj => rw [h, hj.1]
  next => rfl

end Sys2Proof.Machine
end

