-- ==== Sys2Proof/Laws/Tick.lean ====
section
/-! SUPPORT. What the operations of a tick can do, said once each: a channel step keeps the programmed registers and never
enables, its contribution is bounded, and the tick's loop over channels in any order without repetition is the pointwise step
and the exact sum. -/

namespace Sys2Proof.Machine

/-! ## Parameters of a legal configuration -/

/-- A value looked up is the base law's or an exception's. -/
theorem lookupMap_cases (xs : List (Nat × Nat)) (base : Nat → Nat) (x : Nat) :
    lookupMap xs base x = base x ∨ ∃ e ∈ xs, lookupMap xs base x = e.2 := by
  induction xs with
  | nil => exact .inl rfl
  | cons e xs ih =>
    obtain ⟨a, v⟩ := e
    unfold lookupMap
    split
    · exact .inr ⟨(a, v), by simp, rfl⟩
    · exact ih.imp_right fun ⟨e, he, h⟩ => ⟨e, by simp [he], h⟩

/-- The parameters of a chip that is there are among the configuration's. -/
theorem Config.chip_mem (cfg : Config) (k : Nat) (h : k < cfg.nchip) : cfg.chip k ∈ cfg.chips := by
  have h' : k < cfg.chips.length := h
  simp [Config.chip, List.getD, h']

/-- Every chip of a legal configuration is legal. -/
theorem Config.legal_chip (cfg : Config) (h : cfg.legal = true) (k : Nat) (hk : k < cfg.nchip) :
    (cfg.chip k).legal = true := by
  simp only [Config.legal, Bool.and_eq_true, List.all_eq_true] at h
  exact h.2 _ (Config.chip_mem cfg k hk)

/-- A legal volume table has gains up to 256 (R7, R222). -/
theorem volumeGain_le (cc : ChipConfig) (h : cc.legal = true) (v : Nat) : volumeGain cc v ≤ 256 := by
  rcases lookupMap_cases cc.volLut (fun v => v * 256 / (v + 10)) v with h' | ⟨e, he, h'⟩
  · rw [volumeGain, h']
    exact Nat.div_le_of_le_mul (by omega)
  · simp only [ChipConfig.legal, Bool.and_eq_true, List.all_eq_true, decide_eq_true_eq] at h
    rw [volumeGain, h']
    exact (h.1.1.1.1.1.2 e he).2

theorem panLeft_le (p : Byte) : panLeft p ≤ 15 := by
  have := (p.extractLsb' 0 4).isLt
  unfold panLeft
  omega

theorem panRight_le (p : Byte) : panRight p ≤ 15 := by
  have := (p.extractLsb' 4 4).isLt
  unfold panRight
  omega

/-! ## The channel step -/

theorem stepPosition_registers (cc : ChipConfig) (ch : Channel) :
    SameRegisters ch (stepPosition cc ch) := by
  unfold stepPosition stepAccum stepCountdown
  cases cc.stepMode <;> dsimp only
  · exact ⟨rfl, rfl, rfl, rfl, rfl⟩
  · split <;> exact ⟨rfl, rfl, rfl, rfl, rfl⟩

theorem stepPosition_en (cc : ChipConfig) (ch : Channel) : (stepPosition cc ch).en = ch.en := by
  unfold stepPosition stepAccum stepCountdown
  cases cc.stepMode <;> dsimp only
  split <;> rfl

theorem truncPos_lt (cc : ChipConfig) (v : Nat) : truncPos cc v < 2 ^ cc.pw := Nat.mod_lt _ (by positivity)

theorem stepPosition_pos_lt (cc : ChipConfig) (ch : Channel) (h : ch.pos < 2 ^ cc.pw) :
    (stepPosition cc ch).pos < 2 ^ cc.pw := by
  unfold stepPosition stepAccum stepCountdown
  cases cc.stepMode <;> dsimp only
  · exact truncPos_lt cc _
  · split
    · exact truncPos_lt cc _
    · exact h

/-- The output reads VOL and PAN only. -/
theorem output_congr (cc : ChipConfig) (x y : Channel) (b : Byte) (hv : y.vol = x.vol) (hp : y.pan = x.pan) :
    output cc y b = output cc x b := by
  unfold output outputBias outputSignmag gainOf
  rw [hv, hp]

/-- A played byte: the position is stepped, and the contribution is that of the channel as it was. -/
theorem playByte_eq (cc : ChipConfig) (ch : Channel) (b : Byte) :
    playByte cc ch b = (stepPosition cc ch, output cc ch b) := by
  have h := stepPosition_registers cc ch
  simp [playByte, output_congr cc ch _ b h.2.2.2.1 h.2.2.2.2]

/-- A channel step in cases: disabled, double sentinel, loop byte played, or the byte at the position played. -/
theorem advance_cases (cc : ChipConfig) (mem : Memory) (ch : Channel) :
    (ch.en = false ∧ advance cc mem ch = (ch, 0, 0)) ∨
    (ch.en = true ∧ fetchByte cc mem ch = cc.sentinel ∧ fetchByte cc mem (reload cc ch) = cc.sentinel ∧
      advance cc mem ch = ((reload cc ch).silence, 0, 0)) ∨
    (ch.en = true ∧ fetchByte cc mem ch = cc.sentinel ∧ fetchByte cc mem (reload cc ch) ≠ cc.sentinel ∧
      advance cc mem ch = (stepPosition cc (reload cc ch), output cc ch (fetchByte cc mem (reload cc ch)))) ∨
    (ch.en = true ∧ fetchByte cc mem ch ≠ cc.sentinel ∧
      advance cc mem ch = (stepPosition cc ch, output cc ch (fetchByte cc mem ch))) := by
  cases hen : ch.en
  · exact .inl ⟨rfl, by simp [advance, hen]⟩
  by_cases h1 : fetchByte cc mem ch = cc.sentinel
  · by_cases h2 : fetchByte cc mem (reload cc ch) = cc.sentinel
    · exact .inr (.inl ⟨rfl, h1, h2, by simp [advance, hen, h1, h2]⟩)
    · refine .inr (.inr (.inl ⟨rfl, h1, h2, ?_⟩))
      have : output cc (reload cc ch) (fetchByte cc mem (reload cc ch)) =
          output cc ch (fetchByte cc mem (reload cc ch)) := output_congr cc ch _ _ rfl rfl
      simp [advance, hen, h1, h2, playByte_eq, this]
  · exact .inr (.inr (.inr ⟨rfl, h1, by simp [advance, hen, h1, playByte_eq]⟩))

theorem advance_registers (cc : ChipConfig) (mem : Memory) (ch : Channel) :
    SameRegisters ch (advance cc mem ch).1 := by
  rcases advance_cases cc mem ch with ⟨-, h⟩ | ⟨-, -, -, h⟩ | ⟨-, -, -, h⟩ | ⟨-, -, h⟩ <;> rw [h]
  · exact ⟨rfl, rfl, rfl, rfl, rfl⟩
  · exact ⟨rfl, rfl, rfl, rfl, rfl⟩
  · exact stepPosition_registers cc (reload cc ch)
  · exact stepPosition_registers cc ch

/-- A channel step never enables a channel (R37). -/
theorem advance_en (cc : ChipConfig) (mem : Memory) (ch : Channel) (h : ch.en = false) :
    (advance cc mem ch).1.en = false := by simp [advance, h]

theorem advance_pos_lt (cc : ChipConfig) (mem : Memory) (ch : Channel) (h : ch.pos < 2 ^ cc.pw) :
    (advance cc mem ch).1.pos < 2 ^ cc.pw := by
  rcases advance_cases cc mem ch with ⟨-, e⟩ | ⟨-, -, -, e⟩ | ⟨-, -, -, e⟩ | ⟨-, -, e⟩ <;> rw [e]
  · exact h
  · exact truncPos_lt cc _
  · exact stepPosition_pos_lt cc _ (truncPos_lt cc _)
  · exact stepPosition_pos_lt cc ch h

/-! ## Bounds -/

theorem floorShift_bounds (v B : Int) (n : Nat) (hB : 0 ≤ B) (h1 : -B ≤ v) (h2 : v ≤ B) :
    -B ≤ floorShift v n ∧ floorShift v n ≤ B := by
  have hp : (1 : Int) ≤ 2 ^ n := one_le_pow₀ (by norm_num)
  constructor
  · rw [floorShift, Int.le_ediv_iff_mul_le (by omega)]
    nlinarith
  · exact Int.ediv_le_of_le_mul (by omega) (by nlinarith)

/-- A product of a sample, a gain and a pan coefficient is bounded. -/
theorem product_bounds (s g p S : Int) (hS : 0 ≤ S) (h1 : -S ≤ s) (h2 : s ≤ S) (hg0 : 0 ≤ g) (hg : g ≤ 256)
    (hp0 : 0 ≤ p) (hp : p ≤ 15) : -(S * 3840) ≤ s * g * p ∧ s * g * p ≤ S * 3840 := by
  have hgp0 : 0 ≤ g * p := mul_nonneg hg0 hp0
  have hgp : g * p ≤ 3840 := by nlinarith
  rw [mul_assoc]
  constructor <;> nlinarith

/-- One channel's contribution lies within `255 * 256 * 15` (R224). -/
theorem output_bounds (cc : ChipConfig) (hcc : cc.legal = true) (ch : Channel) (b : Byte) :
    (-contributionBound ≤ (output cc ch b).1 ∧ (output cc ch b).1 ≤ contributionBound) ∧
    (-contributionBound ≤ (output cc ch b).2 ∧ (output cc ch b).2 ≤ contributionBound) := by
  have hg0 : (0 : Int) ≤ gainOf cc ch := Int.natCast_nonneg _
  have hg : gainOf cc ch ≤ 256 := by
    have := volumeGain_le cc hcc ch.vol.toNat
    unfold gainOf
    omega
  have hl0 : (0 : Int) ≤ (panLeft ch.pan : Int) := Int.natCast_nonneg _
  have hl : (panLeft ch.pan : Int) ≤ 15 := by exact_mod_cast panLeft_le ch.pan
  have hr0 : (0 : Int) ≤ (panRight ch.pan : Int) := Int.natCast_nonneg _
  have hr : (panRight ch.pan : Int) ≤ 15 := by exact_mod_cast panRight_le ch.pan
  unfold output contributionBound
  cases cc.coding <;> dsimp only
  · have hb := b.isLt
    have hbv := cc.biasVal.isLt
    have h1 := product_bounds ((b.toNat : Int) - cc.biasVal.toNat) (gainOf cc ch) (panLeft ch.pan) 255
      (by norm_num) (by omega) (by omega) hg0 hg hl0 hl
    have h2 := product_bounds ((b.toNat : Int) - cc.biasVal.toNat) (gainOf cc ch) (panRight ch.pan) 255
      (by norm_num) (by omega) (by omega) hg0 hg hr0 hr
    exact ⟨floorShift_bounds _ 979200 _ (by norm_num) h1.1 h1.2, floorShift_bounds _ 979200 _ (by norm_num) h2.1 h2.2⟩
  · have hm := (b.extractLsb' 0 7).isLt
    have h1 := product_bounds ((b.extractLsb' 0 7).toNat : Int) (gainOf cc ch) (panLeft ch.pan) 255
      (by norm_num) (by omega) (by omega) hg0 hg hl0 hl
    have h2 := product_bounds ((b.extractLsb' 0 7).toNat : Int) (gainOf cc ch) (panRight ch.pan) 255
      (by norm_num) (by omega) (by omega) hg0 hg hr0 hr
    have e1 := floorShift_bounds _ 979200 cc.outShift (by norm_num) h1.1 h1.2
    have e2 := floorShift_bounds _ 979200 cc.outShift (by norm_num) h2.1 h2.2
    unfold outputSignmag
    split
    · exact ⟨⟨neg_le_neg e1.2, neg_le.mpr e1.1⟩, ⟨neg_le_neg e2.2, neg_le.mpr e2.1⟩⟩
    · exact ⟨e1, e2⟩

theorem advance_bounds (cc : ChipConfig) (hcc : cc.legal = true) (mem : Memory) (ch : Channel) :
    (-contributionBound ≤ (advance cc mem ch).2.1 ∧ (advance cc mem ch).2.1 ≤ contributionBound) ∧
    (-contributionBound ≤ (advance cc mem ch).2.2 ∧ (advance cc mem ch).2.2 ≤ contributionBound) := by
  have h0 : -contributionBound ≤ 0 ∧ (0 : Int) ≤ contributionBound := by unfold contributionBound; omega
  rcases advance_cases cc mem ch with ⟨-, e⟩ | ⟨-, -, -, e⟩ | ⟨-, -, -, e⟩ | ⟨-, -, e⟩ <;> rw [e]
  · exact ⟨h0, h0⟩
  · exact ⟨h0, h0⟩
  · exact output_bounds cc hcc ch _
  · exact output_bounds cc hcc ch _

/-! ## The loop over channels -/

/-- One round of the loop. -/
theorem advanceInto_eq (cc : ChipConfig) (x : Chip) (l r : Int) (c : Nat) (h : c < x.ch.length) :
    advanceInto cc (x, l, r) c =
      (x.updateChannel c (fun _ => (advance cc x.mem (x.channel c)).1),
        l + (advance cc x.mem (x.channel c)).2.1, r + (advance cc x.mem (x.channel c)).2.2) := by
  simp [advanceInto, h]

/-- What the loop over channels answers, in any order without repetition: every listed channel advanced once from where it
was, the exact sums, and nothing else of the chip changed. -/
structure LoopResult (cc : ChipConfig) (order : List Nat) (x : Chip) (l r : Int)
    (res : Chip × Int × Int) : Prop where
  channels : ∀ c, res.1.channel c = if c ∈ order then (advance cc x.mem (x.channel c)).1 else x.channel c
  length : res.1.ch.length = x.ch.length
  rest : res.1.chipOn = x.chipOn ∧ res.1.bank = x.bank ∧ res.1.mem = x.mem ∧ res.1.lastL = x.lastL ∧
    res.1.lastR = x.lastR ∧ res.1.racc = x.racc
  sumL : res.2.1 = l + (order.map fun c => (advance cc x.mem (x.channel c)).2.1).sum
  sumR : res.2.2 = r + (order.map fun c => (advance cc x.mem (x.channel c)).2.2).sum

theorem foldl_advanceInto (cc : ChipConfig) (order : List Nat) (x : Chip) (l r : Int)
    (hnd : order.Nodup) (hlt : ∀ c ∈ order, c < x.ch.length) :
    LoopResult cc order x l r (order.foldl (advanceInto cc) (x, l, r)) := by
  induction order generalizing x l r with
  | nil => exact ⟨by simp, rfl, ⟨rfl, rfl, rfl, rfl, rfl, rfl⟩, by simp, by simp⟩
  | cons d order ih =>
    have hd := hlt d (by simp)
    obtain ⟨hdn, hnd'⟩ := List.nodup_cons.mp hnd
    rw [List.foldl_cons, advanceInto_eq cc x l r d hd]
    obtain ⟨hc, hlen, hrest, hl, hr⟩ := ih (x.updateChannel d fun _ => (advance cc x.mem (x.channel d)).1) _ _ hnd'
      (fun c hc => by simpa using hlt c (by simp [hc]))
    have hsame : ∀ c ∈ order, (x.updateChannel d fun _ => (advance cc x.mem (x.channel d)).1).channel c =
        x.channel c := fun c hc => by
      rw [Chip.updateChannel_channel, if_neg fun h : c = d ∧ d < x.ch.length => hdn (h.1 ▸ hc)]
    refine ⟨fun c => ?_, by simpa using hlen, hrest, ?_, ?_⟩
    · rw [hc, Chip.updateChannel_channel]
      by_cases hcd : c = d
      · subst hcd
        simp [hdn, hd]
      · by_cases hco : c ∈ order <;> simp [hco, hcd]
    · rw [hl, List.map_cons, List.sum_cons, add_assoc]
      congr 2
      refine congrArg List.sum (List.map_congr_left fun c hc => ?_)
      rw [hsame c hc]
      rfl
    · rw [hr, List.map_cons, List.sum_cons, add_assoc]
      congr 2
      refine congrArg List.sum (List.map_congr_left fun c hc => ?_)
      rw [hsame c hc]
      rfl

/-- The loop of a tick of a chip with NCH channels. -/
theorem advanceAll_range (cfg : Config) (cc : ChipConfig) (x : Chip) (h : x.ch.length = cfg.nch) :
    LoopResult cc (List.range cfg.nch) x 0 0 (advanceAll cc (List.range cfg.nch) x) :=
  foldl_advanceInto cc _ x 0 0 List.nodup_range fun _ hc => h ▸ List.mem_range.mp hc

/-- A sum of bounded terms is bounded. -/
theorem sum_bounds (f : Nat → Int) (B : Int) (order : List Nat) (h : ∀ c, -B ≤ f c ∧ f c ≤ B) :
    -(order.length * B) ≤ (order.map f).sum ∧ (order.map f).sum ≤ order.length * B := by
  induction order with
  | nil => simp
  | cons c _ ih =>
    have := h c
    simp only [List.map_cons, List.sum_cons, List.length_cons]
    push_cast
    constructor <;> linarith [ih.1, ih.2]

/-- A 32-bit field holds an integer in its range exactly. -/
theorem store32_toInt (v : Int) (h1 : -2 ^ 31 ≤ v) (h2 : v < 2 ^ 31) : (store32 v).toInt = v := by
  rw [store32, BitVec.toInt_ofInt, Int.bmod_eq_of_le] <;> norm_num <;> omega

/-! ## The tick of a chip -/

/-- What a tick of a chip keeps: everything but positions, enables, counters and the pair. -/
structure KeptByTick (x y : Chip) : Prop where
  length : y.ch.length = x.ch.length
  chipOn : y.chipOn = x.chipOn
  bank : y.bank = x.bank
  mem : y.mem = x.mem
  racc : y.racc = x.racc
  registers : ∀ c, SameRegisters (x.channel c) (y.channel c)
  disabled : ∀ c, (x.channel c).en = false → (y.channel c).en = false

theorem KeptByTick.refl (x : Chip) : KeptByTick x x :=
  ⟨rfl, rfl, rfl, rfl, rfl, fun _ => ⟨rfl, rfl, rfl, rfl, rfl⟩, fun _ h => h⟩

theorem KeptByTick.trans {x y z : Chip} (h1 : KeptByTick x y) (h2 : KeptByTick y z) : KeptByTick x z where
  length := h2.length.trans h1.length
  chipOn := h2.chipOn.trans h1.chipOn
  bank := h2.bank.trans h1.bank
  mem := h2.mem.trans h1.mem
  racc := h2.racc.trans h1.racc
  registers c := by
    obtain ⟨a1, a2, a3, a4, a5⟩ := h1.registers c
    obtain ⟨b1, b2, b3, b4, b5⟩ := h2.registers c
    exact ⟨b1.trans a1, b2.trans a2, b3.trans a3, b4.trans a4, b5.trans a5⟩
  disabled c h := h2.disabled c (h1.disabled c h)

theorem KeptByTick.pair {x y : Chip} (h : KeptByTick x y) (l r : BitVec 32) :
    KeptByTick x { y with lastL := l, lastR := r } :=
  ⟨h.length, h.chipOn, h.bank, h.mem, h.racc, h.registers, h.disabled⟩

theorem advanceInto_kept (cc : ChipConfig) (acc : Chip × Int × Int) (c : Nat) :
    KeptByTick acc.1 (advanceInto cc acc c).1 := by
  obtain ⟨x, l, r⟩ := acc
  by_cases hc : c < x.ch.length
  · rw [advanceInto_eq cc x l r c hc]
    refine ⟨by simp, rfl, rfl, rfl, rfl, fun e => ?_, fun e he => ?_⟩ <;>
      simp only [Chip.updateChannel_channel] <;> split
    next h => exact h.1 ▸ advance_registers cc x.mem (x.channel c)
    next => exact ⟨rfl, rfl, rfl, rfl, rfl⟩
    next h => exact advance_en cc x.mem _ (h.1 ▸ he)
    next => exact he
  · have : advanceInto cc (x, l, r) c = (x, l, r) := by simp [advanceInto, hc]
    rw [this]
    exact KeptByTick.refl x

theorem foldl_advanceInto_kept (cc : ChipConfig) (order : List Nat) (acc : Chip × Int × Int) :
    KeptByTick acc.1 (order.foldl (advanceInto cc) acc).1 := by
  induction order generalizing acc with
  | nil => exact KeptByTick.refl acc.1
  | cons c order ih => exact (advanceInto_kept cc acc c).trans (ih _)

theorem tickInOrder_on (cc : ChipConfig) (order : List Nat) (x : Chip) (h : x.chipOn = true) :
    tickInOrder cc order x =
      { (advanceAll cc order x).1 with
        lastL := store32 (advanceAll cc order x).2.1, lastR := store32 (advanceAll cc order x).2.2 } := by
  simp [tickInOrder, h]

theorem tickInOrder_off (cc : ChipConfig) (order : List Nat) (x : Chip) (h : x.chipOn = false) :
    tickInOrder cc order x = { x with lastL := 0#32, lastR := 0#32 } := by simp [tickInOrder, h]

theorem tickChip_kept (cfg : Config) (cc : ChipConfig) (x : Chip) : KeptByTick x (tickChip cfg cc x) := by
  unfold tickChip
  cases h : x.chipOn
  · rw [tickInOrder_off _ _ _ h]
    exact (KeptByTick.refl x).pair _ _
  · rw [tickInOrder_on _ _ _ h]
    exact (foldl_advanceInto_kept cc _ (x, 0, 0)).pair _ _

/-- A chip whose channels all keep a property has it of every channel by index. -/
theorem forall_mem_of_channel {p : Channel → Prop} (x : Chip) (h : ∀ c < x.ch.length, p (x.channel c)) :
    ∀ ch ∈ x.ch, p ch := by
  intro ch hch
  obtain ⟨c, hc, rfl⟩ := List.mem_iff_getElem.mp hch
  have := h c hc
  simpa [Chip.channel, List.getD, hc] using this

/-- A tick keeps a chip's fields in range. -/
theorem tickChip_ok (cfg : Config) (hcfg : cfg.legal = true) (k : Nat) (hk : k < cfg.nchip) (x : Chip)
    (hx : ChipOk cfg k x) : ChipOk cfg k (tickChip cfg (cfg.chip k) x) := by
  have hkept := tickChip_kept cfg (cfg.chip k) x
  have hnch : cfg.nch ≤ 128 := by
    simp only [Config.legal, Bool.and_eq_true, decide_eq_true_eq] at hcfg
    omega
  obtain ⟨hlen, hpos, hmem, hl, hr, hracc⟩ := hx
  refine ⟨hkept.length.trans hlen, ?_, hkept.mem ▸ hmem, ?_⟩
  · refine forall_mem_of_channel _ fun c hc => ?_
    rw [hkept.length] at hc
    have hp := hpos _ (Chip.channel_mem x c hc)
    unfold tickChip
    cases hon : x.chipOn
    · rw [tickInOrder_off _ _ _ hon]
      exact hp
    · rw [tickInOrder_on _ _ _ hon]
      have := (advanceAll_range cfg (cfg.chip k) x hlen).channels c
      simp only [Chip.channel] at this ⊢
      rw [this]
      split
      · exact advance_pos_lt _ _ _ hp
      · exact hp
  · rw [hkept.racc]
    unfold tickChip
    cases hon : x.chipOn
    · rw [tickInOrder_off _ _ _ hon]
      have : (0 : Int) ≤ cfg.nch * contributionBound := mul_nonneg (Int.natCast_nonneg _) (by norm_num [contributionBound])
      simp only [BitVec.toInt_zero]
      exact ⟨⟨by omega, this⟩, ⟨by omega, this⟩, hracc⟩
    · rw [tickInOrder_on _ _ _ hon]
      have hloop := advanceAll_range cfg (cfg.chip k) x hlen
      have hb := fun c => advance_bounds (cfg.chip k) (Config.legal_chip cfg hcfg k hk) x.mem (x.channel c)
      have hL := sum_bounds (fun c => (advance (cfg.chip k) x.mem (x.channel c)).2.1) contributionBound
        (List.range cfg.nch) fun c => (hb c).1
      have hR := sum_bounds (fun c => (advance (cfg.chip k) x.mem (x.channel c)).2.2) contributionBound
        (List.range cfg.nch) fun c => (hb c).2
      rw [List.length_range, ← zero_add (List.sum _), ← hloop.sumL] at hL
      rw [List.length_range, ← zero_add (List.sum _), ← hloop.sumR] at hR
      have hn : (cfg.nch : Int) * contributionBound ≤ 128 * 979200 := by
        unfold contributionBound
        omega
      dsimp only
      rw [store32_toInt _ (by omega) (by omega), store32_toInt _ (by omega) (by omega)]
      exact ⟨hL, hR, hracc⟩

end Sys2Proof.Machine
end

