-- ==== Sys2Proof/Laws/Frame.lean ====
section
/-! SUPPORT. What the mix phase and the rate phase of FRAME can do, said once each. -/

namespace Sys2Proof.Machine

/-! ## The mix phase -/

@[simp] theorem mixPhase_cfg (s : State) : (mixPhase s).cfg = s.cfg := rfl
@[simp] theorem mixPhase_chips (s : State) : (mixPhase s).chips = s.chips := rfl
@[simp] theorem mixPhase_chip (s : State) (k : Nat) : (mixPhase s).chip k = s.chip k := rfl
@[simp] theorem mixPhase_gvol (s : State) : (mixPhase s).mix.gvol = s.mix.gvol := rfl
@[simp] theorem mixPhase_inputs (s : State) : (mixPhase s).inputs = s.inputs := rfl

/-- A mix loop is the sum over its chips of what each adds. -/
theorem foldl_mixInto (s : State) (ks : List Nat) (acc : Int × Int) :
    ks.foldl (mixInto s) acc =
      (acc.1 + (ks.map fun k => (mixInto s (0, 0) k).1).sum, acc.2 + (ks.map fun k => (mixInto s (0, 0) k).2).sum) := by
  induction ks generalizing acc with
  | nil => simp
  | cons k ks ih =>
    rw [List.foldl_cons, ih]
    cases h : (s.chip k).chipOn <;> simp [mixInto, h, add_assoc]

/-! ## The rate phase -/

theorem tickTimes_kept (cfg : Config) (cc : ChipConfig) (n : Nat) (x : Chip) : KeptByTick x (tickTimes cfg cc n x) := by
  induction n generalizing x with
  | zero => exact KeptByTick.refl x
  | succ n ih => exact (tickChip_kept cfg cc x).trans (ih _)

theorem tickTimes_ok (cfg : Config) (hcfg : cfg.legal = true) (k : Nat) (hk : k < cfg.nchip) (n : Nat) (x : Chip)
    (hx : ChipOk cfg k x) : ChipOk cfg k (tickTimes cfg (cfg.chip k) n x) := by
  induction n generalizing x with
  | zero => exact hx
  | succ n ih => exact ih _ (tickChip_ok cfg hcfg k hk x hx)

theorem tickTimes_add (cfg : Config) (cc : ChipConfig) (m n : Nat) (x : Chip) :
    tickTimes cfg cc (m + n) x = tickTimes cfg cc n (tickTimes cfg cc m x) := by
  induction m generalizing x with
  | zero => rw [Nat.zero_add]; rfl
  | succ m ih => rw [Nat.succ_add]; exact ih _

/-- The accumulator after a rate phase is the remainder. -/
theorem rateChip_eq (cfg : Config) (k : Nat) (x : Chip) :
    rateChip cfg k x = tickTimes cfg (cfg.chip k) ((x.racc + (cfg.chip k).clock) / cfg.thr k)
      { x with racc := (x.racc + (cfg.chip k).clock) % cfg.thr k } := by
  have : x.racc + (cfg.chip k).clock - (x.racc + (cfg.chip k).clock) / cfg.thr k * cfg.thr k =
      (x.racc + (cfg.chip k).clock) % cfg.thr k := by
    rw [Nat.mod_def, Nat.mul_comm]
  simp only [rateChip, this]

/-- A loop that updates each listed chip once. -/
theorem foldl_updateChip (f : Config → Nat → Chip → Chip) (ks : List Nat) (hnd : ks.Nodup) (s : State) :
    let t := ks.foldl (fun t k => t.updateChip k (f t.cfg k)) s
    t.cfg = s.cfg ∧ t.mix = s.mix ∧ t.inputs = s.inputs ∧ t.out = s.out ∧ t.chips.length = s.chips.length ∧
      ∀ j, t.chip j = if j ∈ ks ∧ j < s.chips.length then f s.cfg j (s.chip j) else s.chip j := by
  induction ks generalizing s with
  | nil => simp
  | cons k ks ih =>
    obtain ⟨hk, hnd'⟩ := List.nodup_cons.mp hnd
    have := ih hnd' (s.updateChip k (f s.cfg k))
    simp only [State.updateChip_cfg, State.updateChip_mix, State.updateChip_inputs, State.updateChip_out,
      State.updateChip_length] at this
    obtain ⟨h1, h2, h3, h4, h5, h6⟩ := this
    refine ⟨h1, h2, h3, h4, h5, fun j => ?_⟩
    rw [List.foldl_cons, h6, State.updateChip_chip]
    by_cases hjk : j = k
    · subst hjk
      by_cases hl : j < s.chips.length <;> simp [hk, hl]
    · simp [hjk]

/-- The rate phase: every chip's rate adapter, once, and nothing else. -/
theorem ratePhase_spec (s : State) :
    (ratePhase s).cfg = s.cfg ∧ (ratePhase s).mix = s.mix ∧ (ratePhase s).inputs = s.inputs ∧
      (ratePhase s).out = s.out ∧ (ratePhase s).chips.length = s.chips.length ∧
      ∀ j, (ratePhase s).chip j =
        if j < s.cfg.nchip ∧ j < s.chips.length then rateChip s.cfg j (s.chip j) else s.chip j := by
  simpa [ratePhase, List.mem_range] using foldl_updateChip rateChip (List.range s.cfg.nchip) List.nodup_range s

/-- FRAME in one equation: the mixed pair is returned, and the chips are those of the rate phase. -/
theorem execFrame_eq (s : State) :
    execFrame s = .next ((ratePhase (mixPhase s)).respond
      (some ⟨(mixPhase s).mix.frameL, (mixPhase s).mix.frameR⟩)) := by
  simp [execFrame, (ratePhase_spec (mixPhase s)).2.1]

end Sys2Proof.Machine
end

