-- ==== Sys2Proof/Laws/Memory.lean ====
section
/-! SUPPORT. The laws of sample memory: a read after a write, the canonical form kept by every operation, and that canonical
memories which read alike are the same data. -/

namespace Sys2Proof.Machine

@[simp] theorem Memory.read_nil (a : Nat) : Memory.read [] a = Memory.unlisted := rfl

theorem Memory.read_cons (b : Nat) (v : Byte) (m : Memory) (a : Nat) :
    Memory.read ((b, v) :: m) a = if b = a then v else Memory.read m a := rfl

/-- An address no entry names reads as the unlisted value. -/
theorem Memory.read_of_forall_ne (m : Memory) (a : Nat) (h : ∀ e ∈ m, e.1 ≠ a) : Memory.read m a = Memory.unlisted := by
  induction m with
  | nil => rfl
  | cons e m ih =>
    obtain ⟨b, v⟩ := e
    rw [Memory.read_cons, if_neg (h (b, v) (by simp)), ih fun e he => h e (by simp [he])]

/-- A read through `put`: the new byte at its address, given that the rest does not name it. -/
theorem Memory.read_put (a : Nat) (v : Byte) (m : Memory) (x : Nat) (h : ∀ e ∈ m, e.1 ≠ a) :
    Memory.read (Memory.put a v m) x = if x = a then v else Memory.read m x := by
  unfold Memory.put
  split
  next hv =>
    split
    next hx => rw [hx, Memory.read_of_forall_ne m a h, hv]
    next => rfl
  next =>
    rw [Memory.read_cons]
    by_cases hx : x = a
    · simp [hx]
    · rw [if_neg fun h' => hx h'.symm, if_neg hx]

/-- Read after write: the written byte at its address, every other byte as before. -/
theorem Memory.read_write (m : Memory) (hm : Memory.wf m) (a x : Nat) (v : Byte) :
    Memory.read (Memory.write m a v) x = if x = a then v else Memory.read m x := by
  obtain ⟨hs, hn⟩ := hm
  induction m with
  | nil => exact Memory.read_put a v [] x (by simp)
  | cons e m ih =>
    obtain ⟨b, y⟩ := e
    rw [List.pairwise_cons] at hs
    unfold Memory.write
    split
    next hab =>
      refine Memory.read_put a v _ x fun e he => ?_
      rcases List.mem_cons.mp he with rfl | he
      · exact Nat.ne_of_gt hab
      · exact Nat.ne_of_gt (Nat.lt_trans hab (hs.1 e he))
    next hab =>
      split
      next h =>
        subst h
        rw [Memory.read_put a v m x fun e he => Nat.ne_of_gt (hs.1 e he), Memory.read_cons]
        by_cases hx : x = a
        · simp [hx]
        · rw [if_neg hx, if_neg hx, if_neg fun h' => hx h'.symm]
      next hne =>
        rw [Memory.read_cons, Memory.read_cons, ih hs.2 fun e he => hn e (by simp [he])]
        by_cases hbx : b = x
        · have : x ≠ a := fun h => hne (by rw [← h, hbx])
          simp [hbx, this]
        · simp [hbx]

/-- Every entry of a written memory is an old entry or the new one. -/
theorem Memory.mem_write (m : Memory) (a : Nat) (v : Byte) (e : Host.Cell) (h : e ∈ Memory.write m a v) :
    e ∈ m ∨ e = (a, v) := by
  have hput : ∀ m' : Memory, e ∈ Memory.put a v m' → e ∈ m' ∨ e = (a, v) := by
    intro m' h'
    unfold Memory.put at h'
    split at h'
    · exact .inl h'
    · rcases List.mem_cons.mp h' with h' | h'
      · exact .inr h'
      · exact .inl h'
  induction m with
  | nil => exact hput [] h
  | cons c m ih =>
    obtain ⟨b, y⟩ := c
    unfold Memory.write at h
    split at h
    · exact hput _ h
    · split at h
      · exact (hput _ h).imp_left fun h' => by simp [h']
      · rcases List.mem_cons.mp h with rfl | h'
        · simp
        · exact (ih h').imp_left fun h'' => by simp [h'']

/-- `put` keeps the canonical form in front of a memory whose addresses all lie above. -/
theorem Memory.put_wf (a : Nat) (v : Byte) (m : Memory) (hm : Memory.wf m) (h : ∀ e ∈ m, a < e.1) :
    Memory.wf (Memory.put a v m) := by
  unfold Memory.put
  split
  next => exact hm
  next hv =>
    refine ⟨List.pairwise_cons.mpr ⟨h, hm.1⟩, fun e he => ?_⟩
    rcases List.mem_cons.mp he with rfl | he
    · exact hv
    · exact hm.2 e he

/-- A write keeps the canonical form. -/
theorem Memory.write_wf (m : Memory) (hm : Memory.wf m) (a : Nat) (v : Byte) : Memory.wf (Memory.write m a v) := by
  induction m with
  | nil => exact Memory.put_wf a v [] hm (by simp)
  | cons e m ih =>
    obtain ⟨b, y⟩ := e
    have hs := List.pairwise_cons.mp hm.1
    have htail : Memory.wf m := ⟨hs.2, fun e he => hm.2 e (by simp [he])⟩
    unfold Memory.write
    split
    next hab =>
      refine Memory.put_wf a v _ hm fun e he => ?_
      rcases List.mem_cons.mp he with rfl | he
      · exact hab
      · exact Nat.lt_trans hab (hs.1 e he)
    next hab =>
      split
      next h => exact Memory.put_wf a v m htail fun e he => h ▸ hs.1 e he
      next hne =>
        have hrest := ih htail
        refine ⟨List.pairwise_cons.mpr ⟨fun e he => ?_, hrest.1⟩, fun e he => ?_⟩
        · rcases Memory.mem_write m a v e he with h' | rfl
          · exact hs.1 e h'
          · exact Nat.lt_of_le_of_ne (Nat.le_of_not_lt hab) fun h' => hne h'.symm
        · rcases List.mem_cons.mp he with rfl | he
          · exact hm.2 _ (by simp)
          · exact hrest.2 e he

/-- A write below a bound keeps every address below it. -/
theorem Memory.write_bound (m : Memory) (n a : Nat) (v : Byte) (hm : ∀ e ∈ m, e.1 < n) (ha : a < n) :
    ∀ e ∈ Memory.write m a v, e.1 < n := by
  intro e he
  rcases Memory.mem_write m a v e he with h | rfl
  · exact hm e h
  · exact ha

/-- Canonical memories that read alike at every address are equal data. -/
theorem Memory.ext_of_read (m n : Memory) (hm : Memory.wf m) (hn : Memory.wf n)
    (h : ∀ a, Memory.read m a = Memory.read n a) : m = n := by
  have head_listed : ∀ (b : Nat) (v : Byte) (l : Memory), Memory.read ((b, v) :: l) b = v := fun b v l => by
    simp [Memory.read_cons]
  induction m generalizing n with
  | nil =>
    cases n with
    | nil => rfl
    | cons e n =>
      obtain ⟨b, v⟩ := e
      exact absurd ((h b).trans (head_listed b v n)).symm (hn.2 (b, v) (by simp))
  | cons e m ih =>
    obtain ⟨b, v⟩ := e
    have hsm := List.pairwise_cons.mp hm.1
    cases n with
    | nil => exact absurd ((head_listed b v m).symm.trans (h b)) (hm.2 (b, v) (by simp))
    | cons f n =>
      obtain ⟨c, w⟩ := f
      have hsn := List.pairwise_cons.mp hn.1
      have hbc : b = c := by
        rcases Nat.lt_trichotomy b c with hlt | heq | hgt
        · have hz := Memory.read_of_forall_ne ((c, w) :: n) b fun e he => by
            rcases List.mem_cons.mp he with rfl | he
            · exact Nat.ne_of_gt hlt
            · exact Nat.ne_of_gt (Nat.lt_trans hlt (hsn.1 e he))
          exact absurd ((head_listed b v m).symm.trans ((h b).trans hz)) (hm.2 (b, v) (by simp))
        · exact heq
        · have hz := Memory.read_of_forall_ne ((b, v) :: m) c fun e he => by
            rcases List.mem_cons.mp he with rfl | he
            · exact Nat.ne_of_gt hgt
            · exact Nat.ne_of_gt (Nat.lt_trans hgt (hsm.1 e he))
          exact absurd ((head_listed c w n).symm.trans ((h c).symm.trans hz)) (hn.2 (c, w) (by simp))
      subst hbc
      have hvw : v = w := (head_listed b v m).symm.trans ((h b).trans (head_listed b w n))
      subst hvw
      have := ih n ⟨hsm.2, fun e he => hm.2 e (by simp [he])⟩ ⟨hsn.2, fun e he => hn.2 e (by simp [he])⟩ fun a => by
        have ha := h a
        rw [Memory.read_cons, Memory.read_cons] at ha
        by_cases hba : b = a
        · subst hba
          rw [Memory.read_of_forall_ne m b fun e he => Nat.ne_of_gt (hsm.1 e he),
            Memory.read_of_forall_ne n b fun e he => Nat.ne_of_gt (hsn.1 e he)]
        · simpa [hba] using ha
      rw [this]

end Sys2Proof.Machine
end

