-- ==== Sys2Proof/Laws/Exec.lean ====
section
/-! SUPPORT. What one step and each shape of command can do, said once: later proofs cite these and do not unfold `step`. -/

namespace Sys2Proof.Machine

/-- A step answers a next state only by idling, by running a command, or by the reset input. -/
theorem step_cases {s t : State} (h : step s = .next t) :
    s.cfg.legal = true ∧
      ((s.inputs = [] ∧ t = s) ∨
       (∃ w rest, s.inputs = .command w :: rest ∧ exec (decode w) { s with inputs := rest } = .next t) ∨
       (∃ rest, s.inputs = .reset :: rest ∧ t = State.resetWith s.cfg rest)) := by
  unfold step at h
  split at h
  next hl =>
    refine ⟨hl, ?_⟩
    split at h
    next hi => exact .inl ⟨hi, (Host.Outcome.next.inj h).symm⟩
    next input rest hi =>
      cases input with
      | command w => exact .inr (.inl ⟨w, rest, hi, by simpa [ingest, State.dropInput, hi] using h⟩)
      | reset =>
        refine .inr (.inr ⟨rest, hi, ?_⟩)
        simpa [ingest, State.applyReset, State.dropInput, hi] using (Host.Outcome.next.inj h).symm
  next => exact absurd h (by simp)

/-- TICK of a chip that is there. -/
theorem execTick_present (k : BitVec 4) (s : State) (hk : k.toNat < s.cfg.nchip) (hl : k.toNat < s.chips.length) :
    execTick k s = .next ((s.updateChip k.toNat (tickChip s.cfg (s.cfg.chip k.toNat))).respond
      (some ⟨(tickChip s.cfg (s.cfg.chip k.toNat) (s.chip k.toNat)).lastL,
        (tickChip s.cfg (s.cfg.chip k.toNat) (s.chip k.toNat)).lastR⟩)) := by
  simp [execTick, hk, State.updateChip_chip_self, hl]

/-- TICK of a chip that is not there. -/
theorem execTick_absent (k : BitVec 4) (s : State) (hk : s.cfg.nchip ≤ k.toNat) :
    execTick k s = .next (s.respond (some ⟨0#32, 0#32⟩)) := by simp [execTick, Nat.not_lt.mpr hk]

/-- WMEM within the memory of a chip that is there. -/
theorem execWmem_stores (k : BitVec 4) (a : BitVec 32) (d : Byte) (s : State) (hk : k.toNat < s.cfg.nchip)
    (ha : a.toNat < (s.cfg.chip k.toNat).memSize) :
    execWmem k a d s = .next ((s.updateChip k.toNat fun x => { x with mem := Memory.write x.mem a.toNat d }).respond
      none) := by simp [execWmem, hk, ha]

/-- WMEM to a chip that is not there or outside its memory. -/
theorem execWmem_ignored (k : BitVec 4) (a : BitVec 32) (d : Byte) (s : State)
    (h : s.cfg.nchip ≤ k.toNat ∨ (s.cfg.chip k.toNat).memSize ≤ a.toNat) : execWmem k a d s = .next (s.respond none) := by
  unfold execWmem
  rcases h with h | h
  · simp [Nat.not_lt.mpr h]
  · simp [Nat.not_lt.mpr h]

/-- CHON's loop keeps everything of a chip but its channels. -/
theorem chonGroup_keeps (g : BitVec 4) (d : Byte) (cfg : Config) (cc : ChipConfig) (x : Chip) :
    (chonGroup g d cfg cc x).ch.length = x.ch.length ∧ (chonGroup g d cfg cc x).chipOn = x.chipOn ∧
      (chonGroup g d cfg cc x).bank = x.bank ∧ (chonGroup g d cfg cc x).mem = x.mem ∧
      (chonGroup g d cfg cc x).lastL = x.lastL ∧ (chonGroup g d cfg cc x).lastR = x.lastR ∧
      (chonGroup g d cfg cc x).racc = x.racc := by
  unfold chonGroup
  generalize List.range 8 = bits
  induction bits generalizing x with
  | nil => exact ⟨rfl, rfl, rfl, rfl, rfl, rfl, rfl⟩
  | cons i bits ih =>
    have hone : (chonBit cfg cc g d x i).ch.length = x.ch.length ∧ (chonBit cfg cc g d x i).chipOn = x.chipOn ∧
        (chonBit cfg cc g d x i).bank = x.bank ∧ (chonBit cfg cc g d x i).mem = x.mem ∧
        (chonBit cfg cc g d x i).lastL = x.lastL ∧ (chonBit cfg cc g d x i).lastR = x.lastR ∧
        (chonBit cfg cc g d x i).racc = x.racc := by
      unfold chonBit
      split <;> simp
    have := ih (chonBit cfg cc g d x i)
    simp only [List.foldl_cons, this, hone, and_self]

end Sys2Proof.Machine
end

