-- ==== Sys2Proof/Laws/PerInstr.lean ====
section
/-! SUPPORT. The family MatchesRow, one lemma per constructor: the encoder's word of a command has the fixed bits of the
command's row of spec/opcode_table.json. -/

namespace Sys2Proof.Laws.MatchesRow

/-- The word of `i` selects the row of `i`. -/
def Statement (i : Instr) : Prop := i.row.selects (encode i) = true

/-- A bit of a packed word, field by field. -/
theorem getLsbD_packWord (op chip : BitVec 4) (addr : BitVec 32) (data : Byte) (i : Nat) :
    (packWord op chip addr data).getLsbD i =
      if i < 8 then data.getLsbD i
      else if i - 8 < 32 then addr.getLsbD (i - 8)
      else if i - 8 - 32 < 4 then chip.getLsbD (i - 8 - 32) else op.getLsbD (i - 8 - 32 - 4) := by
  show (op ++ chip ++ addr ++ data).getLsbD i = _
  simp only [BitVec.getLsbD_append]

/-- A bit of a channel register's address. -/
theorem getLsbD_channelRegAddr (slot : BitVec 3) (func : BitVec 4) (i : Nat) :
    (channelRegAddr slot func).getLsbD i =
      if i < 4 then func.getLsbD i else if i - 4 < 3 then slot.getLsbD (i - 4) else (0b0#1).getLsbD (i - 4 - 3) := by
  show (0b0#1 ++ slot ++ func).getLsbD i = _
  simp only [BitVec.getLsbD_append]

/-- A bit of a CHON group's address. -/
theorem getLsbD_chonRegAddr (group : BitVec 4) (i : Nat) :
    (chonRegAddr group).getLsbD i = if i < 4 then group.getLsbD i else (0x9#4).getLsbD (i - 4) := by
  show (0x9#4 ++ group).getLsbD i = _
  simp only [BitVec.getLsbD_append]

/-- A packed word has the fixed bits of a row when each of its bits under the mask is the pattern's. -/
theorem selects_of_bits (op chip : BitVec 4) (addr : BitVec 32) (data : Byte) (r : OpcodeRow)
    (h : ∀ i < 48, ((packWord op chip addr data).getLsbD i && r.mask.getLsbD i) = r.pattern.getLsbD i) :
    r.selects (packWord op chip addr data) = true := by
  rw [OpcodeRow.selects, beq_iff_eq]
  apply BitVec.eq_of_getLsbD_eq
  intro i hi
  rw [BitVec.getLsbD_and, h i hi]

theorem nop : Statement .nop := by
  unfold Statement
  decide

theorem wregPosl (k : BitVec 4) (s : BitVec 3) (d : Byte) : Statement (.wregPosl k s d) := by
  refine selects_of_bits _ _ _ _ _ fun i hi => ?_
  show (_ && (0xF00000008F00#48).getLsbD i) = (0x100000000000#48).getLsbD i
  simp only [getLsbD_packWord, BitVec.getLsbD_setWidth, getLsbD_channelRegAddr]
  interval_cases i <;> simp

theorem wregPosh (k : BitVec 4) (s : BitVec 3) (d : Byte) : Statement (.wregPosh k s d) := by
  refine selects_of_bits _ _ _ _ _ fun i hi => ?_
  show (_ && (0xF00000008F00#48).getLsbD i) = (0x100000000100#48).getLsbD i
  simp only [getLsbD_packWord, BitVec.getLsbD_setWidth, getLsbD_channelRegAddr]
  interval_cases i <;> simp

theorem wregStepl (k : BitVec 4) (s : BitVec 3) (d : Byte) : Statement (.wregStepl k s d) := by
  refine selects_of_bits _ _ _ _ _ fun i hi => ?_
  show (_ && (0xF00000008F00#48).getLsbD i) = (0x100000000200#48).getLsbD i
  simp only [getLsbD_packWord, BitVec.getLsbD_setWidth, getLsbD_channelRegAddr]
  interval_cases i <;> simp

theorem wregSteph (k : BitVec 4) (s : BitVec 3) (d : Byte) : Statement (.wregSteph k s d) := by
  refine selects_of_bits _ _ _ _ _ fun i hi => ?_
  show (_ && (0xF00000008F00#48).getLsbD i) = (0x100000000300#48).getLsbD i
  simp only [getLsbD_packWord, BitVec.getLsbD_setWidth, getLsbD_channelRegAddr]
  interval_cases i <;> simp

theorem wregLoopl (k : BitVec 4) (s : BitVec 3) (d : Byte) : Statement (.wregLoopl k s d) := by
  refine selects_of_bits _ _ _ _ _ fun i hi => ?_
  show (_ && (0xF00000008F00#48).getLsbD i) = (0x100000000400#48).getLsbD i
  simp only [getLsbD_packWord, BitVec.getLsbD_setWidth, getLsbD_channelRegAddr]
  interval_cases i <;> simp

theorem wregLooph (k : BitVec 4) (s : BitVec 3) (d : Byte) : Statement (.wregLooph k s d) := by
  refine selects_of_bits _ _ _ _ _ fun i hi => ?_
  show (_ && (0xF00000008F00#48).getLsbD i) = (0x100000000500#48).getLsbD i
  simp only [getLsbD_packWord, BitVec.getLsbD_setWidth, getLsbD_channelRegAddr]
  interval_cases i <;> simp

theorem wregStart (k : BitVec 4) (s : BitVec 3) (d : Byte) : Statement (.wregStart k s d) := by
  refine selects_of_bits _ _ _ _ _ fun i hi => ?_
  show (_ && (0xF00000008F00#48).getLsbD i) = (0x100000000600#48).getLsbD i
  simp only [getLsbD_packWord, BitVec.getLsbD_setWidth, getLsbD_channelRegAddr]
  interval_cases i <;> simp

theorem wregVol (k : BitVec 4) (s : BitVec 3) (d : Byte) : Statement (.wregVol k s d) := by
  refine selects_of_bits _ _ _ _ _ fun i hi => ?_
  show (_ && (0xF00000008F00#48).getLsbD i) = (0x100000000700#48).getLsbD i
  simp only [getLsbD_packWord, BitVec.getLsbD_setWidth, getLsbD_channelRegAddr]
  interval_cases i <;> simp

theorem wregPan (k : BitVec 4) (s : BitVec 3) (d : Byte) : Statement (.wregPan k s d) := by
  refine selects_of_bits _ _ _ _ _ fun i hi => ?_
  show (_ && (0xF00000008F00#48).getLsbD i) = (0x100000000800#48).getLsbD i
  simp only [getLsbD_packWord, BitVec.getLsbD_setWidth, getLsbD_channelRegAddr]
  interval_cases i <;> simp

theorem wregTrig (k : BitVec 4) (s : BitVec 3) : Statement (.wregTrig k s) := by
  refine selects_of_bits _ _ _ _ _ fun i hi => ?_
  show (_ && (0xF00000008F00#48).getLsbD i) = (0x100000000900#48).getLsbD i
  simp only [getLsbD_packWord, BitVec.getLsbD_setWidth, getLsbD_channelRegAddr]
  interval_cases i <;> simp

theorem wregRsvdChA (k : BitVec 4) (s : BitVec 3) : Statement (.wregRsvdChA k s) := by
  refine selects_of_bits _ _ _ _ _ fun i hi => ?_
  show (_ && (0xF00000008E00#48).getLsbD i) = (0x100000000A00#48).getLsbD i
  simp only [getLsbD_packWord, BitVec.getLsbD_setWidth, getLsbD_channelRegAddr]
  interval_cases i <;> simp

theorem wregRsvdChC (k : BitVec 4) (s : BitVec 3) : Statement (.wregRsvdChC k s) := by
  refine selects_of_bits _ _ _ _ _ fun i hi => ?_
  show (_ && (0xF00000008C00#48).getLsbD i) = (0x100000000C00#48).getLsbD i
  simp only [getLsbD_packWord, BitVec.getLsbD_setWidth, getLsbD_channelRegAddr]
  interval_cases i <;> simp

theorem wregGctrl (k : BitVec 4) (e : Bool) (b : BitVec 4) : Statement (.wregGctrl k e b) := by
  refine selects_of_bits _ _ _ _ _ fun i hi => ?_
  show (_ && (0xF0000000FF00#48).getLsbD i) = (0x100000008000#48).getLsbD i
  simp only [getLsbD_packWord]
  interval_cases i <;> simp

theorem wregChon (k g : BitVec 4) (d : Byte) : Statement (.wregChon k g d) := by
  refine selects_of_bits _ _ _ _ _ fun i hi => ?_
  show (_ && (0xF0000000F000#48).getLsbD i) = (0x100000009000#48).getLsbD i
  simp only [getLsbD_packWord, BitVec.getLsbD_setWidth, getLsbD_chonRegAddr]
  interval_cases i <;> simp

theorem wregRsvdG81 (k : BitVec 4) : Statement (.wregRsvdG81 k) := by
  refine selects_of_bits _ _ _ _ _ fun i hi => ?_
  show (_ && (0xF0000000FF00#48).getLsbD i) = (0x100000008100#48).getLsbD i
  simp only [getLsbD_packWord]
  interval_cases i <;> simp

theorem wregRsvdG82 (k : BitVec 4) : Statement (.wregRsvdG82 k) := by
  refine selects_of_bits _ _ _ _ _ fun i hi => ?_
  show (_ && (0xF0000000FE00#48).getLsbD i) = (0x100000008200#48).getLsbD i
  simp only [getLsbD_packWord]
  interval_cases i <;> simp

theorem wregRsvdG84 (k : BitVec 4) : Statement (.wregRsvdG84 k) := by
  refine selects_of_bits _ _ _ _ _ fun i hi => ?_
  show (_ && (0xF0000000FC00#48).getLsbD i) = (0x100000008400#48).getLsbD i
  simp only [getLsbD_packWord]
  interval_cases i <;> simp

theorem wregRsvdG88 (k : BitVec 4) : Statement (.wregRsvdG88 k) := by
  refine selects_of_bits _ _ _ _ _ fun i hi => ?_
  show (_ && (0xF0000000F800#48).getLsbD i) = (0x100000008800#48).getLsbD i
  simp only [getLsbD_packWord]
  interval_cases i <;> simp

theorem wregRsvdGA0 (k : BitVec 4) : Statement (.wregRsvdGA0 k) := by
  refine selects_of_bits _ _ _ _ _ fun i hi => ?_
  show (_ && (0xF0000000E000#48).getLsbD i) = (0x10000000A000#48).getLsbD i
  simp only [getLsbD_packWord]
  interval_cases i <;> simp

theorem wregRsvdGC0 (k : BitVec 4) : Statement (.wregRsvdGC0 k) := by
  refine selects_of_bits _ _ _ _ _ fun i hi => ?_
  show (_ && (0xF0000000C000#48).getLsbD i) = (0x10000000C000#48).getLsbD i
  simp only [getLsbD_packWord]
  interval_cases i <;> simp

theorem wmem (k : BitVec 4) (a : BitVec 32) (d : Byte) : Statement (.wmem k a d) := by
  refine selects_of_bits _ _ _ _ _ fun i hi => ?_
  show (_ && (0xF00000000000#48).getLsbD i) = (0x200000000000#48).getLsbD i
  simp only [getLsbD_packWord]
  interval_cases i <;> simp

theorem tick (k : BitVec 4) : Statement (.tick k) := by
  refine selects_of_bits _ _ _ _ _ fun i hi => ?_
  show (_ && (0xF00000000000#48).getLsbD i) = (0x300000000000#48).getLsbD i
  simp only [getLsbD_packWord]
  interval_cases i <;> simp

theorem frame : Statement .frame := by
  unfold Statement
  decide

theorem wmixGvoll (d : Byte) : Statement (.wmixGvoll d) := by
  refine selects_of_bits _ _ _ _ _ fun i hi => ?_
  show (_ && (0xF00000000100#48).getLsbD i) = (0x500000000000#48).getLsbD i
  simp only [getLsbD_packWord]
  interval_cases i <;> simp

theorem wmixGvolh (d : Byte) : Statement (.wmixGvolh d) := by
  refine selects_of_bits _ _ _ _ _ fun i hi => ?_
  show (_ && (0xF00000000100#48).getLsbD i) = (0x500000000100#48).getLsbD i
  simp only [getLsbD_packWord]
  interval_cases i <;> simp

theorem rsvd6 : Statement .rsvd6 := by
  unfold Statement
  decide

theorem rsvd8 : Statement .rsvd8 := by
  unfold Statement
  decide

end Sys2Proof.Laws.MatchesRow
end

