-- ==== Sys2Proof/Tests/Slice0.lean ====
section
/-! SUPPORT. The model's own tests: ill-formed terms each check refuses; words written out from the encodings of
spec/30_encoding.md and spec/opcode_table.json for every constructor; single steps from the vectors of
spec/95_test_vectors.md (each test names its row); lines of assembler text; and a witness for the hypotheses of every statement
that has hypotheses. -/

namespace Sys2Proof.Machine

/-! ## Small states -/

/-- A channel "at unit step, full volume, center", armed, as the vectors of spec/95_test_vectors.md set one up. -/
def voice : Channel where
  pos := 0
  step := 0x0800#16
  loop := 0#16
  start := 0#8
  vol := 0xFF#8
  pan := 0xFF#8
  en := true
  cnt := 0#8

/-- The reference machine with chip 0 on, holding `mem`, its channel 0 being `ch`. -/
def playing (mem : Memory) (ch : Channel) : State :=
  { State.reset with chips :=
      [{ Chip.reset 16 with ch := ch :: List.replicate 15 Channel.reset, chipOn := true, mem := mem }, Chip.reset 16] }

/-- The same machine with chip 0's parameters replaced. -/
def playingOn (cc : ChipConfig) (mem : Memory) (ch : Channel) : State :=
  { playing mem ch with cfg := { Config.reference with chips := [cc, ChipConfig.reference] } }

/-- The variant of spec/95_test_vectors.md P4: COUNTDOWN stepping and SIGNMAG samples. -/
def countdownSignmag : ChipConfig := { ChipConfig.reference with stepMode := .countdown, coding := .signmag }

/-- The state after one step that runs the word `w`, if it is a next state. -/
def after (w : Nat) (s : State) : Option State :=
  match step (s.withFetchWord 48 w) with
  | .next t => some t
  | .fault _ => none
  | .refused _ => none

/-- The output pair after one step that runs the word `w`, as integers. -/
def pairAfter (w : Nat) (s : State) : Option (Int × Int) :=
  (after w s).bind fun t => t.out.map fun p => (p.l.toInt, p.r.toInt)

/-- A channel of chip 0 after one step that runs the word `w`. -/
def channelAfter (w : Nat) (s : State) (c : Nat) : Option Channel := (after w s).map fun t => t.channel 0 c

/-- A channel after one channel step with chip parameters `cc`, and its contribution. -/
def stepped (cc : ChipConfig) (mem : Memory) (ch : Channel) : Channel × Int × Int :=
  advance cc mem ch

/-! ## WellFormed (00_scope.md R7, 30_encoding.md R123, R124): each check refuses its ill-formed term -/

/-- A configuration of one chip with the given parameters. -/
def withChip (cc : ChipConfig) : Config := { Config.reference with chips := [cc] }

theorem test_legal_reference : Config.reference.legal = true := by decide
theorem test_illegal_step_map :
    (withChip { ChipConfig.reference with stepMap := [(0x10000, 1)] }).legal = false ∧
    (withChip { ChipConfig.reference with stepMap := [(1, 0x100000000)] }).legal = false := by decide
theorem test_illegal_vol_lut :
    (withChip { ChipConfig.reference with volLut := [(256, 1)] }).legal = false ∧
    (withChip { ChipConfig.reference with volLut := [(1, 257)] }).legal = false := by decide
theorem test_illegal_out_shift_and_gain :
    (withChip { ChipConfig.reference with outShift := 17 }).legal = false ∧
    (withChip { ChipConfig.reference with chipGain := 0x10000 }).legal = false := by decide
theorem test_illegal_clock_and_divisor :
    (withChip { ChipConfig.reference with clock := 0x100000000 }).legal = false ∧
    (withChip { ChipConfig.reference with divisor := 0 }).legal = false ∧
    (withChip { ChipConfig.reference with divisor := 0x10000 }).legal = false := by decide
theorem test_illegal_counts :
    { Config.reference with chips := [] }.legal = false ∧
    { Config.reference with chips := List.replicate 17 ChipConfig.reference }.legal = false ∧
    { Config.reference with nch := 0 }.legal = false ∧ { Config.reference with nch := 129 }.legal = false := by decide
theorem test_illegal_formats_and_rate :
    (withChip { ChipConfig.reference with addrBits := 7 }).legal = false ∧
    (withChip { ChipConfig.reference with addrBits := 25 }).legal = false ∧
    (withChip { ChipConfig.reference with frac := 17 }).legal = false ∧ { Config.reference with outRate := 0 }.legal = false ∧
    { Config.reference with outRate := 0x100000 }.legal = false := by decide
theorem test_legal_extremes :
    { nch := 128, outRate := 0xFFFFF,
      chips := List.replicate 16 { ChipConfig.reference with
        addrBits := 24, frac := 16, outShift := 16, chipGain := 0xFFFF, clock := 0xFFFFFFFF, divisor := 0xFFFF } : Config }.legal = true ∧
    { nch := 1, outRate := 1,
      chips := [{ ChipConfig.reference with
        addrBits := 8, frac := 0, outShift := 0, chipGain := 0, clock := 0, divisor := 1 }] : Config }.legal = true := by decide
-- R3: two chips of one CORE, each with its own fixed-point format.
def ownFormats : State :=
  { playing [] { voice with start := 0x12#8 } with
    cfg := { Config.reference with chips := [ChipConfig.reference, { ChipConfig.reference with addrBits := 12, frac := 4 }] }
    chips := List.replicate 2 { Chip.reset 16 with ch := List.replicate 16 { voice with start := 0x12#8 } } }
theorem test_legal_own_formats : ownFormats.cfg.legal = true := by decide
-- By hand from R150 and R83: (0x12 << 19) mod 2^27 on chip 0, (0x12 << 12) mod 2^16 on chip 1; 0x1000 is past chip 1's bytes.
theorem test_own_formats :
    (after 0x100000000900 ownFormats).map (fun t => (t.channel 0 0).pos) = some 0x0900000 ∧
    (after 0x110000000900 ownFormats).map (fun t => (t.channel 1 0).pos) = some 0x2000 ∧
    (after 0x200000100055 ownFormats).map (fun t => (t.chip 0).mem) = some [(0x1000, 0x55#8)] ∧
    (after 0x210000100055 ownFormats).map (fun t => (t.chip 1).mem) = some [] := by decide
theorem test_ill_formed_lines :
    (AsmLine.wregFunc 0 .vol 8 0).wf = false ∧ (AsmLine.wregChon 0 16 0).wf = false ∧
    (Pseudo.setstep 0 8 0).wf = false ∧ (Pseudo.setloop 0 8 0).wf = false ∧ (Pseudo.setpos 0 8 0).wf = false ∧
    (Pseudo.keyon 0 8).wf = false := by decide
theorem test_well_formed_lines :
    (AsmLine.wregFunc 0 .vol 7 0).wf = true ∧ (AsmLine.wregChon 0 15 0).wf = true ∧ (Pseudo.keyon 0 7).wf = true := by
  decide

/-! ## Decoding: words written out from the encodings -/

-- 0000 and 44 ignored bits.
theorem test_decode_nop : decode 0x0FFFFFFFFFFF#48 = .nop := by decide
-- 0001 cccc x*24 0sss ffff dddddddd, with ADDR[31:8] all ones in some.
theorem test_decode_wregPosl : decode 0x100000002034#48 = .wregPosl 0#4 2#3 0x34#8 := by decide
theorem test_decode_wregPosh : decode 0x1A0000007101#48 = .wregPosh 0xA#4 7#3 0x01#8 := by decide
theorem test_decode_wregStepl : decode 0x1000000002FF#48 = .wregStepl 0#4 0#3 0xFF#8 := by decide
theorem test_decode_wregSteph : decode 0x100000001308#48 = .wregSteph 0#4 1#3 0x08#8 := by decide
theorem test_decode_wregLoopl : decode 0x110000001410#48 = .wregLoopl 1#4 1#3 0x10#8 := by decide
theorem test_decode_wregLooph : decode 0x100000003502#48 = .wregLooph 0#4 3#3 0x02#8 := by decide
theorem test_decode_wregStart : decode 0x100000004612#48 = .wregStart 0#4 4#3 0x12#8 := by decide
theorem test_decode_wregVol : decode 0x10FFFFFF0733#48 = .wregVol 0#4 0#3 0x33#8 := by decide
theorem test_decode_wregPan : decode 0x1F000000683F#48 = .wregPan 0xF#4 6#3 0x3F#8 := by decide
theorem test_decode_wregTrig : decode 0x10000000095A#48 = .wregTrig 0#4 0#3 := by decide
theorem test_decode_wregRsvdChA :
    decode 0x100000000A55#48 = .wregRsvdChA 0#4 0#3 ∧ decode 0x100000007B00#48 = .wregRsvdChA 0#4 7#3 := by decide
theorem test_decode_wregRsvdChC :
    decode 0x100000000C00#48 = .wregRsvdChC 0#4 0#3 ∧ decode 0x120000007FFF#48 = .wregRsvdChC 2#4 7#3 := by decide
-- 1000 0000 exxx bbbb.
theorem test_decode_wregGctrl :
    decode 0x1000000080F0#48 = .wregGctrl 0#4 true 0#4 ∧ decode 0x10000000807A#48 = .wregGctrl 0#4 false 0xA#4 := by
  decide
-- 1001 gggg dddddddd.
theorem test_decode_wregChon :
    decode 0x100000009180#48 = .wregChon 0#4 1#4 0x80#8 ∧ decode 0x130000009F01#48 = .wregChon 3#4 0xF#4 0x01#8 := by
  decide
theorem test_decode_wregRsvdG81 : decode 0x1100000081FF#48 = .wregRsvdG81 1#4 := by decide
theorem test_decode_wregRsvdG82 :
    decode 0x1000000082FF#48 = .wregRsvdG82 0#4 ∧ decode 0x100000008300#48 = .wregRsvdG82 0#4 := by decide
theorem test_decode_wregRsvdG84 :
    decode 0x100000008400#48 = .wregRsvdG84 0#4 ∧ decode 0x1000000087FF#48 = .wregRsvdG84 0#4 := by decide
theorem test_decode_wregRsvdG88 :
    decode 0x100000008800#48 = .wregRsvdG88 0#4 ∧ decode 0x100000008FFF#48 = .wregRsvdG88 0#4 := by decide
theorem test_decode_wregRsvdGA0 :
    decode 0x10000000A0FF#48 = .wregRsvdGA0 0#4 ∧ decode 0x10000000BF00#48 = .wregRsvdGA0 0#4 := by decide
theorem test_decode_wregRsvdGC0 :
    decode 0x10000000C000#48 = .wregRsvdGC0 0#4 ∧ decode 0x1F000000FFFF#48 = .wregRsvdGC0 0xF#4 := by decide
-- 0010 cccc a*32 dddddddd.
theorem test_decode_wmem : decode 0x21800000045A#48 = .wmem 1#4 0x80000004#32 0x5A#8 := by decide
theorem test_decode_tick : decode 0x32DEADBEEF99#48 = .tick 2#4 := by decide
theorem test_decode_frame : decode 0x4F12345678AB#48 = .frame := by decide
-- 0101 x*39 A0 dddddddd.
theorem test_decode_wmixGvoll : decode 0x500000000080#48 = .wmixGvoll 0x80#8 := by decide
theorem test_decode_wmixGvolh : decode 0x5F0000000340#48 = .wmixGvolh 0x40#8 := by decide
theorem test_decode_rsvd6 : decode 0x600000000000#48 = .rsvd6 ∧ decode 0x7100000080FF#48 = .rsvd6 := by decide
theorem test_decode_rsvd8 : decode 0x800000000000#48 = .rsvd8 ∧ decode 0xFFFFFFFFFFFF#48 = .rsvd8 := by decide
-- 30_encoding.md R121: no longer command exists.
theorem test_decode_too_long : decodeTableWord 56 0x01000000000000 = none ∧
    decodeTableWord 48 0x300000000000 = some (.tick 0#4) := by decide

/-! ## The model's own fields at reset (assumption logs 1, 3, 5) -/

theorem test_reset_model_fields : State.reset.cfg = Config.reference ∧ State.reset.inputs = [] ∧
    State.reset.out = none := by decide

/-! ## Register writes (95_test_vectors.md V-WREG) -/

-- W1.
theorem test_posl : (channelAfter 0x100000000034 (playing [] { voice with pos := 0x12345F7 }) 0).map Channel.pos =
    some 0x121A000 := by decide
-- W3, second word: byte 0xFF00 before.
theorem test_posl_top : (channelAfter 0x1000000000FF (playing [] { voice with pos := 0x7F80000 }) 0).map Channel.pos =
    some 0x7FFF800 := by decide
-- W2.
theorem test_posh : (channelAfter 0x100000000101 (playing [] { voice with pos := 0x121A000 }) 0).map Channel.pos =
    some 0x009A000 := by decide
-- W5, W4.
theorem test_stepl : (channelAfter 0x100000000234 (playing [] voice) 0).map Channel.step = some 0x0834#16 := by decide
theorem test_steph : (channelAfter 0x100000000308 State.reset 0).map Channel.step = some 0x0800#16 := by decide
-- W6.
theorem test_loopl : channelAfter 0x100000001410 State.reset 1 = some { Channel.reset with loop := 0x0010#16 } := by
  decide
theorem test_looph : (channelAfter 0x100000000502 (playing [] { voice with loop := 0x0010#16 }) 0).map Channel.loop =
    some 0x0210#16 := by decide
-- W7, W8, W9.
theorem test_start : channelAfter 0x100000000612 State.reset 0 = some { Channel.reset with start := 0x12#8 } := by
  decide
theorem test_pan : (channelAfter 0x10000000083F State.reset 0).map (fun ch => (panLeft ch.pan, panRight ch.pan)) =
    some (15, 3) := by decide
-- W10, W11.
theorem test_trig : channelAfter 0x100000000900 (playing [] { voice with start := 0x12#8, en := false }) 0 =
    some { voice with start := 0x12#8, pos := 0x0900000 } := by decide
theorem test_trig_data_ignored :
    channelAfter 0x10000000095A (playing [] { voice with step := 0xFFFF#16, en := false }) 0 =
      some { voice with step := 0xFFFF#16, cnt := 0xFF#8 } := by decide
-- W13, W14.
theorem test_gctrl : (after 0x100000008081 State.reset).map (fun t => ((t.chip 0).chipOn, (t.chip 0).bank)) =
    some (true, 1#4) := by decide
theorem test_gctrl_reserved_bits :
    (after 0x1000000080F0 State.reset).map (fun t => ((t.chip 0).chipOn, (t.chip 0).bank)) = some (true, 0#4) := by
  decide

/-- State.reset with chip 0's bank set. -/
def banked (bank : BitVec 4) : State :=
  { State.reset with chips := [{ Chip.reset 16 with bank := bank }, Chip.reset 16] }

-- W15; W16 and W17 (the channel index wraps modulo NCH).
theorem test_vol_bank : (after 0x100000000755 (banked 1#4)).map (fun t => ((t.channel 0 8).vol, (t.channel 0 0).vol)) =
    some (0x55#8, 0#8) := by decide
theorem test_vol_bank_wraps :
    (after 0x100000001766 (banked 2#4)).map (fun t => (t.channel 0 1).vol) = some 0x66#8 ∧
    (after 0x100000002777 (banked 0xF#4)).map (fun t => (t.channel 0 10).vol) = some 0x77#8 := by decide

/-- W18's state: channel 0 and channel 1 enabled away from their start pages. -/
def chonState : State :=
  { State.reset with chips := [{ Chip.reset 16 with
      ch := { voice with pos := 0x0000800 } :: { voice with start := 0x02#8, pos := 0x0100800, step := 0x0803#16 } ::
        List.replicate 14 Channel.reset }, Chip.reset 16] }

-- W18; W19 and W21 (not redirected by the bank) and W20 (no such channels).
theorem test_chon : (after 0x100000009001 chonState).map (fun t => (t.channel 0 0, t.channel 0 1)) =
    some ({ voice with pos := 0x0000800 },
      { voice with start := 0x02#8, pos := 0x0100000, step := 0x0803#16, en := false, cnt := 0x03#8 }) := by decide
theorem test_chon_bank_and_absent :
    (after 0x100000009002 (banked 1#4)).map (fun t => ((t.channel 0 1).en, (t.channel 0 9).en)) = some (true, false) ∧
    (after 0x100000009180 State.reset).map (fun t => ((t.channel 0 15).en, (t.channel 0 7).en)) = some (true, false) ∧
    after 0x1000000092FF chonState = some chonState := by decide
-- W22, W23.
theorem test_reserved_registers :
    after 0x100000000A55 chonState = some chonState ∧ after 0x100000000F55 chonState = some chonState ∧
    after 0x1000000081FF chonState = some chonState ∧ after 0x1000000083FF chonState = some chonState ∧
    after 0x1000000085FF chonState = some chonState ∧ after 0x1000000089FF chonState = some chonState ∧
    after 0x10000000A0FF chonState = some chonState ∧ after 0x10000000FFFF chonState = some chonState := by decide
-- W24: chip 2 does not exist.
theorem test_absent_chip : after 0x1200000007FF chonState = some chonState := by decide

/-! ## Memory writes (V-WMEM) -/

-- M1, M4, and the canonical form: storing 0x00 removes the entry.
theorem test_wmem :
    (after 0x200000FFFF5A State.reset).map (fun t => (t.chip 0).mem) = some [(0xFFFF, 0x5A#8)] ∧
    (after 0x2100000004FF State.reset).map (fun t => ((t.chip 0).mem, (t.chip 1).mem)) = some ([], [(4, 0xFF#8)]) ∧
    (after 0x200000000400 (playing [(3, 1#8), (4, 2#8)] voice)).map (fun t => (t.chip 0).mem) = some [(3, 1#8)] := by
  decide
-- M2, M3, M5: ignored.
theorem test_wmem_ignored :
    after 0x200001000012 chonState = some chonState ∧ after 0x20FFFFFFFF12 chonState = some chonState ∧
    after 0x220000000012 chonState = some chonState := by decide

/-! ## Generate (V-TICK) -/

-- T15, T3, T13.
theorem test_tick : pairAfter 0x300000000000 (playing [(0, 0x90#8)] { voice with pan := 0x0F#8 }) = some (3690, 0) ∧
    pairAfter 0x300000000000 (playing [(0, 0xFF#8), (0x10, 0x90#8)] { voice with loop := 0x0010#16 }) =
      some (3690, 3690) ∧
    after 0x320000000000 chonState = some { chonState with out := some ⟨0#32, 0#32⟩ } := by decide
-- T2: a chip that is off does not advance its channels. T11: sixteen channels.
theorem test_tick_off_and_sum :
    after 0x300000000000 chonState = some { chonState with out := some ⟨0#32, 0#32⟩ } ∧
    pairAfter 0x300000000000 { State.reset with chips := [{ Chip.reset 16 with
      ch := List.replicate 16 { voice with step := 0#16 }, chipOn := true }, Chip.reset 16] } =
        some (-472320, -472320) := by decide
-- T4: a double sentinel. T5: the position wraps through 0. T7, T8: the fraction.
theorem test_advance_accum :
    stepped .reference [(0, 0xFF#8), (0x10, 0xFF#8)] { voice with loop := 0x0010#16 } =
      ({ voice with loop := 0x0010#16, pos := 0x0008000, en := false }, 0, 0) ∧
    stepped .reference [(0xFFFF, 0x90#8)] { voice with pos := 0x7FFF800 } = (voice, 3690, 3690) ∧
    stepped .reference [(0, 0x90#8)] { voice with step := 0xFFFF#16 } =
      ({ voice with step := 0xFFFF#16, pos := 0x000FFFF }, 3690, 3690) ∧
    stepped .reference [(1, 0xC0#8)] { voice with step := 0x0400#16, pos := 0x0000800 } =
      ({ voice with step := 0x0400#16, pos := 0x0000C00 }, 14760, 14760) := by decide
-- T16, T17, T18 and P4's first tick: COUNTDOWN mode, SIGNMAG samples.
theorem test_advance_countdown :
    (stepped countdownSignmag [(0, 0x90#8)] { voice with step := 0x0300#16 }).1 =
      { voice with step := 0x0300#16, pos := 0x0000800 } ∧
    (stepped countdownSignmag [(0, 0x90#8)] { voice with step := 0x0002#16, cnt := 2#8 }).1 =
      { voice with step := 0x0002#16, cnt := 1#8 } ∧
    (stepped countdownSignmag [(0, 0xFF#8), (0x10, 0x90#8)]
      { voice with step := 0x0001#16, cnt := 1#8, loop := 0x0010#16 }).1 =
        { voice with step := 0x0001#16, cnt := 0#8, loop := 0x0010#16, pos := 0x0008000 } ∧
    (stepped countdownSignmag [(0, 0x05#8)] { voice with pan := 0xF8#8, cnt := 1#8 }).2 = (615, 1153) := by decide
-- The decode table, BIAS column.
theorem test_output_bias :
    (output .reference voice 0x80#8).1 = 0 ∧ (output .reference voice 0x7F#8).1 = -231 ∧
    (output .reference voice 0x81#8).1 = 230 ∧ (output .reference voice 0x00#8).1 = -29520 ∧
    (output .reference voice 0xFE#8).1 = 29058 ∧
    (output .reference { voice with vol := 1#8, pan := 0x11#8 } 0x7F#8) = (-2, -2) := by decide
-- The decode table, SIGNMAG column, and P4's negative byte.
theorem test_output_signmag :
    (output countdownSignmag voice 0x80#8).1 = 0 ∧ (output countdownSignmag voice 0x7F#8).1 = 29289 ∧
    (output countdownSignmag voice 0x81#8).1 = -230 ∧ (output countdownSignmag voice 0xFE#8).1 = -29058 ∧
    (output countdownSignmag { voice with vol := 1#8, pan := 0x11#8 } 0x81#8) = (-1, -1) ∧
    (output countdownSignmag { voice with pan := 0xF8#8 } 0x85#8) = (-615, -1153) := by decide

/-! ## Frames (V-FRAME) -/

/-- The reference machine with both chips on, with these last pairs and this global volume. -/
def mixState (l0 l1 : Int) (gvol : BitVec 16) : State :=
  { State.reset with
    chips := [{ Chip.reset 16 with chipOn := true, lastL := BitVec.ofInt 32 l0, lastR := BitVec.ofInt 32 l0 },
      { Chip.reset 16 with chipOn := true, lastL := BitVec.ofInt 32 l1, lastR := BitVec.ofInt 32 l1 }]
    mix := { Mixer.reset with gvol := gvol } }

-- F2 and F1's second frame; F4; F6.
theorem test_frame :
    (after 0x400000000000 State.reset).map (fun t => ((t.chip 0).racc, (t.chip 1).racc)) =
      some (12500000, 12500000) ∧
    (rateChip Config.reference 0 { Chip.reset 16 with racc := 12500000 }).racc = 8065600 ∧
    pairAfter 0x400000000000 (mixState 3690 3690 0x0100#16) = some (7380, 7380) ∧
    pairAfter 0x400000000000 (mixState (-2) 0 0x0040#16) = some (-1, -1) := by decide
-- F5: a chip that is off is not mixed. F7: the clamp.
theorem test_frame_off_and_clamp :
    pairAfter 0x400000000000 { State.reset with chips :=
      [{ Chip.reset 16 with lastL := 3690#32, lastR := 3690#32 }, Chip.reset 16] } = some (0, 0) ∧
    pairAfter 0x400000000000 { mixState (-472320) 0 0xFFFF#16 with cfg := { Config.reference with
      chips := [{ ChipConfig.reference with chipGain := 0xFFFF }, ChipConfig.reference] } } =
        some (-2147483648, -2147483648) := by decide

/-! ## The mixer registers, NOP and RSVD (V-WMIX) -/

-- X1, X2, X3.
theorem test_wmix_gvoll : (after 0x500000000080 State.reset).map (fun t => t.mix.gvol) = some 0x0180#16 := by decide
theorem test_wmix_gvolh : (after 0x500000000102 State.reset).map (fun t => t.mix.gvol) = some 0x0200#16 ∧
    (after 0x5F0000000340 State.reset).map (fun t => t.mix.gvol) = some 0x4000#16 := by decide
-- X5, X6.
theorem test_nop : after 0x000000000000 chonState = some chonState ∧ after 0x0FFFFFFFFFFF chonState = some chonState := by
  decide
theorem test_rsvd : after 0x600000000000 chonState = some chonState ∧ after 0x710000008081 chonState = some chonState ∧
    after 0xFFFFFFFFFFFF chonState = some chonState := by decide

/-- Rows 0x0_, 0x1_ and 0xF_ of the table of 42_generate.md R222. -/
theorem test_volume_table :
    (List.range 16).map (volumeGain .reference) = [0, 23, 42, 59, 73, 85, 96, 105, 113, 121, 128, 134, 139, 144, 149, 153] ∧
    (List.range 16).map (fun i => volumeGain .reference (0x10 + i)) =
      [157, 161, 164, 167, 170, 173, 176, 178, 180, 182, 184, 186, 188, 190, 192, 193] ∧
    (List.range 16).map (fun i => volumeGain .reference (0xF0 + i)) =
      [245, 245, 245, 245, 245, 245, 246, 246, 246, 246, 246, 246, 246, 246, 246, 246] := by decide
-- A listed exception replaces the reference law.
theorem test_exceptions : volumeGain { ChipConfig.reference with volLut := [(255, 240)] } 255 = 240 ∧
    stepIncrement { ChipConfig.reference with stepMap := [(2, 0x1000)] } 2 = 0x1000 ∧
    stepIncrement { ChipConfig.reference with stepMap := [(2, 0x1000)] } 3 = 3 := by decide

/-! ## The assembler (30_encoding.md R123, R124; the lines and words of 95_test_vectors.md P1, P2) -/

theorem test_assemble_lines :
    assembleLine "WMEM 0, 0x0004, 0xFF        ; sentinel".toList = some [0x2000000004FF#48] ∧
    assembleLine "WREG 0, GCTRL, 0x81".toList = some [0x100000008081#48] ∧
    assembleLine "WREG 0, STEPH@1, 0x04".toList = some [0x100000001304#48] ∧
    assembleLine "WREG 0, TRIG@1".toList = some [0x100000001900#48] ∧
    assembleLine "WREG 1, CHON1, 128".toList = some [0x110000009180#48] ∧
    assembleLine "WREG 0, 0x81, 0xFF".toList = some [0x1000000081FF#48] := by decide
theorem test_assemble_operations :
    assembleLine "TICK 1".toList = some [0x310000000000#48] ∧
    assembleLine "FRAME".toList = some [0x400000000000#48] ∧ assembleLine "NOP".toList = some [0#48] ∧
    assembleLine "WMIX GVOLL, 0x80".toList = some [0x500000000080#48] ∧
    assembleLine "WMIX GVOLH, 0x02".toList = some [0x500000000102#48] := by decide
theorem test_assemble_pseudo :
    assembleLine "SETSTEP 0, 0, 0x0834".toList = some [0x100000000234#48, 0x100000000308#48] ∧
    assembleLine "CHIPON 0, 1".toList = some [0x100000008081#48] ∧
    assembleLine "SETGVOL 0x0200".toList = some [0x500000000000#48, 0x500000000102#48] ∧
    assembleLine "LOADMEM 0, 0x100, 0x81, 0xFF".toList = some [0x200000010081#48, 0x2000000101FF#48] := by decide
theorem test_assemble_refused :
    assembleLine "WREG 0, VOL@8, 0".toList = none ∧ assembleLine "WREG 0, CHON16, 0".toList = none ∧
    assembleLine "KEYON 0, 8".toList = none ∧ assembleLine "HALT".toList = none := by decide

/-! ## Witnesses: concrete states and operands that meet every hypothesis of a statement, at the ends of its ranges -/

/-- The state after the command `i`, if it is a next state. -/
def ran (i : Instr) (s : State) : Option State :=
  match exec i s with
  | .next t => some t
  | .fault _ => none
  | .refused _ => none

/-- Chip 0 plays byte 0x90 at address 0. -/
def w90 : State := playing [(0, 0x90#8)] voice
/-- Chip 0 has met a sentinel at address 0 and loops to byte 0x90 at 0x10. -/
def wReload : State := playing [(0, 0xFF#8), (0x10, 0x90#8)] { voice with loop := 0x0010#16 }
/-- Chip 0 has met a sentinel at address 0xFFFF, the last, and loops to another at 0. -/
def wDouble : State := playing [(0, 0xFF#8), (0xFFFF, 0xFF#8)] { voice with pos := 0x7FFFFFF }
/-- COUNTDOWN and SIGNMAG on chip 0, playing 0x85 with the counter at its largest. -/
def wCountdown : State := playingOn countdownSignmag [(0, 0x85#8)] { voice with cnt := 0xFF#8 }
/-- The last bank, from which slots wrap modulo NCH. -/
def wBank : State := { State.reset with chips := [Chip.reset 16, { Chip.reset 16 with bank := 0xF#4, chipOn := true }] }
/-- `s` with the next inputs. -/
def feed (s : State) (inputs : List HostInput) : State := { s with inputs := inputs }

theorem witness_EveryWordIsOneRowAndNoneTraps :
    6 ≤ (wordOp 0x600000000000#48).toNat ∧ 6 ≤ (wordOp 0xFFFFFFFFFFFF#48).toNat ∧
    (wordOp 0x0FFFFFFFFFFF#48).toNat = 0 ∧ (decode 0x600000000000#48).row ∈ opcodeRows ∧
    (decode 0x600000000000#48).row.selects 0x600000000000#48 = true := by decide
theorem witness_AssemblerWordsDecode :
    decode (asmWord (.wregFunc 1 .trig 7 0)) = .wregTrig 1#4 7#3 ∧ decode (asmWord (.wregFunc 0 .posl 0 0x1FF)) =
      .wregPosl 0#4 0#3 0xFF#8 ∧ decode (asmWord (.wregChon 15 15 1)) = .wregChon 0xF#4 0xF#4 1#8 ∧
    decode (asmWord (.wregChon 0 0 1)) = .wregChon 0#4 0#4 1#8 := by decide
theorem witness_PseudoInstructionsExpand :
    (pseudoWords (.setpos 0 7 0xABCD)).map decode = [.wregPosl 0#4 7#3 0xCD#8, .wregPosh 0#4 7#3 0xAB#8] ∧
    (pseudoWords (.keyon 0 0)).map decode = [.wregTrig 0#4 0#3] := by decide
theorem witness_StepRunsPresentedCommand :
    (feed w90 [.command 0x300000000000#48, .reset]).cfg.legal = true ∧
    (feed w90 [.command 0x300000000000#48, .reset]).inputs = .command (encode (.tick 0#4)) :: [.reset] := by decide
theorem witness_StepIdlesOrRefuses :
    State.reset.cfg.legal = true ∧ State.reset.inputs = [] ∧
    ({ State.reset with cfg := { Config.reference with chips := [] } } : State).cfg.legal = false := by decide
theorem witness_ResetInputRestoresResetValues :
    (feed w90 [.reset]).cfg.legal = true ∧ (feed w90 [.reset]).inputs = .reset :: [] := by decide
theorem witness_StepKeepsInvariant :
    ∃ t, (feed w90 [.command 0x300000000000#48]).Inv ∧ step (feed w90 [.command 0x300000000000#48]) = .next t :=
  ⟨_, by decide, rfl⟩
theorem witness_ResetMeetsInvariants : Config.reference.legal = true := by decide
theorem witness_CountdownPositionsStayWholeBytes :
    ∃ t, (feed wCountdown [.command 0x300000000000#48]).Inv ∧
      (feed wCountdown [.command 0x300000000000#48]).WholeBytes ∧
      step (feed wCountdown [.command 0x300000000000#48]) = .next t :=
  ⟨_, by decide, by decide, rfl⟩
theorem witness_EveryCommandCompletes : w90.cfg.legal = true := by decide
theorem witness_ConfigurationNeverChanges : ∃ t, step (feed w90 [.command 0x400000000000#48]) = .next t := ⟨_, rfl⟩
theorem witness_CommandsToAbsentChipsChangeNothing :
    (w90.cfg.nchip ≤ (wordChip 0x120000000755#48).toNat ∧ wordOp 0x120000000755#48 = 0x1#4) ∧
    (w90.cfg.nchip ≤ (wordChip 0x2F0000000012#48).toNat ∧ wordOp 0x2F0000000012#48 = 0x2#4) ∧
    (w90.cfg.nchip ≤ (wordChip 0x320000000000#48).toNat ∧ wordOp 0x320000000000#48 = 0x3#4) ∧
    (wordOp 0x5F0000000340#48 ≠ 0x1#4 ∧ wordOp 0x5F0000000340#48 ≠ 0x2#4 ∧ wordOp 0x5F0000000340#48 ≠ 0x3#4 ∧
      wordOp 0x500000000340#48 = wordOp 0x5F0000000340#48 ∧ wordAddr 0x500000000340#48 = wordAddr 0x5F0000000340#48 ∧
      wordData 0x500000000340#48 = wordData 0x5F0000000340#48) := by decide
theorem witness_RegisterWritesChangeOnlyTheirTarget :
    (wordOp 0x100000000055#48 = 0x1#4 ∧ (wordRegAddr 0x100000000055#48).getLsbD 7 = false) ∧
    (wordOp 0x100000007F55#48 = 0x1#4 ∧ (wordRegAddr 0x100000007F55#48).getLsbD 7 = false) ∧
    (wordOp 0x100000008081#48 = 0x1#4 ∧ wordRegAddr 0x100000008081#48 = 0x80#8) ∧
    (wordOp 0x100000009001#48 = 0x1#4 ∧ (wordRegAddr 0x100000009001#48).extractLsb' 4 4 = 0x9#4) ∧
    (wordOp 0x100000009FFF#48 = 0x1#4 ∧ (wordRegAddr 0x100000009FFF#48).extractLsb' 4 4 = 0x9#4) ∧
    ((wordRegAddr 0x100000008155#48).getLsbD 7 = true ∧ wordRegAddr 0x100000008155#48 ≠ 0x80#8 ∧
      (wordRegAddr 0x100000008155#48).extractLsb' 4 4 ≠ 0x9#4) ∧
    ((wordRegAddr 0x10000000FF55#48).getLsbD 7 = true ∧ wordRegAddr 0x10000000FF55#48 ≠ 0x80#8 ∧
      (wordRegAddr 0x10000000FF55#48).extractLsb' 4 4 ≠ 0x9#4) ∧
    w90.cfg.nchip ≤ (wordChip 0x120000000755#48).toNat := by decide
theorem witness_PoslReplacesLowAddressByte :
    wordOp 0x10000000703F#48 = 0x1#4 ∧ (wordRegAddr 0x10000000703F#48).getLsbD 7 = false ∧
    regFunc (wordRegAddr 0x10000000703F#48) = 0x0#4 ∧
    wBank.Inv ∧ (1#4).toNat < wBank.cfg.nchip ∧ 15 = wBank.target 1 7#3 := by decide
theorem witness_PoshReplacesHighAddressByte :
    wordOp 0x10000000713F#48 = 0x1#4 ∧ (wordRegAddr 0x10000000713F#48).getLsbD 7 = false ∧
    regFunc (wordRegAddr 0x10000000713F#48) = 0x1#4 ∧
    wBank.Inv ∧ (1#4).toNat < wBank.cfg.nchip ∧ 15 = wBank.target 1 7#3 := by decide
theorem witness_StepBytesAreWrittenSeparately :
    (wordOp 0x10000000023F#48 = 0x1#4 ∧ (wordRegAddr 0x10000000023F#48).getLsbD 7 = false ∧
      regFunc (wordRegAddr 0x10000000023F#48) = 0x2#4) ∧
    regFunc (wordRegAddr 0x10000000733F#48) = 0x3#4 ∧
    w90.Inv ∧ (0#4).toNat < w90.cfg.nchip ∧ 0 = w90.target 0 0#3 := by decide
theorem witness_LoopBytesAreWrittenSeparately :
    (wordOp 0x10000000043F#48 = 0x1#4 ∧ (wordRegAddr 0x10000000043F#48).getLsbD 7 = false ∧
      regFunc (wordRegAddr 0x10000000043F#48) = 0x4#4) ∧
    regFunc (wordRegAddr 0x10000000753F#48) = 0x5#4 ∧
    w90.Inv ∧ (0#4).toNat < w90.cfg.nchip ∧ 7 = w90.target 0 7#3 := by decide
theorem witness_ByteRegistersAreReplaced :
    (wordOp 0x10000000063F#48 = 0x1#4 ∧ (wordRegAddr 0x10000000063F#48).getLsbD 7 = false ∧
      regFunc (wordRegAddr 0x10000000063F#48) = 0x6#4) ∧
    regFunc (wordRegAddr 0x10000000773F#48) = 0x7#4 ∧ regFunc (wordRegAddr 0x10000000783F#48) = 0x8#4 ∧
    wBank.Inv ∧ (1#4).toNat < wBank.cfg.nchip ∧ 8 = wBank.target 1 0#3 := by decide
theorem witness_TrigArmsTheChannel :
    (wordOp 0x10000000795A#48 = 0x1#4 ∧ (wordRegAddr 0x10000000795A#48).getLsbD 7 = false ∧
      regFunc (wordRegAddr 0x10000000795A#48) = 0x9#4) ∧
    w90.Inv ∧ (0#4).toNat < w90.cfg.nchip ∧ 0 = w90.target 0 0#3 := by decide
theorem witness_GctrlWritesEnableAndBank :
    wordOp 0x1000000080F0#48 = 0x1#4 ∧ wordRegAddr 0x1000000080F0#48 = 0x80#8 ∧
    w90.Inv ∧ (1#4).toNat < w90.cfg.nchip := by decide
theorem witness_ChonEnablesAndDisablesItsGroup :
    (wordOp 0x100000009001#48 = 0x1#4 ∧ (wordRegAddr 0x100000009001#48).toNat / 16 = 9) ∧
    (wordRegAddr 0x100000009F01#48).toNat / 16 = 9 ∧
    w90.Inv ∧ (0#4).toNat < w90.cfg.nchip ∧ (0 < w90.cfg.nch ∧ 0 / 8 = (0#4).toNat) ∧
    (15 < w90.cfg.nch ∧ 15 / 8 = (1#4).toNat) := by decide
theorem witness_ReservedRegistersAreIgnored :
    (Instr.rsvd8).isReserved = true ∧ (Instr.wregRsvdChA 0#4 7#3).isReserved = true ∧
    (wordOp 0x100000000A00#48 = 0x1#4 ∧ (wordRegAddr 0x100000000A00#48).toNat < 0x80 ∧
      0xA ≤ (wordRegAddr 0x100000000A00#48).toNat % 16) ∧
    (wordRegAddr 0x100000008100#48).toNat = 0x81 ∧ (wordRegAddr 0x100000008F00#48).toNat = 0x8F ∧
    0xA0 ≤ (wordRegAddr 0x10000000A000#48).toNat ∧
    ((wordData 0x1000000080F5#48).toNat / 2 ^ 7 = (wordData 0x100000008085#48).toNat / 2 ^ 7 ∧
      (wordData 0x1000000080F5#48).toNat % 2 ^ 4 = (wordData 0x100000008085#48).toNat % 2 ^ 4) := by decide
theorem witness_WmemStoresOneByteOrNothing :
    wordOp 0x200000FFFF5A#48 = 0x2#4 ∧ w90.Inv ∧ (0#4).toNat < w90.cfg.nchip ∧
    (0x0000FFFF#32).toNat < 2 ^ (w90.cfg.chip 0).addrBits ∧ 2 ^ (w90.cfg.chip 0).addrBits ≤ (0x00010000#32).toNat ∧
    (w90.channel 0 0).pos / 2 ^ (w90.cfg.chip 0).frac = (0#32).toNat := by decide
theorem witness_WmemIsIdempotentAndCanonical :
    ∃ t u t' u', w90.Inv ∧ (0#4 ≠ 1#4 ∨ (5#32 : BitVec 32) ≠ 5#32) ∧ exec (.wmem 0#4 5#32 1#8) w90 = .next t ∧
      exec (.wmem 1#4 5#32 0#8) t = .next u ∧ exec (.wmem 1#4 5#32 0#8) w90 = .next t' ∧
      exec (.wmem 0#4 5#32 1#8) t' = .next u' :=
  ⟨_, _, _, _, by decide, by decide, rfl, rfl, rfl, rfl⟩
theorem witness_ByteAddressesWrapModuloMemSize :
    0x7FFFFFF < 2 ^ (ChipConfig.reference.addrBits + ChipConfig.reference.frac) ∧
    byteAddress .reference 0x7FFFFFF = ChipConfig.reference.memSize - 1 ∧
    voice.pos < 2 ^ (ChipConfig.reference.addrBits + ChipConfig.reference.frac) := by decide
theorem witness_IdleChipGeneratesSilence :
    w90.Inv ∧ (1#4).toNat < w90.cfg.nchip ∧ (w90.chip 1).chipOn = false := by decide
theorem witness_TickStepsEveryChannelAndSums :
    w90.Inv ∧ (0#4).toNat < w90.cfg.nchip ∧ (w90.chip 0).chipOn = true := by decide
theorem witness_ChipSumsNeverOverflow :
    w90.Inv ∧ (0#4).toNat < w90.cfg.nchip ∧ (w90.chip 0).chipOn = true ∧ w90.cfg.chip 0 = ChipConfig.reference ∧
    w90.cfg.nch = 16 := by decide
theorem witness_DisabledChannelsAreNotMutated :
    w90.Inv ∧ (w90.channel 0 15).en = false ∧ (w90.channel 0 1).en = false ∧ (Instr.tick 0#4).ticks 0 ∧
    Instr.frame.ticks 0 :=
  ⟨by decide, by decide, by decide, .inl ⟨0#4, rfl, rfl⟩, .inr rfl⟩
theorem witness_SentinelReloadsFromTheLoopAddress :
    wReload.Inv ∧ wReload.Playing 0 0 ∧
    wReload.readByte 0 ((wReload.channel 0 0).pos / 2 ^ (wReload.cfg.chip 0).frac) = (wReload.cfg.chip 0).sentinel ∧
    wReload.readByte 0 ((wReload.channel 0 0).loop.toNat % (wReload.cfg.chip 0).memSize) ≠ (wReload.cfg.chip 0).sentinel := by
  decide
theorem witness_DoubleSentinelSilencesForGood :
    wDouble.Inv ∧ wDouble.Playing 0 0 ∧
    wDouble.readByte 0 ((wDouble.channel 0 0).pos / 2 ^ (wDouble.cfg.chip 0).frac) = (wDouble.cfg.chip 0).sentinel ∧
    wDouble.readByte 0 ((wDouble.channel 0 0).loop.toNat % (wDouble.cfg.chip 0).memSize) = (wDouble.cfg.chip 0).sentinel := by
  decide
theorem witness_DoubleSentinelSilencesForGood_later :
    ∃ v, wReload.Inv ∧ (wReload.channel 0 3).en = false ∧ exec .frame wReload = .next v ∧ Instr.frame.ticks 0 ∧
      (∀ slot, Instr.frame ≠ .wregTrig 0#4 slot) ∧ ∀ g d, Instr.frame ≠ .wregChon 0#4 g d :=
  ⟨_, by decide, by decide, rfl, .inr rfl, fun _ => nofun, fun _ _ => nofun⟩
theorem witness_AccumModeAddsTheStep :
    w90.Inv ∧ w90.Playing 0 0 ∧ (w90.cfg.chip 0).stepMode = .accum ∧
    w90.readByte 0 ((w90.channel 0 0).pos / 2 ^ (w90.cfg.chip 0).frac) ≠ (w90.cfg.chip 0).sentinel := by decide
theorem witness_CountdownPlaysEachByteRatePlusOneTicks :
    wCountdown.Inv ∧ wCountdown.Playing 0 0 ∧ (wCountdown.cfg.chip 0).stepMode = .countdown ∧
    wCountdown.readByte 0 ((wCountdown.channel 0 0).pos / 2 ^ (wCountdown.cfg.chip 0).frac) ≠ (wCountdown.cfg.chip 0).sentinel ∧
    0 ≤ (wCountdown.channel 0 0).cnt.toNat ∧ 255 ≤ (wCountdown.channel 0 0).cnt.toNat := by decide
theorem witness_BiasOutputRoundsTowardMinusInfinity :
    wReload.Inv ∧ wReload.Playing 0 0 ∧ (∀ e < wReload.cfg.nch, e ≠ 0 → (wReload.channel 0 e).en = false) ∧
    (wReload.cfg.chip 0).coding = .bias ∧ wReload.playedByte 0 0 = some 0x90#8 := by decide
theorem witness_SignmagOutputNegatesAfterTheShift :
    wCountdown.Inv ∧ wCountdown.Playing 0 0 ∧
    (∀ e < wCountdown.cfg.nch, e ≠ 0 → (wCountdown.channel 0 e).en = false) ∧
    (wCountdown.cfg.chip 0).coding = .signmag ∧ wCountdown.playedByte 0 0 = some 0x85#8 := by decide
theorem witness_ReferenceVolumeLawAndStepMap : (0 : Nat) < 256 ∧ (255 : Nat) < 256 := by decide
theorem witness_TickIsIndependentOfChannelOrder :
    (w90.chip 0).ch.length = w90.cfg.nch ∧ (List.range w90.cfg.nch).reverse.Perm (List.range w90.cfg.nch) :=
  ⟨by decide, List.reverse_perm _⟩
/-- `w90` with another channel playing too. -/
def wOther : State := w90.updateChip 0 fun x => x.updateChannel 1 Channel.enable
theorem witness_ChannelsDoNotAffectEachOther :
    w90.Inv ∧ wOther.Inv ∧ wOther.cfg = w90.cfg ∧ (0#4).toNat < w90.cfg.nchip ∧
    (wOther.chip 0).chipOn = (w90.chip 0).chipOn ∧ (∀ a, wOther.readByte 0 a = w90.readByte 0 a) ∧
    wOther.channel 0 0 = w90.channel 0 0 ∧ wOther.channel 0 1 ≠ w90.channel 0 1 :=
  ⟨by decide, by decide, rfl, by decide, rfl, fun _ => rfl, rfl, by decide⟩
theorem witness_UnloadedMemoryNeverStopsAChannel :
    (playing [] voice).Inv ∧ (playing [] voice).Playing 0 0 ∧
    (playing [] voice).cfg.chip 0 = ChipConfig.reference ∧ ∀ a, (playing [] voice).readByte 0 a = 0x00#8 :=
  ⟨by decide, by decide, rfl, fun _ => rfl⟩
/-- Both chips on with the largest and the smallest pair of a reference chip. -/
def wMix : State := { State.reset with
    chips := List.replicate 2
      { Chip.reset 16 with chipOn := true, lastL := 0x00073500#32, lastR := 0xFFF8CB00#32 } }
theorem witness_FrameMixesTheLastPairs :
    wMix.Inv ∧ wMix.cfg.nchip = 2 ∧
    (∀ k < 2, (wMix.cfg.chip k).chipGain = 0x0100 ∧
      |(wMix.chip k).lastL.toInt| ≤ 472320 ∧
      |(wMix.chip k).lastR.toInt| ≤ 472320) ∧
    wMix.mix.gvol.toNat ≤ 0x0100 := by
  have h : ∀ k < 2, (wMix.cfg.chip k).chipGain = 0x0100 ∧
      (-472320 ≤ (wMix.chip k).lastL.toInt ∧
        (wMix.chip k).lastL.toInt ≤ 472320) ∧
      (-472320 ≤ (wMix.chip k).lastR.toInt ∧
        (wMix.chip k).lastR.toInt ≤ 472320) := by decide
  exact ⟨by decide, by decide, fun k hk => ⟨(h k hk).1, abs_le.mpr (h k hk).2.1, abs_le.mpr (h k hk).2.2⟩, by decide⟩
theorem witness_RatePhaseRunsTheOwedTicks :
    w90.Inv ∧ (1#4).toNat < w90.cfg.nchip ∧ w90.chips.length = w90.cfg.nchip := by decide
/-- The variant of S4: native rate equal to output rate. -/
def wUnity : State := playingOn { ChipConfig.reference with clock := 16934400 } [(0, 0x90#8)] voice
theorem witness_RateAdapterHasZeroDrift :
    wUnity.Inv ∧ (0#4).toNat < wUnity.cfg.nchip ∧ (wUnity.chip 0).racc = 0 ∧
    (wUnity.cfg.chip 0).clock = wUnity.cfg.outRate * (wUnity.cfg.chip 0).divisor ∧ wUnity.cfg.legal = true ∧
    ∀ w ∈ [0x400000000000#48, 0x4FFFFFFFFFFF#48], wordOp w = 0x4#4 :=
  ⟨by decide, by decide, by decide, rfl, by decide,
    List.forall_mem_cons.mpr ⟨by decide, List.forall_mem_cons.mpr ⟨by decide, List.forall_mem_nil _⟩⟩⟩
theorem witness_SilenceAfterReset : Config.reference.legal = true ∧ (1 : Nat) < Config.reference.nchip := by decide
theorem witness_VoiceWritesAreNotHeardInTheNextFrame :
    (Instr.wmem 0#4 0#32 0xC0#8).writesVoices = true ∧ (Instr.wregTrig 0#4 0#3).writesVoices = true := by decide
theorem witness_WmixReplacesOneByteOfGvol :
    (wordOp 0x5F0000000280#48 = 0x5#4 ∧ (wordAddr 0x5F0000000280#48).toNat % 2 = 0) ∧
    (wordOp 0x5F0000000340#48 = 0x5#4 ∧ (wordAddr 0x5F0000000340#48).toNat % 2 = 1) := by decide
theorem witness_NopAndReservedOperationsDoNothing :
    (wordOp 0x0FFFFFFFFFFF#48).toNat = 0 ∧ 6 ≤ (wordOp 0x600000000000#48).toNat ∧
    6 ≤ (wordOp 0xFFFFFFFFFFFF#48).toNat := by decide
theorem witness_ChipAndMixerFieldsHaveTheirWriters :
    w90.Inv ∧ (ran (.wregGctrl 1#4 true 3#4) w90).map (fun t => ((t.chip 1).chipOn, (t.chip 1).bank)) = some (true, 3#4) ∧
    ((w90.chip 1).chipOn, (w90.chip 1).bank) = (false, 0#4) ∧
    (ran (.wmem 0#4 0#32 1#8) w90).map (fun t => t.readByte 0 0) = some 1#8 ∧ w90.readByte 0 0 = 0x90#8 ∧
    (ran (.tick 0#4) w90).map (fun t => (t.chip 0).lastL) = some 3690#32 ∧ (w90.chip 0).lastL = 0#32 := by decide
theorem witness_ChipAndMixerFieldsHaveTheirWriters_mixer :
    (mixState 7 0 0x0100#16).Inv ∧ (ran .frame w90).map (fun t => (t.chip 0).racc) = some 12500000 ∧
    (ran (.wmixGvoll 1#8) w90).map (fun t => t.mix.gvol) = some 0x0101#16 ∧
    (ran .frame (mixState 7 0 0x0100#16)).map (fun t => t.mix.frameL) = some 7#32 ∧
    ((w90.chip 0).racc, w90.mix.gvol, (mixState 7 0 0x0100#16).mix.frameL) = (0, 0x0100#16, 0#32) := by decide
theorem witness_ChannelRegistersHaveTheirWriters :
    (ran (.wregStepl 0#4 0#3 1#8) w90).map (fun t => decide ((t.channel 0 0).step ≠ (w90.channel 0 0).step)) = some true ∧
    (ran (.wregLooph 0#4 0#3 1#8) w90).map (fun t => decide ((t.channel 0 0).loop ≠ (w90.channel 0 0).loop)) = some true ∧
    (ran (.wregStart 0#4 0#3 1#8) w90).map (fun t => decide ((t.channel 0 0).start ≠ (w90.channel 0 0).start)) =
      some true ∧
    (ran (.wregVol 0#4 0#3 1#8) w90).map (fun t => decide ((t.channel 0 0).vol ≠ (w90.channel 0 0).vol)) = some true ∧
    (ran (.wregPan 0#4 0#3 1#8) w90).map (fun t => decide ((t.channel 0 0).pan ≠ (w90.channel 0 0).pan)) = some true := by
  decide
theorem witness_EnablePositionAndCounterHaveTheirWriters :
    (w90.channel 0 15).en = false ∧ (ran (.wregChon 0#4 1#4 0x80#8) w90).map (fun t => (t.channel 0 15).en) = some true ∧
    (w90.channel 0 0).en = true ∧ (ran (.wregChon 0#4 0#4 0xFE#8) w90).map (fun t => (t.channel 0 0).en) = some false ∧
    (ran (.tick 0#4) w90).map (fun t => decide ((t.channel 0 0).pos ≠ (w90.channel 0 0).pos)) = some true ∧
    (ran (.tick 0#4) wCountdown).map (fun t => decide ((t.channel 0 0).cnt ≠ (wCountdown.channel 0 0).cnt)) =
      some true := by decide
theorem witness_OnlyWregVolChangesAGain : ∀ k slot d, Instr.tick 0#4 ≠ .wregVol k slot d := fun _ _ _ h => by cases h
theorem witness_OnlyTickAndFrameReturnPairs :
    w90.Inv ∧ (1#4).toNat < w90.cfg.nchip ∧ w90.cfg.nchip ≤ (2#4).toNat ∧
    (∀ k, Instr.nop ≠ .tick k) ∧ Instr.nop ≠ .frame :=
  ⟨by decide, by decide, by decide, fun _ => nofun, nofun⟩
theorem witness_ChipInstancesShareNoState :
    w90.Inv ∧ State.reset.Inv ∧ State.reset.cfg = w90.cfg ∧ State.reset.chip 1 = w90.chip 1 ∧
    State.reset.chip 0 ≠ w90.chip 0 := by decide
theorem witness_ConfigurationExpressesEveryMap :
    (∀ v < 2 ^ 16, (fun v : Nat => v / 2) v < 2 ^ 32) ∧ ∀ v < 2 ^ 8, (fun v : Nat => 255 - v) v ≤ 256 :=
  ⟨fun v h => by dsimp only; omega, fun v h => by dsimp only; omega⟩

end Sys2Proof.Machine
end

