-- ==== Sys2Proof/Proofs/Scope.lean ====
section
/-! PROOFS. The scope (spec/00_scope.md R7): what a step does with nothing presented and outside the legal ranges, and that a
finite list of exceptions expresses every total function of the ranges of STEP_MAP and VOL_LUT. -/

namespace Sys2Proof.Machine

/-! ## Steps that run no input -/

theorem step_of_inputs_nil (s : State) (hlegal : s.cfg.legal = true) (hinputs : s.inputs = []) : step s = .next s := by
  rw [step, if_pos hlegal, hinputs]

theorem step_of_illegal (s : State) (hillegal : s.cfg.legal = false) : step s = .refused .illegalConfig := by
  rw [step, if_neg (by simp [hillegal])]

/-- Settles O8: the two branches of `step` that run no input. -/
theorem stepIdlesOrRefuses : Obligations.StepIdlesOrRefuses :=
  ⟨step_of_inputs_nil, step_of_illegal⟩

/-! ## A total function as a list of exceptions -/

/-- The list of exceptions that gives `f` at each of `0 .. n - 1`, whatever the base law. -/
def tabulate (f : Nat → Nat) (n : Nat) : List (Nat × Nat) := (List.range n).map fun v => (v, f v)

theorem lookupMap_map_of_mem (f base : Nat → Nat) (xs : List Nat) (x : Nat) (hx : x ∈ xs) :
    lookupMap (xs.map fun v => (v, f v)) base x = f x := by
  induction xs with
  | nil => cases hx
  | cons a xs ih =>
    rw [List.map_cons, lookupMap]
    split
    next hax => rw [hax]
    next hax => exact ih (List.mem_of_ne_of_mem (Ne.symm hax) hx)

theorem lookupMap_tabulate (f base : Nat → Nat) (n x : Nat) (hx : x < n) : lookupMap (tabulate f n) base x = f x :=
  lookupMap_map_of_mem f base _ x (List.mem_range.mpr hx)

theorem stepIncrement_tabulate (cc : ChipConfig) (f : Nat → Nat) (n v : Nat) (hv : v < n) :
    stepIncrement { cc with stepMap := tabulate f n } v = f v :=
  lookupMap_tabulate f _ n v hv

theorem volumeGain_tabulate (cc : ChipConfig) (f : Nat → Nat) (n v : Nat) (hv : v < n) :
    volumeGain { cc with volLut := tabulate f n } v = f v :=
  lookupMap_tabulate f _ n v hv

/-- A table's entries have the properties that its argument and value have throughout the range. -/
theorem all_tabulate (f : Nat → Nat) (n : Nat) (p : Nat × Nat → Bool) (h : ∀ v < n, p (v, f v) = true) :
    (tabulate f n).all p = true := by
  simpa [tabulate] using h

/-- Whether a chip is legal with the step map `f` does not depend on `f`, as long as `f`'s values are 32-bit. -/
theorem legal_tabulate_stepMap (cc : ChipConfig) (f : Nat → Nat) (hf : ∀ v < 2 ^ 16, f v < 2 ^ 32) :
    { cc with stepMap := tabulate f (2 ^ 16) }.legal = { cc with stepMap := [] }.legal := by
  have hentries := all_tabulate f (2 ^ 16) (fun e => decide (e.1 < 2 ^ 16) && decide (e.2 < 2 ^ 32))
    fun v hv => by rw [decide_eq_true hv, decide_eq_true (hf v hv), Bool.and_self]
  simp only [ChipConfig.legal, hentries, List.all_nil]

/-- Whether a chip is legal with the volume table `f` does not depend on `f`, as long as `f`'s gains are at most 256. -/
theorem legal_tabulate_volLut (cc : ChipConfig) (f : Nat → Nat) (hf : ∀ v < 2 ^ 8, f v ≤ 256) :
    { cc with volLut := tabulate f (2 ^ 8) }.legal = { cc with volLut := [] }.legal := by
  have hentries := all_tabulate f (2 ^ 8) (fun e => decide (e.1 < 2 ^ 8) && decide (e.2 ≤ 256))
    fun v hv => by rw [decide_eq_true hv, decide_eq_true (hf v hv), Bool.and_self]
  simp only [ChipConfig.legal, hentries, List.all_nil]

/-- Settles O56: the table of the function over its whole range, which leaves nothing to the reference law. -/
theorem configurationExpressesEveryMap : Obligations.ConfigurationExpressesEveryMap :=
  ⟨fun f hf => ⟨tabulate f (2 ^ 16), fun cc => ⟨legal_tabulate_stepMap cc f hf, stepIncrement_tabulate cc f _⟩⟩,
   fun f hf => ⟨tabulate f (2 ^ 8), fun cc => ⟨legal_tabulate_volLut cc f hf, volumeGain_tabulate cc f _⟩⟩⟩

end Sys2Proof.Machine
end

