-- ==== Sys2Proof/Proofs/State.lean ====
section
/-! PROOFS. The state (spec/10_state.md): what any command can do to each field, said once (`exec_transaction`), and from it
the statements about the invariant, the writers of the fields, the pairs presented, the configuration and reset. -/

namespace Sys2Proof.Machine

/-! ## The commands in families -/

/-- A channel after the register write a function name stands for (R141 to R150). -/
def funcEffect (func : ChannelFunc) (d : Byte) (cc : ChipConfig) (ch : Channel) : Channel :=
  match func with
  | .posl => { ch with pos := positionOf cc (setAddressLow (byteAddress cc ch.pos) d) }
  | .posh => { ch with pos := positionOf cc (setAddressHigh (byteAddress cc ch.pos) d % 2 ^ cc.addrBits) }
  | .stepl => { ch with step := setLowByte ch.step d }
  | .steph => { ch with step := setHighByte ch.step d }
  | .loopl => { ch with loop := setLowByte ch.loop d }
  | .looph => { ch with loop := setHighByte ch.loop d }
  | .start => { ch with start := d }
  | .vol => { ch with vol := d }
  | .pan => { ch with pan := d }
  | .trig => ch.arm cc

theorem exec_funcInstr (func : ChannelFunc) (k : BitVec 4) (slot : BitVec 3) (d : Byte) (s : State) :
    exec (funcInstr func k slot d) s = .next (writeChannel k slot (funcEffect func d) s) := by
  cases func <;> rfl

/-- Case analysis of a command by family: the ten channel register writes as one, and the commands without effect as one. -/
theorem Instr.families {motive : Instr → Prop}
    (channel : ∀ func k slot d, motive (funcInstr func k slot d))
    (quiet : ∀ i : Instr, i = .nop ∨ i.isReserved = true → motive i)
    (gctrl : ∀ k on bank, motive (.wregGctrl k on bank)) (chon : ∀ k g d, motive (.wregChon k g d))
    (wmem : ∀ k a d, motive (.wmem k a d)) (tick : ∀ k, motive (.tick k)) (frame : motive .frame)
    (wmixGvoll : ∀ d, motive (.wmixGvoll d)) (wmixGvolh : ∀ d, motive (.wmixGvolh d)) (i : Instr) : motive i := by
  cases i with
  | wregPosl k slot d => exact channel .posl k slot d
  | wregPosh k slot d => exact channel .posh k slot d
  | wregStepl k slot d => exact channel .stepl k slot d
  | wregSteph k slot d => exact channel .steph k slot d
  | wregLoopl k slot d => exact channel .loopl k slot d
  | wregLooph k slot d => exact channel .looph k slot d
  | wregStart k slot d => exact channel .start k slot d
  | wregVol k slot d => exact channel .vol k slot d
  | wregPan k slot d => exact channel .pan k slot d
  | wregTrig k slot => exact channel .trig k slot 0#8
  | wregGctrl k on bank => exact gctrl k on bank
  | wregChon k g d => exact chon k g d
  | wmem k a d => exact wmem k a d
  | tick k => exact tick k
  | frame => exact frame
  | wmixGvoll d => exact wmixGvoll d
  | wmixGvolh d => exact wmixGvolh d
  | nop => exact quiet _ (.inl rfl)
  | _ => exact quiet _ (.inr rfl)

/-! ## Commands without effect -/

/-- A global register write that keeps every chip changes nothing. -/
theorem writeGlobal_id (k : BitVec 4) (f : Config → ChipConfig → Chip → Chip) (s : State)
    (h : ∀ cfg cc x, f cfg cc x = x) : writeGlobal k f s = s.respond none := by
  have hf : f s.cfg (s.cfg.chip k.toNat) = id := funext (h _ _)
  unfold writeGlobal
  split
  · rw [hf, State.updateChip, List.modify_id]
  · rfl

/-- A channel register write that keeps every channel changes nothing. -/
theorem writeChannel_id (k : BitVec 4) (slot : BitVec 3) (s : State) :
    writeChannel k slot (fun _ ch => ch) s = s.respond none :=
  writeGlobal_id k _ s fun _ _ x => congrArg (fun ch => { x with ch := ch }) (List.modify_id _ x.ch)

/-- NOP and the reserved commands change no state and present nothing (R153, R154, R278, R279). -/
theorem exec_quiet (i : Instr) (h : i = .nop ∨ i.isReserved = true) (s : State) :
    exec i s = .next (s.respond none) := by
  cases i with
  | nop | rsvd6 | rsvd8 => rfl
  | wregRsvdChA k slot | wregRsvdChC k slot => exact congrArg Host.Outcome.next (writeChannel_id k slot s)
  | wregRsvdG81 k | wregRsvdG82 k | wregRsvdG84 k | wregRsvdG88 k | wregRsvdGA0 k | wregRsvdGC0 k =>
    exact congrArg Host.Outcome.next (writeGlobal_id k _ s fun _ _ _ => rfl)
  | _ => exact absurd h (by simp [Instr.isReserved])

/-! ## CHON -/

section
variable (g : BitVec 4) (d : Byte) (cfg : Config) (cc : ChipConfig) (x : Chip)

@[simp] theorem chonGroup_length : (chonGroup g d cfg cc x).ch.length = x.ch.length := (chonGroup_keeps g d cfg cc x).1
@[simp] theorem chonGroup_chipOn : (chonGroup g d cfg cc x).chipOn = x.chipOn := (chonGroup_keeps g d cfg cc x).2.1
@[simp] theorem chonGroup_bank : (chonGroup g d cfg cc x).bank = x.bank := (chonGroup_keeps g d cfg cc x).2.2.1
@[simp] theorem chonGroup_mem : (chonGroup g d cfg cc x).mem = x.mem := (chonGroup_keeps g d cfg cc x).2.2.2.1
@[simp] theorem chonGroup_lastL : (chonGroup g d cfg cc x).lastL = x.lastL := (chonGroup_keeps g d cfg cc x).2.2.2.2.1
@[simp] theorem chonGroup_lastR : (chonGroup g d cfg cc x).lastR = x.lastR := (chonGroup_keeps g d cfg cc x).2.2.2.2.2.1
@[simp] theorem chonGroup_racc : (chonGroup g d cfg cc x).racc = x.racc := (chonGroup_keeps g d cfg cc x).2.2.2.2.2.2

end

/-- The first `n` rounds of CHON's loop reach the first `n` channels of the group. -/
theorem foldl_chonBit_channel (cfg : Config) (cc : ChipConfig) (g : BitVec 4) (d : Byte) (n : Nat) (x : Chip) (c : Nat) :
    ((List.range n).foldl (chonBit cfg cc g d) x).ch.length = x.ch.length ∧
    ((List.range n).foldl (chonBit cfg cc g d) x).channel c =
      if 8 * g.toNat ≤ c ∧ c < 8 * g.toNat + n ∧ c < cfg.nch ∧ c < x.ch.length then
        (if d.getLsbD (c - 8 * g.toNat) then Channel.enable else Channel.disable cc) (x.channel c)
      else x.channel c := by
  induction n with
  | zero => exact ⟨rfl, (if_neg (by omega)).symm⟩
  | succ n ih =>
    obtain ⟨hlen, hch⟩ := ih
    rw [List.range_succ, List.foldl_append, List.foldl_cons, List.foldl_nil, chonBit]
    split
    next hn =>
      refine ⟨by simpa using hlen, ?_⟩
      rw [Chip.updateChannel_channel, hlen]
      by_cases hc : c = 8 * g.toNat + n
      · subst hc
        simp [hch, hn]
      · rw [if_neg fun h => hc h.1, hch]
        exact if_congr (by omega) rfl rfl
    next hn => exact ⟨hlen, hch.trans (if_congr (by omega) rfl rfl)⟩

/-- A channel after CHON: enabled or disabled by its own bit if it is in the group, else as it was (R152). -/
theorem chonGroup_channel (g : BitVec 4) (d : Byte) (cfg : Config) (cc : ChipConfig) (x : Chip) (c : Nat) :
    (chonGroup g d cfg cc x).channel c =
      if c / 8 = g.toNat ∧ c < cfg.nch ∧ c < x.ch.length then
        (if d.getLsbD (c % 8) then Channel.enable else Channel.disable cc) (x.channel c)
      else x.channel c := by
  rw [chonGroup, (foldl_chonBit_channel cfg cc g d 8 x c).2]
  by_cases hg : c / 8 = g.toNat
  · rw [show c - 8 * g.toNat = c % 8 by omega]
    exact if_congr (by omega) rfl rfl
  · rw [if_neg (by omega), if_neg fun h => hg h.1]

/-! ## What a command can do to a chip -/

/-- What a command can do to chip `k`, by family. -/
inductive ChipChange (cfg : Config) (k : Nat) (x : Chip) : Instr → Chip → Prop where
  | kept (i : Instr) : ChipChange cfg k x i x
  | written (func : ChannelFunc) (chip : BitVec 4) (slot : BitVec 3) (d : Byte) (c : Nat) (hchip : chip.toNat = k) :
      ChipChange cfg k x (funcInstr func chip slot d) (x.updateChannel c (funcEffect func d (cfg.chip k)))
  | control (chip : BitVec 4) (on : Bool) (bank : BitVec 4) (hchip : chip.toNat = k) :
      ChipChange cfg k x (.wregGctrl chip on bank) (x.setControl on bank)
  | chon (chip g : BitVec 4) (d : Byte) (hchip : chip.toNat = k) :
      ChipChange cfg k x (.wregChon chip g d) (chonGroup g d cfg (cfg.chip k) x)
  | stored (chip : BitVec 4) (a : BitVec 32) (d : Byte) (hchip : chip.toNat = k)
      (ha : a.toNat < (cfg.chip k).memSize) :
      ChipChange cfg k x (.wmem chip a d) { x with mem := Memory.write x.mem a.toNat d }
  | ticked (chip : BitVec 4) (hchip : chip.toNat = k) :
      ChipChange cfg k x (.tick chip) (tickChip cfg (cfg.chip k) x)
  | rated : ChipChange cfg k x .frame (rateChip cfg k x)

/-- What every command does to the state: the configuration, the pending inputs and the number of chips are kept, each chip
changes as its family can, and the mixer's fields have their writers. -/
structure Transaction (i : Instr) (s t : State) : Prop where
  cfg : t.cfg = s.cfg
  inputs : t.inputs = s.inputs
  count : t.chips.length = s.chips.length
  chip : ∀ k, ChipChange s.cfg k (s.chip k) i (t.chip k)
  gvol : t.mix.gvol = s.mix.gvol ∨ ∃ d, i = .wmixGvoll d ∨ i = .wmixGvolh d
  frame : (t.mix.frameL = s.mix.frameL ∧ t.mix.frameR = s.mix.frameR) ∨ i = .frame

theorem transaction_respond (i : Instr) (s : State) (o : Option Pair) : Transaction i s (s.respond o) :=
  ⟨rfl, rfl, rfl, fun _ => .kept i, .inl rfl, .inl ⟨rfl, rfl⟩⟩

theorem transaction_updateChip {i : Instr} {s : State} {k : Nat} {f : Chip → Chip} (o : Option Pair)
    (h : ChipChange s.cfg k (s.chip k) i (f (s.chip k))) : Transaction i s ((s.updateChip k f).respond o) where
  cfg := rfl
  inputs := rfl
  count := s.updateChip_length k f
  chip j := by
    rw [State.respond_chip, State.updateChip_chip]
    split
    next hj => exact hj.1 ▸ h
    next => exact .kept i
  gvol := .inl rfl
  frame := .inl ⟨rfl, rfl⟩

theorem transaction_writeGlobal {i : Instr} {s : State} {k : BitVec 4} {f : Config → ChipConfig → Chip → Chip}
    (h : ChipChange s.cfg k.toNat (s.chip k.toNat) i (f s.cfg (s.cfg.chip k.toNat) (s.chip k.toNat))) :
    Transaction i s (writeGlobal k f s) := by
  unfold writeGlobal
  split
  · exact transaction_updateChip none h
  · exact transaction_respond i s none

theorem transaction_writeGvol {i : Instr} (s : State) (v : BitVec 16) (h : ∃ d, i = .wmixGvoll d ∨ i = .wmixGvolh d) :
    Transaction i s (writeGvol v s) :=
  ⟨rfl, rfl, rfl, fun _ => .kept i, .inr h, .inl ⟨rfl, rfl⟩⟩

theorem transaction_frame (s : State) (o : Option Pair) :
    Transaction .frame s ((ratePhase (mixPhase s)).respond o) := by
  obtain ⟨hcfg, hmix, hinputs, -, hcount, hchip⟩ := ratePhase_spec (mixPhase s)
  refine ⟨hcfg, hinputs, hcount, fun k => ?_, .inl ((congrArg Mixer.gvol hmix).trans (mixPhase_gvol s)), .inr rfl⟩
  rw [State.respond_chip, hchip]
  split
  · exact .rated
  · exact .kept .frame

/-- Every command is a transaction (R6, R300): it completes, and does nothing but what its family can. -/
theorem exec_transaction (i : Instr) (s : State) : ∃ t, exec i s = .next t ∧ Transaction i s t := by
  cases i using Instr.families with
  | channel func k slot d =>
    exact ⟨_, exec_funcInstr func k slot d s, transaction_writeGlobal (.written func k slot d _ rfl)⟩
  | quiet i h => exact ⟨_, exec_quiet i h s, transaction_respond i s none⟩
  | gctrl k on bank => exact ⟨_, rfl, transaction_writeGlobal (.control k on bank rfl)⟩
  | chon k g d => exact ⟨_, rfl, transaction_writeGlobal (.chon k g d rfl)⟩
  | wmem k a d =>
    rw [exec, execWmem]
    split
    · split
      next ha => exact ⟨_, rfl, transaction_updateChip none (.stored k a d rfl ha)⟩
      next => exact ⟨_, rfl, transaction_respond _ s none⟩
    · exact ⟨_, rfl, transaction_respond _ s none⟩
  | tick k =>
    rw [exec, execTick]
    split
    · exact ⟨_, rfl, transaction_updateChip _ (.ticked k rfl)⟩
    · exact ⟨_, rfl, transaction_respond _ s _⟩
  | frame => exact ⟨_, execFrame_eq s, transaction_frame s _⟩
  | wmixGvoll d => exact ⟨_, rfl, transaction_writeGvol s _ ⟨d, .inl rfl⟩⟩
  | wmixGvolh d => exact ⟨_, rfl, transaction_writeGvol s _ ⟨d, .inr rfl⟩⟩

theorem transaction_of_exec {i : Instr} {s t : State} (h : exec i s = .next t) : Transaction i s t := by
  obtain ⟨t', ht', htrans⟩ := exec_transaction i s
  rw [Host.Outcome.next.inj (h.symm.trans ht')]
  exact htrans

/-! ## The invariant -/

theorem funcEffect_pos_lt (func : ChannelFunc) (d : Byte) (cc : ChipConfig) (ch : Channel) (h : ch.pos < 2 ^ cc.pw) :
    (funcEffect func d cc ch).pos < 2 ^ cc.pw := by
  cases func with
  | posl | posh | trig => exact truncPos_lt cc _
  | _ => exact h

theorem chonGroup_pos_lt (g : BitVec 4) (d : Byte) (cfg : Config) (cc : ChipConfig) (x : Chip)
    (h : ∀ ch ∈ x.ch, ch.pos < 2 ^ cc.pw) : ∀ ch ∈ (chonGroup g d cfg cc x).ch, ch.pos < 2 ^ cc.pw := by
  refine forall_mem_of_channel _ fun c hc => ?_
  rw [chonGroup_length] at hc
  have hpos := h _ (x.channel_mem c hc)
  rw [chonGroup_channel]
  split
  · split
    · exact hpos
    · exact truncPos_lt cc _
  · exact hpos

theorem Config.thr_pos (cfg : Config) (hcfg : cfg.legal = true) (k : Nat) (hk : k < cfg.nchip) : 0 < cfg.thr k := by
  have hdiv := Config.legal_chip cfg hcfg k hk
  simp only [Config.legal, ChipConfig.legal, Bool.and_eq_true, decide_eq_true_eq] at hcfg hdiv
  exact Nat.mul_pos (by omega) (by omega)

/-- A rate phase keeps a chip's fields in range: the ticks keep the remainder it leaves in the accumulator. -/
theorem rateChip_ok (cfg : Config) (hcfg : cfg.legal = true) (k : Nat) (hk : k < cfg.nchip) (x : Chip)
    (hx : ChipOk cfg k x) : ChipOk cfg k (rateChip cfg k x) := by
  obtain ⟨hlen, hpos, hmem, hl, hr, -⟩ := hx
  rw [rateChip_eq]
  exact tickTimes_ok cfg hcfg k hk _ _ ⟨hlen, hpos, hmem, hl, hr, Nat.mod_lt _ (Config.thr_pos cfg hcfg k hk)⟩

/-- No command takes a field of a chip out of its range. -/
theorem ChipChange.ok {cfg : Config} {k : Nat} {x y : Chip} {i : Instr} (h : ChipChange cfg k x i y)
    (hcfg : cfg.legal = true) (hk : k < cfg.nchip) (hx : ChipOk cfg k x) : ChipOk cfg k y := by
  have ⟨hlen, hpos, ⟨hwf, hbound⟩, hpair⟩ := hx
  cases h with
  | kept => exact hx
  | written func chip slot d c =>
    exact ⟨(x.updateChannel_length c _).trans hlen,
      x.updateChannel_forall c _ hpos fun ch hch => funcEffect_pos_lt func d _ ch (hpos ch hch), ⟨hwf, hbound⟩, hpair⟩
  | control => exact hx
  | chon chip g d =>
    refine ⟨(chonGroup_length g d cfg _ x).trans hlen, chonGroup_pos_lt g d cfg _ x hpos, ?_⟩
    rw [chonGroup_mem, chonGroup_lastL, chonGroup_lastR, chonGroup_racc]
    exact ⟨⟨hwf, hbound⟩, hpair⟩
  | stored chip a d _ ha =>
    exact ⟨hlen, hpos, ⟨Memory.write_wf _ hwf _ d, Memory.write_bound _ _ _ d hbound ha⟩, hpair⟩
  | ticked => exact tickChip_ok cfg hcfg k hk x hx
  | rated => exact rateChip_ok cfg hcfg k hk x hx

theorem Transaction.inv {i : Instr} {s t : State} (h : Transaction i s t) (hs : s.Inv) : t.Inv := by
  obtain ⟨hlegal, hcount, hok⟩ := hs
  rw [State.Inv, h.cfg, h.count]
  exact ⟨hlegal, hcount, fun k hk => (h.chip k).ok hlegal hk (hok k hk)⟩

/-! ## Reset -/

/-- A chip of a state after reset. -/
theorem State.resetWith_chip (cfg : Config) (inputs : List HostInput) (k : Nat) (hk : k < cfg.nchip) :
    (State.resetWith cfg inputs).chip k = Chip.reset cfg.nch := by
  rw [State.chip, State.resetWith, List.getD_replicate _ hk]

theorem resetWith_resetValues (cfg : Config) (inputs : List HostInput) : ResetValues (State.resetWith cfg inputs) where
  chips := List.length_replicate
  channels k hk := by
    have hchip := State.resetWith_chip cfg inputs k hk
    refine ⟨by rw [hchip]; exact List.length_replicate, fun c hc => ?_⟩
    rw [State.channel, hchip]
    exact List.getD_replicate _ hc
  chipFields k hk := by
    rw [State.resetWith_chip cfg inputs k hk]
    exact ⟨rfl, rfl, rfl, rfl, rfl⟩
  bytes k hk a := by
    rw [State.readByte, State.resetWith_chip cfg inputs k hk]
    rfl
  mixer := rfl

theorem chipReset_ok (cfg : Config) (hcfg : cfg.legal = true) (k : Nat) (hk : k < cfg.nchip) :
    ChipOk cfg k (Chip.reset cfg.nch) := by
  have hpair : -((cfg.nch : Int) * contributionBound) ≤ 0 ∧ 0 ≤ (cfg.nch : Int) * contributionBound := by
    unfold contributionBound
    omega
  refine ⟨List.length_replicate, fun ch hch => ?_, ⟨⟨.nil, nofun⟩, nofun⟩, hpair, hpair, Config.thr_pos cfg hcfg k hk⟩
  rw [List.eq_of_mem_replicate hch]
  exact Nat.two_pow_pos _

theorem resetWith_inv (cfg : Config) (inputs : List HostInput) (hcfg : cfg.legal = true) :
    (State.resetWith cfg inputs).Inv :=
  ⟨hcfg, List.length_replicate, fun k hk => by
    rw [State.resetWith_chip cfg inputs k hk]
    exact chipReset_ok cfg hcfg k hk⟩

/-- Settles O10: an idle step keeps the state, a command is a transaction, and reset meets the invariant. -/
theorem stepKeepsInvariant : Obligations.StepKeepsInvariant := by
  intro s t hs h
  obtain ⟨hlegal, ⟨-, rfl⟩ | ⟨w, rest, -, hexec⟩ | ⟨rest, -, rfl⟩⟩ := step_cases h
  · exact hs
  · exact (transaction_of_exec hexec).inv hs
  · exact resetWith_inv s.cfg rest hlegal

/-- Settles O9: both states are `State.resetWith` of a configuration. -/
theorem resetInputRestoresResetValues : Obligations.ResetInputRestoresResetValues := by
  refine ⟨resetWith_resetValues _ _, fun s rest hlegal hinputs => ⟨State.resetWith s.cfg rest, ?_,
    resetWith_resetValues _ _, rfl⟩⟩
  rw [step, if_pos hlegal, hinputs]
  simp [ingest, State.applyReset, State.dropInput, hinputs]

/-- Settles O14: a command is a transaction, which keeps the configuration and the inputs it has not taken. -/
theorem configurationNeverChanges : Obligations.ConfigurationNeverChanges := by
  intro s t h
  obtain ⟨-, ⟨hinputs, rfl⟩ | ⟨w, rest, hinputs, hexec⟩ | ⟨rest, hinputs, rfl⟩⟩ := step_cases h
  · exact ⟨rfl, by rw [hinputs, List.tail_nil]⟩
  · have htrans := transaction_of_exec hexec
    exact ⟨htrans.cfg, by rw [htrans.inputs, hinputs, List.tail_cons]⟩
  · exact ⟨rfl, by rw [hinputs]; rfl⟩

/-! ## The writers of the chip and mixer fields -/

/-- The rate phase of a chip is ticks, and what it leaves in the accumulator. -/
theorem rateChip_kept (cfg : Config) (k : Nat) (x : Chip) :
    KeptByTick { x with racc := (x.racc + (cfg.chip k).clock) % cfg.thr k } (rateChip cfg k x) := by
  rw [rateChip_eq]
  exact tickTimes_kept _ _ _ _

section
variable {cfg : Config} {k : Nat} {x y : Chip} {i : Instr}

theorem ChipChange.chipOn_writer (h : ChipChange cfg k x i y) (hne : y.chipOn ≠ x.chipOn) :
    ∃ chip bank, chip.toNat = k ∧ i = .wregGctrl chip y.chipOn bank := by
  cases h with
  | control chip on bank hchip => exact ⟨chip, bank, hchip, rfl⟩
  | chon chip g d => exact absurd (chonGroup_chipOn g d cfg _ x) hne
  | ticked => exact absurd (tickChip_kept cfg _ x).chipOn hne
  | rated => exact absurd (rateChip_kept cfg k x).chipOn hne
  | _ => exact absurd rfl hne

theorem ChipChange.bank_writer (h : ChipChange cfg k x i y) (hne : y.bank ≠ x.bank) :
    ∃ chip on, chip.toNat = k ∧ i = .wregGctrl chip on y.bank := by
  cases h with
  | control chip on bank hchip => exact ⟨chip, on, hchip, rfl⟩
  | chon chip g d => exact absurd (chonGroup_bank g d cfg _ x) hne
  | ticked => exact absurd (tickChip_kept cfg _ x).bank hne
  | rated => exact absurd (rateChip_kept cfg k x).bank hne
  | _ => exact absurd rfl hne

/-- Memory changes only by WMEM. -/
theorem ChipChange.mem_writer (h : ChipChange cfg k x i y) (hne : y.mem ≠ x.mem) :
    ∃ chip a d, chip.toNat = k ∧ i = .wmem chip a d ∧ y.mem = Memory.write x.mem a.toNat d := by
  cases h with
  | stored chip a d hchip => exact ⟨chip, a, d, hchip, rfl, rfl⟩
  | chon chip g d => exact absurd (chonGroup_mem g d cfg _ x) hne
  | ticked => exact absurd (tickChip_kept cfg _ x).mem hne
  | rated => exact absurd (rateChip_kept cfg k x).mem hne
  | _ => exact absurd rfl hne

/-- A byte of a canonical memory changes only by a WMEM that carries its address and new value. -/
theorem ChipChange.byte_writer (h : ChipChange cfg k x i y) (hwf : Memory.wf x.mem) (a : Nat)
    (hne : Memory.read y.mem a ≠ Memory.read x.mem a) :
    ∃ chip addr, chip.toNat = k ∧ addr.toNat = a ∧ i = .wmem chip addr (Memory.read y.mem a) := by
  obtain ⟨chip, addr, d, hchip, rfl, hmem⟩ := h.mem_writer fun hmem => hne (by rw [hmem])
  rw [hmem, Memory.read_write x.mem hwf] at hne ⊢
  by_cases ha : a = addr.toNat
  · exact ⟨chip, addr, hchip, ha.symm, by rw [if_pos ha]⟩
  · exact absurd (if_neg ha) hne

theorem ChipChange.pair_writer (h : ChipChange cfg k x i y) (hne : y.lastL ≠ x.lastL ∨ y.lastR ≠ x.lastR) :
    i.ticks k := by
  rw [ne_eq, ne_eq, ← not_and_or] at hne
  cases h with
  | ticked chip hchip => exact .inl ⟨chip, rfl, hchip⟩
  | rated => exact .inr rfl
  | chon chip g d => exact absurd ⟨chonGroup_lastL g d cfg _ x, chonGroup_lastR g d cfg _ x⟩ hne
  | _ => exact absurd ⟨rfl, rfl⟩ hne

theorem ChipChange.racc_writer (h : ChipChange cfg k x i y) (hne : y.racc ≠ x.racc) : i = .frame := by
  cases h with
  | rated => rfl
  | chon chip g d => exact absurd (chonGroup_racc g d cfg _ x) hne
  | ticked => exact absurd (tickChip_kept cfg _ x).racc hne
  | _ => exact absurd rfl hne

end

/-- Settles O50: each chip's change has its writers, and so have the mixer's. -/
theorem chipAndMixerFieldsHaveTheirWriters : Obligations.ChipAndMixerFieldsHaveTheirWriters := by
  rintro i s ⟨-, hcount, hok⟩
  obtain ⟨t, hexec, h⟩ := exec_transaction i s
  have hwf (k : Nat) : Memory.wf (s.chip k).mem := by
    by_cases hk : k < s.cfg.nchip
    · obtain ⟨-, -, ⟨hwf, -⟩, -⟩ := hok k hk
      exact hwf
    · rw [State.chip, List.getD_eq_default _ _ (by omega)]
      exact ⟨.nil, nofun⟩
  exact ⟨t, hexec, fun k => (h.chip k).chipOn_writer, fun k => (h.chip k).bank_writer,
    fun k => (h.chip k).byte_writer (hwf k), fun k => (h.chip k).pair_writer, fun k => (h.chip k).racc_writer,
    h.gvol.resolve_left, fun hne => h.frame.resolve_left fun ⟨hl, hr⟩ => hne.elim (absurd hl) (absurd hr)⟩

/-! ## The writers of the channel fields -/

/-- What a command can do to channel `c` of chip `k`, by the field it writes. -/
inductive ChannelChange (cc : ChipConfig) (k c : Nat) (x : Channel) : Instr → Channel → Prop where
  | kept (i : Instr) : ChannelChange cc k c x i x
  | pos (i : Instr) (chip : BitVec 4) (slot : BitVec 3) (d : Byte) (v : Nat) (hchip : chip.toNat = k)
      (hi : i = .wregPosl chip slot d ∨ i = .wregPosh chip slot d) : ChannelChange cc k c x i { x with pos := v }
  | step (i : Instr) (chip : BitVec 4) (slot : BitVec 3) (d : Byte) (v : BitVec 16) (hchip : chip.toNat = k)
      (hi : i = .wregStepl chip slot d ∨ i = .wregSteph chip slot d) : ChannelChange cc k c x i { x with step := v }
  | loop (i : Instr) (chip : BitVec 4) (slot : BitVec 3) (d : Byte) (v : BitVec 16) (hchip : chip.toNat = k)
      (hi : i = .wregLoopl chip slot d ∨ i = .wregLooph chip slot d) : ChannelChange cc k c x i { x with loop := v }
  | start (chip : BitVec 4) (slot : BitVec 3) (d : Byte) (hchip : chip.toNat = k) :
      ChannelChange cc k c x (.wregStart chip slot d) { x with start := d }
  | vol (chip : BitVec 4) (slot : BitVec 3) (d : Byte) (hchip : chip.toNat = k) :
      ChannelChange cc k c x (.wregVol chip slot d) { x with vol := d }
  | pan (chip : BitVec 4) (slot : BitVec 3) (d : Byte) (hchip : chip.toNat = k) :
      ChannelChange cc k c x (.wregPan chip slot d) { x with pan := d }
  | armed (chip : BitVec 4) (slot : BitVec 3) (hchip : chip.toNat = k) :
      ChannelChange cc k c x (.wregTrig chip slot) (x.arm cc)
  | enabled (chip g : BitVec 4) (d : Byte) (hchip : chip.toNat = k) (hgroup : g.toNat = c / 8)
      (hbit : d.toNat.testBit (c % 8) = true) : ChannelChange cc k c x (.wregChon chip g d) x.enable
  | disabled (chip g : BitVec 4) (d : Byte) (hchip : chip.toNat = k) (hgroup : g.toNat = c / 8)
      (hbit : d.toNat.testBit (c % 8) = false) : ChannelChange cc k c x (.wregChon chip g d) (x.disable cc)
  | ticked (i : Instr) (y : Channel) (hticks : i.ticks k) (hregisters : SameRegisters x y)
      (hen : x.en = false → y.en = false) : ChannelChange cc k c x i y

theorem channelChange_funcEffect (cc : ChipConfig) (k c : Nat) (x : Channel) (func : ChannelFunc) (chip : BitVec 4)
    (slot : BitVec 3) (d : Byte) (hchip : chip.toNat = k) :
    ChannelChange cc k c x (funcInstr func chip slot d) (funcEffect func d cc x) := by
  cases func with
  | posl => exact .pos _ chip slot d _ hchip (.inl rfl)
  | posh => exact .pos _ chip slot d _ hchip (.inr rfl)
  | stepl => exact .step _ chip slot d _ hchip (.inl rfl)
  | steph => exact .step _ chip slot d _ hchip (.inr rfl)
  | loopl => exact .loop _ chip slot d _ hchip (.inl rfl)
  | looph => exact .loop _ chip slot d _ hchip (.inr rfl)
  | start => exact .start chip slot d hchip
  | vol => exact .vol chip slot d hchip
  | pan => exact .pan chip slot d hchip
  | trig => exact .armed chip slot hchip

/-- What a command does to a chip it does to each channel in one of the ways of `ChannelChange`. -/
theorem ChipChange.channel {cfg : Config} {k : Nat} {x y : Chip} {i : Instr} (h : ChipChange cfg k x i y) (c : Nat) :
    ChannelChange (cfg.chip k) k c (x.channel c) i (y.channel c) := by
  cases h with
  | kept | control | stored => exact .kept _
  | written func chip slot d e hchip =>
    rw [Chip.updateChannel_channel]
    split
    next hc => exact hc.1 ▸ channelChange_funcEffect _ k c _ func chip slot d hchip
    next => exact .kept _
  | chon chip g d hchip =>
    rw [chonGroup_channel]
    split
    next hc =>
      cases hbit : d.getLsbD (c % 8)
      · exact .disabled chip g d hchip hc.1.symm hbit
      · exact .enabled chip g d hchip hc.1.symm hbit
    next => exact .kept _
  | ticked chip hchip =>
    have hkept := tickChip_kept cfg (cfg.chip k) x
    exact .ticked _ _ (.inl ⟨chip, rfl, hchip⟩) (hkept.registers c) (hkept.disabled c)
  | rated =>
    have hkept := rateChip_kept cfg k x
    exact .ticked _ _ (.inr rfl) (hkept.registers c) (hkept.disabled c)

/-- Every command completes and changes a channel in one of the ways of `ChannelChange`. -/
theorem exec_channel (i : Instr) (s : State) (k c : Nat) :
    ∃ t, exec i s = .next t ∧ ChannelChange (s.cfg.chip k) k c (s.channel k c) i (t.channel k c) := by
  obtain ⟨t, hexec, h⟩ := exec_transaction i s
  exact ⟨t, hexec, (h.chip k).channel c⟩

section
variable {cc : ChipConfig} {k c : Nat} {x y : Channel} {i : Instr}

theorem ChannelChange.step_writer (h : ChannelChange cc k c x i y) (hne : y.step ≠ x.step) :
    ∃ chip slot d, chip.toNat = k ∧ (i = .wregStepl chip slot d ∨ i = .wregSteph chip slot d) := by
  cases h with
  | step _ chip slot d _ hchip hi => exact ⟨chip, slot, d, hchip, hi⟩
  | ticked _ _ _ hregisters =>
    obtain ⟨hsame, -⟩ := hregisters
    exact absurd hsame hne
  | _ => exact absurd rfl hne

theorem ChannelChange.loop_writer (h : ChannelChange cc k c x i y) (hne : y.loop ≠ x.loop) :
    ∃ chip slot d, chip.toNat = k ∧ (i = .wregLoopl chip slot d ∨ i = .wregLooph chip slot d) := by
  cases h with
  | loop _ chip slot d _ hchip hi => exact ⟨chip, slot, d, hchip, hi⟩
  | ticked _ _ _ hregisters =>
    obtain ⟨-, hsame, -⟩ := hregisters
    exact absurd hsame hne
  | _ => exact absurd rfl hne

theorem ChannelChange.start_writer (h : ChannelChange cc k c x i y) (hne : y.start ≠ x.start) :
    ∃ chip slot d, chip.toNat = k ∧ i = .wregStart chip slot d := by
  cases h with
  | start chip slot d hchip => exact ⟨chip, slot, d, hchip, rfl⟩
  | ticked _ _ _ hregisters =>
    obtain ⟨-, -, hsame, -⟩ := hregisters
    exact absurd hsame hne
  | _ => exact absurd rfl hne

theorem ChannelChange.vol_writer (h : ChannelChange cc k c x i y) (hne : y.vol ≠ x.vol) :
    ∃ chip slot d, chip.toNat = k ∧ i = .wregVol chip slot d := by
  cases h with
  | vol chip slot d hchip => exact ⟨chip, slot, d, hchip, rfl⟩
  | ticked _ _ _ hregisters =>
    obtain ⟨-, -, -, hsame, -⟩ := hregisters
    exact absurd hsame hne
  | _ => exact absurd rfl hne

theorem ChannelChange.pan_writer (h : ChannelChange cc k c x i y) (hne : y.pan ≠ x.pan) :
    ∃ chip slot d, chip.toNat = k ∧ i = .wregPan chip slot d := by
  cases h with
  | pan chip slot d hchip => exact ⟨chip, slot, d, hchip, rfl⟩
  | ticked _ _ _ hregisters =>
    obtain ⟨-, -, -, -, hsame⟩ := hregisters
    exact absurd hsame hne
  | _ => exact absurd rfl hne

theorem ChannelChange.enable_writer (h : ChannelChange cc k c x i y) (hx : x.en = false) (hy : y.en = true) :
    (∃ chip slot, chip.toNat = k ∧ i = .wregTrig chip slot) ∨
    (∃ chip g d, chip.toNat = k ∧ g.toNat = c / 8 ∧ d.toNat.testBit (c % 8) = true ∧ i = .wregChon chip g d) := by
  cases h with
  | armed chip slot hchip => exact .inl ⟨chip, slot, hchip, rfl⟩
  | enabled chip g d hchip hgroup hbit => exact .inr ⟨chip, g, d, hchip, hgroup, hbit, rfl⟩
  | disabled => cases hy
  | ticked _ _ _ _ hen => exact absurd ((hen hx).symm.trans hy) Bool.false_ne_true
  | _ => exact absurd (hx.symm.trans hy) Bool.false_ne_true

theorem ChannelChange.disable_writer (h : ChannelChange cc k c x i y) (hx : x.en = true) (hy : y.en = false) :
    (∃ chip g d, chip.toNat = k ∧ g.toNat = c / 8 ∧ d.toNat.testBit (c % 8) = false ∧ i = .wregChon chip g d) ∨
    i.ticks k := by
  cases h with
  | armed | enabled => cases hy
  | disabled chip g d hchip hgroup hbit => exact .inl ⟨chip, g, d, hchip, hgroup, hbit, rfl⟩
  | ticked _ _ hticks => exact .inr hticks
  | _ => exact absurd (hy.symm.trans hx) Bool.false_ne_true

theorem ChannelChange.pos_writer (h : ChannelChange cc k c x i y) (hne : y.pos ≠ x.pos) :
    (∃ chip slot d, chip.toNat = k ∧ (i = .wregPosl chip slot d ∨ i = .wregPosh chip slot d)) ∨
    (∃ chip slot, chip.toNat = k ∧ i = .wregTrig chip slot) ∨
    (∃ chip g d, chip.toNat = k ∧ i = .wregChon chip g d) ∨ i.ticks k := by
  cases h with
  | pos _ chip slot d _ hchip hi => exact .inl ⟨chip, slot, d, hchip, hi⟩
  | armed chip slot hchip => exact .inr (.inl ⟨chip, slot, hchip, rfl⟩)
  | disabled chip g d hchip => exact .inr (.inr (.inl ⟨chip, g, d, hchip, rfl⟩))
  | ticked _ _ hticks => exact .inr (.inr (.inr hticks))
  | _ => exact absurd rfl hne

theorem ChannelChange.cnt_writer (h : ChannelChange cc k c x i y) (hne : y.cnt ≠ x.cnt) :
    (∃ chip slot, chip.toNat = k ∧ i = .wregTrig chip slot) ∨
    (∃ chip g d, chip.toNat = k ∧ i = .wregChon chip g d) ∨ i.ticks k := by
  cases h with
  | armed chip slot hchip => exact .inl ⟨chip, slot, hchip, rfl⟩
  | disabled chip g d hchip => exact .inr (.inl ⟨chip, g, d, hchip, rfl⟩)
  | ticked _ _ hticks => exact .inr (.inr hticks)
  | _ => exact absurd rfl hne

end

/-- Settles O51: each way a channel's registers change names its command. -/
theorem channelRegistersHaveTheirWriters : Obligations.ChannelRegistersHaveTheirWriters := by
  intro i s k c
  obtain ⟨t, hexec, h⟩ := exec_channel i s k c
  exact ⟨t, hexec, h.step_writer, h.loop_writer, h.start_writer, h.vol_writer, h.pan_writer⟩

/-- Settles O52: each way a channel's enable, position and counter change names its command. -/
theorem enablePositionAndCounterHaveTheirWriters : Obligations.EnablePositionAndCounterHaveTheirWriters := by
  intro i s k c
  obtain ⟨t, hexec, h⟩ := exec_channel i s k c
  exact ⟨t, hexec, h.enable_writer, h.disable_writer, h.pos_writer, h.cnt_writer⟩

/-! ## The pairs presented -/

/-- A command other than TICK and FRAME presents nothing. -/
theorem exec_out_none (i : Instr) (s : State) (htick : ∀ k, i ≠ .tick k) (hframe : i ≠ .frame) :
    ∃ t, exec i s = .next t ∧ t.out = none := by
  cases i using Instr.families with
  | channel func k slot d => exact ⟨_, exec_funcInstr func k slot d s, writeGlobal_out _ _ s⟩
  | quiet i h => exact ⟨_, exec_quiet i h s, rfl⟩
  | gctrl | chon => exact ⟨_, rfl, writeGlobal_out _ _ s⟩
  | wmem k a d =>
    rw [exec, execWmem]
    split
    · split <;> exact ⟨_, rfl, rfl⟩
    · exact ⟨_, rfl, rfl⟩
  | tick k => exact absurd rfl (htick k)
  | frame => exact absurd rfl hframe
  | wmixGvoll | wmixGvolh => exact ⟨_, rfl, rfl⟩

/-- Settles O54: TICK and FRAME read the pair they present from the state they leave. -/
theorem onlyTickAndFrameReturnPairs : Obligations.OnlyTickAndFrameReturnPairs := by
  rintro i s -
  by_cases htick : ∃ k, i = .tick k
  · obtain ⟨k, rfl⟩ := htick
    by_cases hk : k.toNat < s.cfg.nchip
    · refine ⟨_, if_pos hk, ?_, ?_, nofun, fun h => absurd rfl (h k)⟩
      · rintro _ ⟨⟩ -
        rfl
      · rintro _ ⟨⟩ habsent
        omega
    · refine ⟨_, if_neg hk, ?_, ?_, nofun, fun h => absurd rfl (h k)⟩
      · rintro _ ⟨⟩ hpresent
        exact absurd hpresent hk
      · rintro _ ⟨⟩ -
        rfl
  by_cases hframe : i = .frame
  · subst hframe
    exact ⟨_, rfl, nofun, nofun, fun _ => rfl, fun _ h => absurd rfl h⟩
  obtain ⟨t, hexec, hout⟩ := exec_out_none i s (fun k h => htick ⟨k, h⟩) hframe
  exact ⟨t, hexec, fun k h => absurd ⟨k, h⟩ htick, fun k h => absurd ⟨k, h⟩ htick, fun h => absurd h hframe,
    fun _ _ => hout⟩

end Sys2Proof.Machine
end

