-- ==== Sys2Proof/Proofs/Memory.lean ====
section
/-! PROOFS. Sample memory and the order of commands (spec/20_memory.md R81 to R83, R86, R88): the byte that a position
addresses, a store as one update of the state (`exec_wmem`) with its algebra, and the step that runs a presented word. -/

namespace Sys2Proof.Machine

/-! ## Byte addresses (R81, R82) -/

theorem byteAddress_eq (cc : ChipConfig) (pos : Nat) : byteAddress cc pos = pos / 2 ^ cc.frac % cc.memSize := by
  rw [byteAddress, Nat.shiftRight_eq_div_pow, ChipConfig.memSize]

theorem byteAddress_lt (cc : ChipConfig) (pos : Nat) : byteAddress cc pos < cc.memSize :=
  Nat.mod_lt _ (Nat.two_pow_pos _)

/-- A position in range addresses its integer part. -/
theorem byteAddress_of_lt (cc : ChipConfig) (pos : Nat) (h : pos < 2 ^ (cc.addrBits + cc.frac)) :
    byteAddress cc pos = pos / 2 ^ cc.frac := by
  rw [byteAddress_eq, ChipConfig.memSize, Nat.mod_eq_of_lt]
  rwa [Nat.div_lt_iff_lt_mul (Nat.two_pow_pos _), ← Nat.pow_add]

/-- Cutting a position to PW bits cuts the byte address to ADDR_BITS bits. -/
@[simp] theorem byteAddress_truncPos (cc : ChipConfig) (v : Nat) :
    byteAddress cc (truncPos cc v) = v / 2 ^ cc.frac % cc.memSize := by
  rw [byteAddress_eq, truncPos, ChipConfig.pw, Nat.pow_add, ChipConfig.memSize, Nat.mod_mul_left_div_self, Nat.mod_mod]

/-- One whole byte past a position is the next address modulo MEM_SIZE. -/
theorem byteAddress_truncPos_add_byte (cc : ChipConfig) (pos : Nat) :
    byteAddress cc (truncPos cc (pos + 2 ^ cc.frac)) = (byteAddress cc pos + 1) % cc.memSize := by
  rw [byteAddress_truncPos, byteAddress_eq, Nat.add_div_right _ (Nat.two_pow_pos _), Nat.mod_add_mod]

@[simp] theorem byteAddress_loopPosition (cc : ChipConfig) (loop : BitVec 16) :
    byteAddress cc (loopPosition cc loop) = loop.toNat % cc.memSize := by
  rw [loopPosition, positionOf, byteAddress_truncPos, Nat.shiftLeft_eq, Nat.mul_div_cancel _ (Nat.two_pow_pos _)]

@[simp] theorem byteAddress_startPosition (cc : ChipConfig) (start : Byte) :
    byteAddress cc (startPosition cc start) = start.toNat * 256 % cc.memSize := by
  rw [startPosition, byteAddress_truncPos, Nat.shiftLeft_eq, Nat.pow_add, ← Nat.mul_assoc,
    Nat.mul_div_cancel _ (Nat.two_pow_pos _)]

/-- Settles O28: the byte address after each operation that makes a position. -/
theorem byteAddressesWrapModuloMemSize : Obligations.ByteAddressesWrapModuloMemSize := by
  refine fun cc => ⟨byteAddress_lt cc, byteAddress_of_lt cc, fun mem ch h => ?_,
    fun pos inc => byteAddress_truncPos cc (pos + inc), fun pos htop => ?_, byteAddress_loopPosition cc,
    byteAddress_startPosition cc⟩
  · rw [fetchByte, byteAddress_of_lt cc ch.pos h]
  · have hpos : 0 < cc.memSize := Nat.two_pow_pos _
    rw [byteAddress_truncPos_add_byte, htop, Nat.sub_add_cancel hpos, Nat.mod_self]

/-! ## The algebra of canonical memory (R86)

Canonical memories that read alike are equal, so each law is a comparison of reads. -/

section
variable {m : Memory} (hm : Memory.wf m)
include hm

/-- The later of two stores at an address is the one that counts. -/
theorem Memory.write_write (a : Nat) (v w : Byte) :
    Memory.write (Memory.write m a v) a w = Memory.write m a w := by
  have hv := Memory.write_wf m hm a v
  refine Memory.ext_of_read _ _ (Memory.write_wf _ hv a w) (Memory.write_wf m hm a w) fun x => ?_
  rw [Memory.read_write _ hv, Memory.read_write m hm, Memory.read_write m hm]
  split <;> rfl

/-- Storing the byte that is there changes nothing. -/
theorem Memory.write_read (a : Nat) : Memory.write m a (Memory.read m a) = m := by
  refine Memory.ext_of_read _ _ (Memory.write_wf m hm a _) hm fun x => ?_
  rw [Memory.read_write m hm]
  split
  next hx => rw [hx]
  next => rfl

/-- Stores at different addresses commute. -/
theorem Memory.write_comm {a b : Nat} (hab : a ≠ b) (v w : Byte) :
    Memory.write (Memory.write m a v) b w = Memory.write (Memory.write m b w) a v := by
  have hv := Memory.write_wf m hm a v
  have hw := Memory.write_wf m hm b w
  refine Memory.ext_of_read _ _ (Memory.write_wf _ hv b w) (Memory.write_wf _ hw a v) fun x => ?_
  rw [Memory.read_write _ hv, Memory.read_write m hm, Memory.read_write _ hw, Memory.read_write m hm]
  by_cases hxa : x = a
  · rw [if_neg fun hxb => hab (hxa.symm.trans hxb), if_pos hxa, if_pos hxa]
  · rw [if_neg hxa, if_neg hxa]

end

/-! ## The algebra of `updateChip` -/

/-- An update depends only on what it makes of the chip that is there. -/
theorem State.updateChip_congr (s : State) (k : Nat) (f g : Chip → Chip) (h : f (s.chip k) = g (s.chip k)) :
    s.updateChip k f = s.updateChip k g := by
  have hchips : s.chips.modify k f = s.chips.modify k g := by
    refine List.ext_getElem (by simp) fun j hj _ => ?_
    rw [List.length_modify] at hj
    rw [List.getElem_modify, List.getElem_modify]
    split
    next hk =>
      subst hk
      rwa [State.chip, List.getD_eq_getElem _ _ hj] at h
    next => rfl
  rw [State.updateChip, State.updateChip, hchips]

theorem State.updateChip_updateChip (s : State) (k : Nat) (f g : Chip → Chip) :
    (s.updateChip k f).updateChip k g = s.updateChip k (g ∘ f) :=
  congrArg (fun chips => { s with chips := chips }) (List.modify_modify_eq f g k s.chips)

theorem State.updateChip_comm (s : State) {k j : Nat} (hkj : k ≠ j) (f g : Chip → Chip) :
    (s.updateChip k f).updateChip j g = (s.updateChip j g).updateChip k f :=
  congrArg (fun chips => { s with chips := chips }) (List.modify_modify_ne f g s.chips hkj)

theorem State.updateChip_eq_self (s : State) (k : Nat) (f : Chip → Chip) (h : f (s.chip k) = s.chip k) :
    s.updateChip k f = s := by
  rw [s.updateChip_congr k f id h, State.updateChip, List.modify_id]

/-! ## A store (R83, R200) -/

/-- A chip with the byte `d` stored at address `a`. -/
def Chip.store (a : Nat) (d : Byte) (x : Chip) : Chip := { x with mem := Memory.write x.mem a d }

/-- Chip `k` is there and `a` is an address of its memory. -/
abbrev State.Addresses (s : State) (k a : Nat) : Prop := k < s.cfg.nchip ∧ a < (s.cfg.chip k).memSize

/-- The state with the byte `d` stored at address `a` of chip `k`, or as it was where there is no such byte. -/
def State.store (s : State) (k a : Nat) (d : Byte) : State :=
  if s.Addresses k a then s.updateChip k (Chip.store a d) else s

theorem exec_wmem (k : BitVec 4) (a : BitVec 32) (d : Byte) (s : State) :
    exec (.wmem k a d) s = .next ((s.store k.toNat a.toNat d).respond none) := by
  change execWmem k a d s = _
  unfold State.store
  split
  next h => exact execWmem_stores k a d s h.1 h.2
  next h => exact execWmem_ignored k a d s (by omega)

theorem State.store_of_addresses {s : State} {k a : Nat} (h : s.Addresses k a) (d : Byte) :
    s.store k a d = s.updateChip k (Chip.store a d) := if_pos h

theorem State.store_of_not_addresses {s : State} {k a : Nat} (h : ¬ s.Addresses k a) (d : Byte) :
    s.store k a d = s := if_neg h

@[simp] theorem State.store_cfg (s : State) (k a : Nat) (d : Byte) : (s.store k a d).cfg = s.cfg := by
  unfold State.store
  split <;> rfl

theorem State.store_addresses (s : State) (k a : Nat) (d : Byte) (j b : Nat) :
    (s.store k a d).Addresses j b ↔ s.Addresses j b := by
  rw [State.Addresses, State.store_cfg]

/-- A store does not look at the output port. -/
theorem State.respond_store (s : State) (o : Option Pair) (k a : Nat) (d : Byte) :
    (s.respond o).store k a d = (s.store k a d).respond o := by
  by_cases h : s.Addresses k a
  · rw [State.store_of_addresses h, State.store_of_addresses (s := s.respond o) h]
    rfl
  · rw [State.store_of_not_addresses h, State.store_of_not_addresses (s := s.respond o) h]

theorem State.Inv.mem_wf {s : State} (hs : s.Inv) {k : Nat} (hk : k < s.cfg.nchip) : Memory.wf (s.chip k).mem := by
  obtain ⟨-, -, hok⟩ := hs
  obtain ⟨-, -, ⟨hwf, -⟩, -⟩ := hok k hk
  exact hwf

/-- A store changes nothing outside its chip. -/
theorem State.store_sameOutsideChip {s : State} {k a : Nat} (h : s.Addresses k a) (d : Byte) :
    SameOutsideChip s (s.store k a d) k := by
  rw [State.store_of_addresses h]
  exact ⟨rfl, rfl, rfl, s.updateChip_length k _, fun j hj => s.updateChip_chip_ne k j _ hj⟩

theorem State.store_chip {s : State} (hs : s.Inv) {k a : Nat} (h : s.Addresses k a) (d : Byte) :
    (s.store k a d).chip k = (s.chip k).store a d := by
  obtain ⟨-, hcount, -⟩ := hs
  rw [State.store_of_addresses h, State.updateChip_chip_self _ _ _ (hcount.symm ▸ h.1)]

/-- The bytes after a store: the new one in its place, every other of every chip as it was. -/
theorem State.store_readByte {s : State} (hs : s.Inv) {k a : Nat} (h : s.Addresses k a) (d : Byte) (j b : Nat) :
    (s.store k a d).readByte j b = if j = k ∧ b = a then d else s.readByte j b := by
  by_cases hj : j = k
  · subst hj
    rw [State.readByte, State.store_chip hs h, Chip.store, Memory.read_write _ (hs.mem_wf h.1), State.readByte]
    exact if_congr (by simp) rfl rfl
  · rw [if_neg fun h' => hj h'.1, State.readByte, (State.store_sameOutsideChip h d).chips j hj, State.readByte]

/-- Repeating a store changes nothing. -/
theorem State.store_store {s : State} (hs : s.Inv) (k a : Nat) (d : Byte) :
    (s.store k a d).store k a d = s.store k a d := by
  by_cases h : s.Addresses k a
  · rw [State.store_of_addresses ((s.store_addresses k a d k a).mpr h), State.store_of_addresses h,
      State.updateChip_updateChip]
    refine s.updateChip_congr k _ _ ?_
    exact congrArg (fun mem => { s.chip k with mem := mem }) (Memory.write_write (hs.mem_wf h.1) a d d)
  · rw [State.store_of_not_addresses h, State.store_of_not_addresses h]

/-- Storing the byte that is there changes nothing. -/
theorem State.store_current {s : State} (hs : s.Inv) (k a : Nat) : s.store k a (s.readByte k a) = s := by
  by_cases h : s.Addresses k a
  · rw [State.store_of_addresses h]
    refine s.updateChip_eq_self k _ ?_
    rw [Chip.store, State.readByte, Memory.write_read (hs.mem_wf h.1)]
  · exact State.store_of_not_addresses h _

/-- Stores to different chips or addresses commute. -/
theorem State.store_comm {s : State} (hs : s.Inv) {k j a b : Nat} (hne : k ≠ j ∨ a ≠ b) (d e : Byte) :
    (s.store k a d).store j b e = (s.store j b e).store k a d := by
  have hk' := s.store_addresses j b e k a
  have hj' := s.store_addresses k a d j b
  by_cases hk : s.Addresses k a
  case neg => rw [State.store_of_not_addresses hk, State.store_of_not_addresses (mt hk'.mp hk)]
  by_cases hj : s.Addresses j b
  case neg => rw [State.store_of_not_addresses hj, State.store_of_not_addresses (mt hj'.mp hj)]
  rw [State.store_of_addresses (hj'.mpr hj), State.store_of_addresses hk, State.store_of_addresses (hk'.mpr hk),
    State.store_of_addresses hj]
  by_cases hkj : k = j
  · subst hkj
    rw [State.updateChip_updateChip, State.updateChip_updateChip]
    refine s.updateChip_congr k _ _ ?_
    have hab := hne.resolve_left (absurd rfl)
    exact congrArg (fun mem => { s.chip k with mem := mem }) (Memory.write_comm (hs.mem_wf hk.1) hab d e)
  · exact s.updateChip_comm hkj _ _

/-- Settles O27: the algebra of `State.store`, which the output port does not enter. -/
theorem wmemIsIdempotentAndCanonical : Obligations.WmemIsIdempotentAndCanonical := by
  refine ⟨fun s t k a d hs h => ?_, fun s k a hs => ?_, fun s t u t' u' k k' a a' d d' hs hne ht hu ht' hu' => ?_⟩
  · obtain rfl := Host.Outcome.next.inj ((exec_wmem k a d s).symm.trans h)
    rw [exec_wmem, State.respond_store, State.store_store hs]
    rfl
  · rw [exec_wmem, State.store_current hs]
    rfl
  · rw [exec_wmem] at ht hu ht' hu'
    cases ht
    cases hu
    cases ht'
    cases hu'
    have hne' : k.toNat ≠ k'.toNat ∨ a.toNat ≠ a'.toNat :=
      hne.imp (mt BitVec.eq_of_toNat_eq) (mt BitVec.eq_of_toNat_eq)
    rw [State.respond_store, State.respond_store, State.store_comm hs hne']

/-- Settles O26: `State.store` where the chip has the address and where it has not. -/
theorem wmemStoresOneByteOrNothing : Obligations.WmemStoresOneByteOrNothing := by
  refine ⟨decode_wmem, fun s k a d hs hk => ⟨fun ha => ?_, fun ha => ?_⟩⟩
  · have h : ¬ s.Addresses k.toNat a.toNat := fun h => Nat.not_lt.mpr ha h.2
    rw [exec_wmem, State.store_of_not_addresses h]
    rfl
  · have h : s.Addresses k.toNat a.toNat := ⟨hk, ha⟩
    have hchip := State.store_chip hs h d
    have hread := State.store_readByte hs h d
    have hnew : (s.store k.toNat a.toNat d).readByte k.toNat a.toNat = d := (hread _ _).trans (if_pos ⟨rfl, rfl⟩)
    obtain ⟨hcfg, hmix, hinputs, hcount, hchips⟩ := State.store_sameOutsideChip h d
    refine ⟨_, exec_wmem k a d s, rfl, ⟨hcfg, hmix, hinputs, hcount, hchips⟩, ?_, hnew,
      fun j b hne => (hread j b).trans (if_neg (by omega)), fun c _ hpos => ?_⟩
    · rw [State.respond_chip, hchip]
      rfl
    · have hch : (s.store k.toNat a.toNat d).channel k.toNat c = s.channel k.toNat c := by
        rw [State.channel, hchip]
        rfl
      have haddr : byteAddress (s.cfg.chip k.toNat) (s.channel k.toNat c).pos = a.toNat := by
        rw [byteAddress_eq, hpos]
        exact Nat.mod_eq_of_lt ha
      rw [fetchByte, State.respond_cfg, hcfg, State.respond_channel, hch, haddr]
      exact hnew

end Sys2Proof.Machine

/-! ## The round trip of a command's word -/

namespace Sys2Proof

theorem decode_packWreg_channel (k : BitVec 4) (slot : BitVec 3) (func : BitVec 4) (d : Byte) :
    decode (packWreg k (channelRegAddr slot func) d) = decodeChannel k slot func d := by
  rw [decode_channel _ (by simp) (by simp)]
  simp

theorem decode_packWreg_global (k : BitVec 4) (a d : Byte) (ha : a.getLsbD 7 = true) :
    decode (packWreg k a d) = decodeGlobal k a d := by
  rw [decode_global _ (by simp) (by simpa using ha)]
  simp

/-- Every command is read back from its word. -/
theorem decode_encode (i : Instr) : decode (encode i) = i := by
  cases i with
  | wregPosl k slot d | wregPosh k slot d | wregStepl k slot d | wregSteph k slot d | wregLoopl k slot d
  | wregLooph k slot d | wregStart k slot d | wregVol k slot d | wregPan k slot d =>
    exact decode_packWreg_channel k slot _ d
  | wregTrig k slot | wregRsvdChA k slot | wregRsvdChC k slot => exact decode_packWreg_channel k slot _ 0#8
  | wregGctrl k on bank =>
    rw [encode, decode_packWreg_global k _ _ rfl]
    simp [decodeGlobal]
  | wregChon k g d =>
    rw [encode, decode_packWreg_global k _ _ (chonRegAddr_space g)]
    simp [decodeGlobal]
  | wregRsvdG81 k | wregRsvdG82 k | wregRsvdG84 k | wregRsvdG88 k | wregRsvdGA0 k | wregRsvdGC0 k =>
    exact decode_packWreg_global k _ 0#8 rfl
  | wmem k a d =>
    rw [encode, decode_wmem _ (by simp)]
    simp
  | tick k =>
    rw [encode, decode_tick _ (by simp)]
    simp
  | wmixGvoll d | wmixGvolh d => simp [encode, decode]
  | nop | frame | rsvd6 | rsvd8 => rfl

end Sys2Proof

/-! ## The step that runs a presented word (R88) -/

namespace Sys2Proof.Machine

theorem step_of_command (s : State) (w : CommandWord) (rest : List HostInput) (hlegal : s.cfg.legal = true)
    (hinputs : s.inputs = .command w :: rest) : step s = exec (decode w) { s with inputs := rest } := by
  rw [step, if_pos hlegal, hinputs]
  simp only [ingest, State.dropInput, hinputs, List.tail_cons]

/-- A word placed whole is the next input. -/
theorem withFetchWord_inputs (s : State) (w : CommandWord) :
    (s.withFetchWord 48 w.toNat).inputs = .command w :: s.inputs := by
  rw [State.withFetchWord, presentWord, Nat.mod_eq_of_lt w.isLt, BitVec.ofNat_toNat, BitVec.setWidth_eq]

/-- Settles O7: a presented word is decoded and run; the word of a command decodes to it. -/
theorem stepRunsPresentedCommand : Obligations.StepRunsPresentedCommand := by
  refine ⟨step_of_command, fun s i rest hlegal hinputs => ?_, fun s w hlegal => ?_⟩
  · rw [step_of_command s _ rest hlegal hinputs, decode_encode]
  · exact step_of_command _ w s.inputs hlegal (withFetchWord_inputs s w)

end Sys2Proof.Machine
end

/-! PROOFS. Encoding (spec/30_encoding.md): the cases of `decode`, said once for each register space and for the whole word;
which bits of a word its row uses, and that a word has exactly one row. -/

namespace Sys2Proof

open Sys2Proof.Machine

/-! ## A word as its fields (R110) -/

theorem packWord_fields (w : CommandWord) : packWord (wordOp w) (wordChip w) (wordAddr w) (wordData w) = w := by
  apply BitVec.eq_of_toNat_eq
  rw [packWord_toNat, wordOp, wordChip, wordAddr, wordData, toNat_slice, toNat_slice, toNat_slice, toNat_slice]
  omega

/-- Masking a word masks each of its fields. -/
theorem and_packWord (w : CommandWord) (op chip : BitVec 4) (addr : BitVec 32) (data : Byte) :
    w &&& packWord op chip addr data =
      packWord (wordOp w &&& op) (wordChip w &&& chip) (wordAddr w &&& addr) (wordData w &&& data) := by
  conv_lhs => rw [← packWord_fields w]
  change ((_ ++ _ ++ _ ++ _ : BitVec (4 + 4 + 32 + 8)) &&& (_ ++ _ ++ _ ++ _ : BitVec (4 + 4 + 32 + 8))) = _
  rw [BitVec.and_append, BitVec.and_append, BitVec.and_append]
  rfl

/-- A mask of the register address alone drops `ADDR[31:8]`. -/
theorem wordAddr_and_setWidth (w : CommandWord) (mask : Byte) :
    wordAddr w &&& mask.setWidth 32 = (wordRegAddr w &&& mask).setWidth 32 := by
  refine BitVec.eq_of_getLsbD_eq fun i hi => ?_
  rw [wordRegAddr_eq]
  by_cases hi8 : i < 8
  · simp [hi, hi8]
  · simp [hi, BitVec.getLsbD_of_ge mask i (Nat.le_of_not_lt hi8)]

theorem wordAddr_and_one (w : CommandWord) :
    wordAddr w &&& 1#32 = if (wordRegAddr w).getLsbD 0 then 1#32 else 0#32 := by
  have hbit : ∀ a : Byte, (a &&& 1#8).setWidth 32 = if a.getLsbD 0 then 1#32 else 0#32 := by decide
  exact (wordAddr_and_setWidth w 1#8).trans (hbit _)

theorem channelRegAddr_fields (a : Byte) (h7 : a.getLsbD 7 = false) : channelRegAddr (regSlot a) (regFunc a) = a := by
  have ha := (bit7_false_iff a).mp h7
  apply BitVec.eq_of_toNat_eq
  rw [channelRegAddr_toNat, regSlot, regFunc, toNat_slice, toNat_slice]
  omega

theorem bit7_eq (a : Byte) : a.getLsbD 7 = decide (a.toNat / 2 ^ 7 % 2 = 1) := by
  rw [← BitVec.testBit_toNat, Nat.testBit_eq_decide_div_mod_eq]

/-! ## The cases of `decode` (R116, R117, R122) -/

theorem decodeChannel_funcCode (k : BitVec 4) (slot : BitVec 3) (func : ChannelFunc) (d : Byte) :
    decodeChannel k slot (BitVec.ofNat 4 (funcCode func)) d = funcInstr func k slot d := by
  cases func <;> rfl

/-- Every function code is one of the ten functions' or reserved. -/
theorem funcCode_cases : ∀ f : BitVec 4,
    (∃ func ∈ [ChannelFunc.posl, .posh, .stepl, .steph, .loopl, .looph, .start, .vol, .pan, .trig],
      f = BitVec.ofNat 4 (funcCode func)) ∨
    (f = 0xA#4 ∨ f = 0xB#4) ∨ f = 0xC#4 ∨ f = 0xD#4 ∨ f = 0xE#4 ∨ f = 0xF#4 := by decide

/-- The channel register space: the ten functions, and the two reserved rows. -/
theorem decodeChannel_cases {motive : Instr → Prop} (k : BitVec 4) (slot : BitVec 3) (f : BitVec 4) (d : Byte)
    (func : ∀ func : ChannelFunc, f = BitVec.ofNat 4 (funcCode func) → motive (funcInstr func k slot d))
    (rsvdA : f &&& 0xE#4 = 0xA#4 → motive (.wregRsvdChA k slot))
    (rsvdC : f &&& 0xC#4 = 0xC#4 → motive (.wregRsvdChC k slot)) : motive (decodeChannel k slot f d) := by
  obtain ⟨g, -, rfl⟩ | (rfl | rfl) | rfl | rfl | rfl | rfl := funcCode_cases f
  · rw [decodeChannel_funcCode]
    exact func g rfl
  · exact rsvdA rfl
  · exact rsvdA rfl
  · exact rsvdC rfl
  · exact rsvdC rfl
  · exact rsvdC rfl
  · exact rsvdC rfl

/-- The global register space: GCTRL, CHON, and the six reserved rows. -/
theorem decodeGlobal_cases {motive : Instr → Prop} (k : BitVec 4) (a d : Byte) (h7 : a.getLsbD 7 = true)
    (gctrl : a = 0x80#8 → motive (.wregGctrl k (d.getLsbD 7) (d.extractLsb' 0 4)))
    (chon : a.extractLsb' 4 4 = 0x9#4 → motive (.wregChon k (regFunc a) d))
    (rsvd81 : a = 0x81#8 → motive (.wregRsvdG81 k)) (rsvd82 : a &&& 0xFE#8 = 0x82#8 → motive (.wregRsvdG82 k))
    (rsvd84 : a &&& 0xFC#8 = 0x84#8 → motive (.wregRsvdG84 k))
    (rsvd88 : a &&& 0xF8#8 = 0x88#8 → motive (.wregRsvdG88 k))
    (rsvdA0 : a &&& 0xE0#8 = 0xA0#8 → motive (.wregRsvdGA0 k))
    (rsvdC0 : a &&& 0xC0#8 = 0xC0#8 → motive (.wregRsvdGC0 k)) : motive (decodeGlobal k a d) := by
  have h82 : ∀ a : Byte, a.extractLsb' 1 7 = 0b1000001#7 → a &&& 0xFE#8 = 0x82#8 := by decide
  have h84 : ∀ a : Byte, a.extractLsb' 2 6 = 0b100001#6 → a &&& 0xFC#8 = 0x84#8 := by decide
  have h88 : ∀ a : Byte, a.extractLsb' 3 5 = 0b10001#5 → a &&& 0xF8#8 = 0x88#8 := by decide
  have hA0 : ∀ a : Byte, a.extractLsb' 5 3 = 0b101#3 → a &&& 0xE0#8 = 0xA0#8 := by decide
  have hC0 : ∀ a : Byte, a.getLsbD 7 = true → a = 0x80#8 ∨ a.extractLsb' 4 4 = 0x9#4 ∨ a = 0x81#8 ∨
      a.extractLsb' 1 7 = 0b1000001#7 ∨ a.extractLsb' 2 6 = 0b100001#6 ∨ a.extractLsb' 3 5 = 0b10001#5 ∨
      a.extractLsb' 5 3 = 0b101#3 ∨ a &&& 0xC0#8 = 0xC0#8 := by decide
  unfold decodeGlobal
  split_ifs with hgctrl hchon hr81 hr82 hr84 hr88 hrA0
  · exact gctrl hgctrl
  · exact chon hchon
  · exact rsvd81 hr81
  · exact rsvd82 (h82 a hr82)
  · exact rsvd84 (h84 a hr84)
  · exact rsvd88 (h88 a hr88)
  · exact rsvdA0 (hA0 a hrA0)
  · exact rsvdC0 (by simpa [hgctrl, hchon, hr81, hr82, hr84, hr88, hrA0] using hC0 a h7)

/-- A whole word, by its operation. -/
theorem decode_cases {motive : Instr → Prop} (w : CommandWord) (nop : wordOp w = 0x0#4 → motive .nop)
    (channel : wordOp w = 0x1#4 → (wordRegAddr w).getLsbD 7 = false →
      motive (decodeChannel (wordChip w) (regSlot (wordRegAddr w)) (regFunc (wordRegAddr w)) (wordData w)))
    (global : wordOp w = 0x1#4 → (wordRegAddr w).getLsbD 7 = true →
      motive (decodeGlobal (wordChip w) (wordRegAddr w) (wordData w)))
    (wmem : wordOp w = 0x2#4 → motive (.wmem (wordChip w) (wordAddr w) (wordData w)))
    (tick : wordOp w = 0x3#4 → motive (.tick (wordChip w))) (frame : wordOp w = 0x4#4 → motive .frame)
    (gvoll : wordOp w = 0x5#4 → (wordRegAddr w).getLsbD 0 = false → motive (.wmixGvoll (wordData w)))
    (gvolh : wordOp w = 0x5#4 → (wordRegAddr w).getLsbD 0 = true → motive (.wmixGvolh (wordData w)))
    (rsvd6 : wordOp w &&& 0xE#4 = 0x6#4 → motive .rsvd6) (rsvd8 : wordOp w &&& 0x8#4 = 0x8#4 → motive .rsvd8) :
    motive (decode w) := by
  have h6 : ∀ op : BitVec 4, op.extractLsb' 1 3 = 0b011#3 → op &&& 0xE#4 = 0x6#4 := by decide
  have h8 : ∀ op : BitVec 4, op ∉ [0x0#4, 0x1#4, 0x2#4, 0x3#4, 0x4#4, 0x5#4] → op.extractLsb' 1 3 ≠ 0b011#3 →
      op &&& 0x8#4 = 0x8#4 := by decide
  unfold decode
  dsimp only
  split_ifs with hnop hwreg hspace hwmem htick hframe hwmix hhalf hrsvd
  · exact nop hnop
  · exact channel hwreg hspace
  · exact global hwreg (Bool.eq_true_of_not_eq_false hspace)
  · exact wmem hwmem
  · exact tick htick
  · exact frame hframe
  · exact gvoll hwmix hhalf
  · exact gvolh hwmix (Bool.eq_true_of_not_eq_false hhalf)
  · exact rsvd6 (h6 _ hrsvd)
  · exact rsvd8 (h8 _ (by simp [hnop, hwreg, hwmem, htick, hframe, hwmix]) hrsvd)

/-! ## The round trips (R110, R111, R122) -/

/-- Settles O1: `decode_encode`. -/
theorem decodeUndoesEncode : Obligations.DecodeUndoesEncode := decode_encode

/-- A command's word is `w` with the ignored bits cleared when each of its fields is. -/
theorem encode_eq_and_used (w : CommandWord) {i : Instr} (op chip : BitVec 4) (addr : BitVec 32) (data : Byte)
    (hused : i.row.used = packWord op chip addr data)
    (hencode : encode i =
      packWord (wordOp w &&& op) (wordChip w &&& chip) (wordAddr w &&& addr) (wordData w &&& data)) :
    encode i = w &&& i.row.used := by
  rw [hencode, hused, and_packWord]

/-- For a WREG, when its register address and data are. -/
theorem encode_eq_and_used_wreg (w : CommandWord) (hop : wordOp w = 0x1#4) {i : Instr} (a d : Byte)
    (hused : i.row.used = packWord (.allOnes 4) (.allOnes 4) (a.setWidth 32) d)
    (hencode : encode i = packWreg (wordChip w) (wordRegAddr w &&& a) (wordData w &&& d)) :
    encode i = w &&& i.row.used := by
  refine encode_eq_and_used w _ _ _ _ hused ?_
  rw [hencode, packWreg, wordAddr_and_setWidth, BitVec.and_allOnes, BitVec.and_allOnes, hop]

theorem encode_decodeChannel (w : CommandWord) (hop : wordOp w = 0x1#4) (h7 : (wordRegAddr w).getLsbD 7 = false) :
    let i := decodeChannel (wordChip w) (regSlot (wordRegAddr w)) (regFunc (wordRegAddr w)) (wordData w)
    encode i = w &&& i.row.used := by
  have haddr := channelRegAddr_fields _ h7
  refine decodeChannel_cases (motive := fun i => encode i = w &&& i.row.used) _ _ _ _
    (fun func hfunc => ?_) (fun hf => ?_) (fun hf => ?_)
  · rw [hfunc] at haddr
    cases func with
    | trig =>
      refine encode_eq_and_used_wreg w hop (.allOnes 8) 0#8 rfl ?_
      rw [BitVec.and_allOnes, BitVec.and_zero]
      exact congrArg (packWreg (wordChip w) · 0#8) haddr
    | _ =>
      refine encode_eq_and_used_wreg w hop (.allOnes 8) (.allOnes 8) rfl ?_
      rw [BitVec.and_allOnes, BitVec.and_allOnes]
      exact congrArg (packWreg (wordChip w) · (wordData w)) haddr
  · have hmask : ∀ a : Byte, a.getLsbD 7 = false → regFunc a &&& 0xE#4 = 0xA#4 →
        a &&& 0xFE#8 = channelRegAddr (regSlot a) 0xA#4 := by decide
    refine encode_eq_and_used_wreg w hop 0xFE#8 0#8 rfl ?_
    rw [hmask _ h7 hf, BitVec.and_zero, encode]
  · have hmask : ∀ a : Byte, a.getLsbD 7 = false → regFunc a &&& 0xC#4 = 0xC#4 →
        a &&& 0xFC#8 = channelRegAddr (regSlot a) 0xC#4 := by decide
    refine encode_eq_and_used_wreg w hop 0xFC#8 0#8 rfl ?_
    rw [hmask _ h7 hf, BitVec.and_zero, encode]

theorem encode_decodeGlobal (w : CommandWord) (hop : wordOp w = 0x1#4) (h7 : (wordRegAddr w).getLsbD 7 = true) :
    let i := decodeGlobal (wordChip w) (wordRegAddr w) (wordData w)
    encode i = w &&& i.row.used := by
  have hgctrl : ∀ d : Byte, gctrlData (d.getLsbD 7) (d.extractLsb' 0 4) = d &&& 0x8F#8 := by decide
  have hchon : ∀ a : Byte, a.extractLsb' 4 4 = 0x9#4 → chonRegAddr (regFunc a) = a := by decide
  refine decodeGlobal_cases (motive := fun i => encode i = w &&& i.row.used) _ _ _ h7
    (fun h => encode_eq_and_used_wreg w hop (.allOnes 8) 0x8F#8 rfl ?_)
    (fun h => encode_eq_and_used_wreg w hop (.allOnes 8) (.allOnes 8) rfl ?_)
    (fun h => encode_eq_and_used_wreg w hop (.allOnes 8) 0#8 rfl ?_)
    (fun h => encode_eq_and_used_wreg w hop 0xFE#8 0#8 rfl ?_)
    (fun h => encode_eq_and_used_wreg w hop 0xFC#8 0#8 rfl ?_)
    (fun h => encode_eq_and_used_wreg w hop 0xF8#8 0#8 rfl ?_)
    (fun h => encode_eq_and_used_wreg w hop 0xE0#8 0#8 rfl ?_)
    (fun h => encode_eq_and_used_wreg w hop 0xC0#8 0#8 rfl ?_)
  · rw [BitVec.and_allOnes, h, encode, hgctrl]
  · rw [BitVec.and_allOnes, BitVec.and_allOnes, encode, hchon _ h]
  · rw [BitVec.and_allOnes, BitVec.and_zero, h, encode]
  all_goals rw [BitVec.and_zero, h, encode]

/-- Settles O2: row by row, what the row uses and what the encoder writes. -/
theorem encodeClearsExactlyIgnoredBits : Obligations.EncodeClearsExactlyIgnoredBits := by
  intro w
  refine decode_cases (motive := fun i => encode i = w &&& i.row.used) w
    (fun h => encode_eq_and_used w (.allOnes 4) 0#4 0#32 0#8 rfl ?_)
    (encode_decodeChannel w) (encode_decodeGlobal w)
    (fun h => encode_eq_and_used w (.allOnes 4) (.allOnes 4) (.allOnes 32) (.allOnes 8) rfl ?_)
    (fun h => encode_eq_and_used w (.allOnes 4) (.allOnes 4) 0#32 0#8 rfl ?_)
    (fun h => encode_eq_and_used w (.allOnes 4) 0#4 0#32 0#8 rfl ?_)
    (fun h h0 => encode_eq_and_used w (.allOnes 4) 0#4 1#32 (.allOnes 8) rfl ?_)
    (fun h h0 => encode_eq_and_used w (.allOnes 4) 0#4 1#32 (.allOnes 8) rfl ?_)
    (fun h => encode_eq_and_used w 0xE#4 0#4 0#32 0#8 rfl ?_)
    (fun h => encode_eq_and_used w 0x8#4 0#4 0#32 0#8 rfl ?_)
  all_goals simp only [encode, wordAddr_and_one, *, BitVec.and_allOnes, BitVec.and_zero, if_true, if_false,
    Bool.false_eq_true]

/-! ## One row per word (R120) -/

theorem row_selects_encode (i : Instr) : i.row.selects (encode i) = true :=
  match i with
  | .nop => Laws.MatchesRow.nop
  | .wregPosl k slot d => Laws.MatchesRow.wregPosl k slot d
  | .wregPosh k slot d => Laws.MatchesRow.wregPosh k slot d
  | .wregStepl k slot d => Laws.MatchesRow.wregStepl k slot d
  | .wregSteph k slot d => Laws.MatchesRow.wregSteph k slot d
  | .wregLoopl k slot d => Laws.MatchesRow.wregLoopl k slot d
  | .wregLooph k slot d => Laws.MatchesRow.wregLooph k slot d
  | .wregStart k slot d => Laws.MatchesRow.wregStart k slot d
  | .wregVol k slot d => Laws.MatchesRow.wregVol k slot d
  | .wregPan k slot d => Laws.MatchesRow.wregPan k slot d
  | .wregTrig k slot => Laws.MatchesRow.wregTrig k slot
  | .wregRsvdChA k slot => Laws.MatchesRow.wregRsvdChA k slot
  | .wregRsvdChC k slot => Laws.MatchesRow.wregRsvdChC k slot
  | .wregGctrl k on bank => Laws.MatchesRow.wregGctrl k on bank
  | .wregChon k g d => Laws.MatchesRow.wregChon k g d
  | .wregRsvdG81 k => Laws.MatchesRow.wregRsvdG81 k
  | .wregRsvdG82 k => Laws.MatchesRow.wregRsvdG82 k
  | .wregRsvdG84 k => Laws.MatchesRow.wregRsvdG84 k
  | .wregRsvdG88 k => Laws.MatchesRow.wregRsvdG88 k
  | .wregRsvdGA0 k => Laws.MatchesRow.wregRsvdGA0 k
  | .wregRsvdGC0 k => Laws.MatchesRow.wregRsvdGC0 k
  | .wmem k a d => Laws.MatchesRow.wmem k a d
  | .tick k => Laws.MatchesRow.tick k
  | .frame => Laws.MatchesRow.frame
  | .wmixGvoll d => Laws.MatchesRow.wmixGvoll d
  | .wmixGvolh d => Laws.MatchesRow.wmixGvolh d
  | .rsvd6 => Laws.MatchesRow.rsvd6
  | .rsvd8 => Laws.MatchesRow.rsvd8

theorem OpcodeRow.selects_iff (r : OpcodeRow) (w : CommandWord) : r.selects w = true ↔ w &&& r.mask = r.pattern :=
  beq_iff_eq

theorem and_used_and_mask {r : OpcodeRow} (hr : r ∈ opcodeRows) (w : CommandWord) :
    w &&& r.used &&& r.mask = w &&& r.mask := by
  have hfixed : ∀ r ∈ opcodeRows, r.used &&& r.mask = r.mask := by decide
  rw [BitVec.and_assoc, hfixed r hr]

/-- The row of the decoded command selects the word: a row's fixed bits are among those it uses, so they are those of the
encoded command. -/
theorem row_decode_selects (w : CommandWord) : (decode w).row.selects w = true := by
  have h := row_selects_encode (decode w)
  rwa [encodeClearsExactlyIgnoredBits w, OpcodeRow.selects_iff, and_used_and_mask (decode w).row_mem,
    ← OpcodeRow.selects_iff] at h

/-- Two rows of the table have different values at a bit that both fix. -/
theorem rows_disjoint : ∀ r ∈ opcodeRows, ∀ r' ∈ opcodeRows, r.pattern &&& r'.mask = r'.pattern &&& r.mask → r = r' := by
  decide

theorem row_unique {r r' : OpcodeRow} (hr : r ∈ opcodeRows) (hr' : r' ∈ opcodeRows) {w : CommandWord}
    (h : r.selects w = true) (h' : r'.selects w = true) : r = r' := by
  rw [OpcodeRow.selects_iff] at h h'
  refine rows_disjoint r hr r' hr' ?_
  rw [← h, ← h', BitVec.and_assoc, BitVec.and_assoc, BitVec.and_comm r.mask]

theorem decode_nop (w : CommandWord) (h : wordOp w = 0x0#4) : decode w = .nop := by
  rw [decode, if_pos h]

theorem decode_rsvd (w : CommandWord) (h : 6 ≤ (wordOp w).toNat) : decode w = .rsvd6 ∨ decode w = .rsvd8 := by
  have hop : ∀ op : BitVec 4, op.toNat < 6 → ¬ wordOp w = op := by
    rintro op hlt rfl
    omega
  rw [decode, if_neg (hop _ (by decide)), if_neg (hop _ (by decide)), if_neg (hop _ (by decide)),
    if_neg (hop _ (by decide)), if_neg (hop _ (by decide)), if_neg (hop _ (by decide))]
  split
  · exact .inl rfl
  · exact .inr rfl

/-- Settles O3: the rows are disjoint, and the commands of the codes without effect are quiet. -/
theorem everyWordIsOneRowAndNoneTraps : Obligations.EveryWordIsOneRowAndNoneTraps := by
  intro w
  refine ⟨⟨(decode w).row_mem, row_decode_selects w,
    fun r hr h => row_unique hr (decode w).row_mem h (row_decode_selects w)⟩, fun h => ?_, fun h => ?_, fun s => ⟨?_, ?_⟩⟩
  · rcases decode_rsvd w h with h' | h' <;> rw [h'] <;> rfl
  · rw [decode_nop w (BitVec.eq_of_toNat_eq h)]
    rfl
  · obtain ⟨t, ht, -⟩ := exec_transaction (decode w) s
    exact ⟨t, ht⟩
  · rintro (h | h)
    · exact exec_quiet _ (.inl (decode_nop w (BitVec.eq_of_toNat_eq h))) s
    · exact exec_quiet _ (.inr (by rcases decode_rsvd w h with h' | h' <;> rw [h'] <;> rfl)) s

/-- Settles O4: each word is decoded. -/
theorem exampleWordsDecode : Obligations.ExampleWordsDecode := by
  unfold Obligations.ExampleWordsDecode
  decide

end Sys2Proof

/-! PROOFS. The assembler (spec/30_encoding.md R123, R124): the word of each line decodes to the command the line names, and
the words of a pseudo-instruction to the commands of its expansion. -/

namespace Sys2Proof.Machine

/-! ## The words of lines (R123) -/

theorem funcCode_lt (func : ChannelFunc) : funcCode func < 0xA := by
  cases func <;> decide

/-- A WREG line's slot and function code make the address of R115. -/
theorem ofNat_slot_func (func : ChannelFunc) (slot : Nat) (h : slot < 8) :
    BitVec.ofNat 8 ((slot <<< 4) ||| funcCode func) =
      channelRegAddr (BitVec.ofNat 3 slot) (BitVec.ofNat 4 (funcCode func)) := by
  have hcode : funcCode func < 2 ^ 4 := (funcCode_lt func).trans (by decide)
  apply BitVec.eq_of_toNat_eq
  rw [channelRegAddr_toNat, ← Nat.shiftLeft_add_eq_or_of_lt hcode, Nat.shiftLeft_eq, BitVec.toNat_ofNat,
    BitVec.toNat_ofNat, BitVec.toNat_ofNat]
  omega

theorem ofNat_chon (g : Nat) (h : g < 16) : BitVec.ofNat 8 (0x90 + g) = chonRegAddr (BitVec.ofNat 4 g) := by
  apply BitVec.eq_of_toNat_eq
  rw [chonRegAddr_toNat, BitVec.toNat_ofNat, BitVec.toNat_ofNat]
  omega

theorem decode_asm_wregFunc (k slot d : Nat) (func : ChannelFunc) (h : slot < 8) :
    decode (asmWord (.wregFunc k func slot d)) =
      funcInstr func (BitVec.ofNat 4 k) (BitVec.ofNat 3 slot) (BitVec.ofNat 8 d) := by
  rw [asmWord, wregWord, ofNat_slot_func func slot h, decode_packWreg_channel, decodeChannel_funcCode]

/-- The fields of a raw WREG line: the register address is cut to eight bits. -/
theorem asm_wreg_fields (k a d : Nat) : wordOp (asmWord (.wreg k a d)) = 0x1#4 ∧
    wordChip (asmWord (.wreg k a d)) = BitVec.ofNat 4 k ∧
    wordAddr (asmWord (.wreg k a d)) = BitVec.ofNat 32 (a % 2 ^ 8) ∧
    wordData (asmWord (.wreg k a d)) = BitVec.ofNat 8 d := by
  refine ⟨wordOp_packWreg _ _ _, wordChip_packWreg _ _ _, ?_, wordData_packWreg _ _ _⟩
  rw [asmWord, wregWord, packWreg, wordAddr_packWord]
  apply BitVec.eq_of_toNat_eq
  rw [BitVec.toNat_setWidth, BitVec.toNat_ofNat, BitVec.toNat_ofNat]

theorem decode_asm_wregGctrl (k d : Nat) : decode (asmWord (.wregGctrl k d)) =
    .wregGctrl (BitVec.ofNat 4 k) (decide (d / 2 ^ 7 % 2 = 1)) (BitVec.ofNat 4 d) := by
  have hon : (BitVec.ofNat 8 d).getLsbD 7 = decide (d / 2 ^ 7 % 2 = 1) := by
    rw [bit7_eq, BitVec.toNat_ofNat]
    exact decide_eq_decide.mpr (by omega)
  have hbank : (BitVec.ofNat 8 d).extractLsb' 0 4 = BitVec.ofNat 4 d := by
    apply BitVec.eq_of_toNat_eq
    rw [toNat_slice, BitVec.toNat_ofNat, BitVec.toNat_ofNat]
    omega
  rw [asmWord, wregWord, decode_packWreg_global _ _ _ rfl, ← hon, ← hbank]
  rfl

theorem decode_asm_wregChon (k g d : Nat) (h : g < 16) : decode (asmWord (.wregChon k g d)) =
    .wregChon (BitVec.ofNat 4 k) (BitVec.ofNat 4 g) (BitVec.ofNat 8 d) := by
  rw [asmWord, wregWord, ofNat_chon g h]
  exact decode_encode (.wregChon _ _ _)

theorem decode_asm_wmem (k a d : Nat) :
    decode (asmWord (.wmem k a d)) = .wmem (BitVec.ofNat 4 k) (BitVec.ofNat 32 a) (BitVec.ofNat 8 d) :=
  decode_encode (.wmem _ _ _)

theorem decode_asm_wmixGvoll (d : Nat) : decode (asmWord (.wmixGvoll d)) = .wmixGvoll (BitVec.ofNat 8 d) :=
  decode_encode (.wmixGvoll _)

theorem decode_asm_wmixGvolh (d : Nat) : decode (asmWord (.wmixGvolh d)) = .wmixGvolh (BitVec.ofNat 8 d) :=
  decode_encode (.wmixGvolh _)

/-- Settles O5: line by line; where the assembler writes the encoder's word, by the round trip. -/
theorem assemblerWordsDecode : Obligations.AssemblerWordsDecode :=
  ⟨decode_asm_wregFunc, asm_wreg_fields, decode_asm_wregGctrl, decode_asm_wregChon, decode_asm_wmem,
    fun _ => decode_encode (.tick _), fun d => ⟨decode_asm_wmixGvoll d, decode_asm_wmixGvolh d⟩, rfl, rfl⟩

/-! ## The pseudo-instructions (R124) -/

/-- A byte field cuts a number to its low byte by itself. -/
theorem ofNat_mod_byte (v : Nat) : BitVec.ofNat 8 (v % 2 ^ 8) = BitVec.ofNat 8 v :=
  BitVec.eq_of_toNat_eq (by rw [BitVec.toNat_ofNat, BitVec.toNat_ofNat, Nat.mod_mod])

/-- A pair of register writes carries the low byte of the value, then the high byte. -/
theorem decode_funcPair (k s v : Nat) (low high : ChannelFunc) (h : s < 8) :
    ([AsmLine.wregFunc k low s (lowOf v), .wregFunc k high s (highOf v)].map asmWord).map decode =
      [funcInstr low (BitVec.ofNat 4 k) (BitVec.ofNat 3 s) (BitVec.ofNat 8 v),
       funcInstr high (BitVec.ofNat 4 k) (BitVec.ofNat 3 s) (BitVec.ofNat 8 (v / 2 ^ 8))] := by
  simp only [List.map_cons, List.map_nil, decode_asm_wregFunc _ _ _ _ h, lowOf, highOf, ofNat_mod_byte]

/-- CHIPON and CHIPOFF write the bank below the enable bit. -/
theorem decode_chipControl (k b : Nat) (on : Bool) :
    decode (asmWord (.wregGctrl k (on.toNat * 2 ^ 7 + b % 2 ^ 4))) =
      .wregGctrl (BitVec.ofNat 4 k) on (BitVec.ofNat 4 b) := by
  have hbank : BitVec.ofNat 4 (on.toNat * 2 ^ 7 + b % 2 ^ 4) = BitVec.ofNat 4 b := by
    apply BitVec.eq_of_toNat_eq
    rw [BitVec.toNat_ofNat, BitVec.toNat_ofNat]
    omega
  have hon : decide ((on.toNat * 2 ^ 7 + b % 2 ^ 4) / 2 ^ 7 % 2 = 1) = on := by
    cases on
    · exact decide_eq_false (by rw [Bool.toNat_false]; omega)
    · exact decide_eq_true (by rw [Bool.toNat_true]; omega)
  rw [decode_asm_wregGctrl, hbank, hon]

/-- A load is one WMEM for each byte, at rising addresses. -/
theorem decode_loadLines (k a : Nat) (bs : List Nat) :
    ((loadLines k a bs).map asmWord).map decode =
      bs.mapIdx fun n b => .wmem (BitVec.ofNat 4 k) (BitVec.ofNat 32 (a + n)) (BitVec.ofNat 8 b) := by
  induction bs generalizing a with
  | nil => rfl
  | cons b bs ih =>
    rw [loadLines, List.map_cons, List.map_cons, decode_asm_wmem, ih, List.mapIdx_cons]
    simp only [Nat.add_zero, Nat.add_assoc, Nat.add_comm 1]

/-- Settles O6: the lines of each expansion, decoded. -/
theorem pseudoInstructionsExpand : Obligations.PseudoInstructionsExpand := by
  refine ⟨fun k s v h => ⟨decode_funcPair k s v .stepl .steph h, decode_funcPair k s v .loopl .looph h,
    decode_funcPair k s v .posl .posh h, congrArg (fun i => [i]) (decode_asm_wregFunc k s 0 .trig h)⟩,
    fun k b => ⟨?_, ?_⟩, fun v => ?_, decode_loadLines⟩
  · have hor : 0x80 ||| b % 2 ^ 4 = 0x80 + b % 2 ^ 4 :=
      (Nat.two_pow_add_eq_or_of_lt (i := 7) (by omega) 1).symm
    rw [pseudoWords, expandPseudo, hor]
    exact congrArg (fun i => [i]) (decode_chipControl k b true)
  · rw [pseudoWords, expandPseudo, ← Nat.zero_add (b % 2 ^ 4)]
    exact congrArg (fun i => [i]) (decode_chipControl k b false)
  · simp only [pseudoWords, expandPseudo, List.map_cons, List.map_nil, decode_asm_wmixGvoll, decode_asm_wmixGvolh, lowOf,
      highOf, ofNat_mod_byte]

end Sys2Proof.Machine

/-! PROOFS. Commands that reach nothing: the chip is not there (spec/30_encoding.md R113), or the register address or the
operation is reserved (R118, spec/40_register_write.md R153, R154). -/

namespace Sys2Proof.Machine

/-! ## The chip a command acts on (R113) -/

/-- Every WREG, the reserved ones too, is a register write to chip CHIP (R140). -/
theorem exec_wreg (w : CommandWord) (hop : wordOp w = 0x1#4) (s : State) :
    ∃ f, exec (decode w) s = .next (writeGlobal (wordChip w) f s) := by
  cases h7 : (wordRegAddr w).getLsbD 7
  case false =>
    rw [decode_channel w hop h7]
    exact decodeChannel_cases (motive := fun i => ∃ f, exec i s = .next (writeGlobal (wordChip w) f s)) _ _ _ _
      (fun func _ => ⟨_, exec_funcInstr func _ _ _ s⟩) (fun _ => ⟨_, rfl⟩) (fun _ => ⟨_, rfl⟩)
  case true =>
    rw [decode_global w hop h7]
    exact decodeGlobal_cases (motive := fun i => ∃ f, exec i s = .next (writeGlobal (wordChip w) f s)) _ _ _ h7
      (fun _ => ⟨_, rfl⟩) (fun _ => ⟨_, rfl⟩) (fun _ => ⟨_, rfl⟩) (fun _ => ⟨_, rfl⟩) (fun _ => ⟨_, rfl⟩)
      (fun _ => ⟨_, rfl⟩) (fun _ => ⟨_, rfl⟩) (fun _ => ⟨_, rfl⟩)

theorem SameOutsideChip.respond {s t : State} {k : Nat} (h : SameOutsideChip s t k) (o : Option Pair) :
    SameOutsideChip s (t.respond o) k :=
  ⟨h.cfg, h.mix, h.inputs, h.count, h.chips⟩

theorem sameOutsideChip_refl (s : State) (k : Nat) : SameOutsideChip s s k :=
  ⟨rfl, rfl, rfl, rfl, fun _ _ => rfl⟩

theorem sameOutsideChip_updateChip (s : State) (k : Nat) (f : Chip → Chip) : SameOutsideChip s (s.updateChip k f) k :=
  ⟨rfl, rfl, rfl, s.updateChip_length k f, fun j hj => s.updateChip_chip_ne k j f hj⟩

theorem sameOutsideChip_writeGlobal (k : BitVec 4) (f : Config → ChipConfig → Chip → Chip) (s : State) :
    SameOutsideChip s (writeGlobal k f s) k.toNat := by
  unfold writeGlobal
  split
  · exact (sameOutsideChip_updateChip s _ _).respond none
  · exact (sameOutsideChip_refl s _).respond none

theorem sameOutsideChip_store (s : State) (k a : Nat) (d : Byte) : SameOutsideChip s (s.store k a d) k := by
  by_cases h : s.Addresses k a
  · exact State.store_sameOutsideChip h d
  · rw [State.store_of_not_addresses h]
    exact sameOutsideChip_refl s k

theorem exec_tick_sameOutsideChip (k : BitVec 4) (s : State) :
    ∃ t, exec (.tick k) s = .next t ∧ SameOutsideChip s t k.toNat := by
  rw [exec, execTick]
  split
  · exact ⟨_, rfl, (sameOutsideChip_updateChip s _ _).respond _⟩
  · exact ⟨_, rfl, (sameOutsideChip_refl s _).respond _⟩

/-- The operations that do not address a chip decode without CHIP. -/
theorem decode_eq_of_chipless (w w' : CommandWord) (h1 : wordOp w ≠ 0x1#4) (h2 : wordOp w ≠ 0x2#4)
    (h3 : wordOp w ≠ 0x3#4) (hop : wordOp w' = wordOp w) (haddr : wordAddr w' = wordAddr w)
    (hdata : wordData w' = wordData w) : decode w' = decode w := by
  simp only [decode, wordRegAddr_eq, hop, haddr, hdata, if_neg h1, if_neg h2, if_neg h3]

/-- Settles O15: each of the three operations acts on chip CHIP alone, by the one rule of its shape. -/
theorem commandsToAbsentChipsChangeNothing : Obligations.CommandsToAbsentChipsChangeNothing := by
  refine ⟨fun s w habsent => ⟨?_, fun hop => ?_⟩, fun s w => ?_, decode_eq_of_chipless⟩
  · rintro (hop | hop)
    · obtain ⟨f, hf⟩ := exec_wreg w hop s
      rw [hf, writeGlobal_absent _ f s habsent]
      rfl
    · rw [decode_wmem w hop, exec_wmem, State.store_of_not_addresses fun h => Nat.not_lt.mpr habsent h.1]
      rfl
  · rw [decode_tick w hop]
    exact execTick_absent _ s habsent
  · rintro (hop | hop | hop)
    · obtain ⟨f, hf⟩ := exec_wreg w hop s
      exact ⟨_, hf, sameOutsideChip_writeGlobal _ f s⟩
    · rw [decode_wmem w hop]
      exact ⟨_, exec_wmem _ _ _ s, (sameOutsideChip_store s _ _ _).respond none⟩
    · rw [decode_tick w hop]
      exact exec_tick_sameOutsideChip _ s

/-! ## Reserved registers (R118, R153, R154) -/

theorem decode_isReserved_channel (w : CommandWord) (hop : wordOp w = 0x1#4) (hspace : (wordRegAddr w).toNat < 0x80)
    (hfunc : 0xA ≤ (wordRegAddr w).toNat % 16) : (decode w).isReserved = true := by
  rw [decode_channel w hop ((bit7_false_iff _).mpr hspace)]
  refine decodeChannel_cases (motive := fun i => i.isReserved = true) _ _ _ _ (fun func h => ?_) (fun _ => rfl)
    (fun _ => rfl)
  have hcode := funcCode_lt func
  have hf := congrArg BitVec.toNat h
  rw [regFunc, toNat_slice, BitVec.toNat_ofNat] at hf
  omega

theorem decode_isReserved_global (w : CommandWord) (hop : wordOp w = 0x1#4)
    (ha : (0x81 ≤ (wordRegAddr w).toNat ∧ (wordRegAddr w).toNat ≤ 0x8F) ∨ 0xA0 ≤ (wordRegAddr w).toNat) :
    (decode w).isReserved = true := by
  have h7 : (wordRegAddr w).getLsbD 7 = true := by
    rw [← Bool.not_eq_false, bit7_false_iff]
    omega
  rw [decode_global w hop h7]
  refine decodeGlobal_cases (motive := fun i => i.isReserved = true) _ _ _ h7 (fun h => ?_) (fun h => ?_) (fun _ => rfl)
    (fun _ => rfl) (fun _ => rfl) (fun _ => rfl) (fun _ => rfl) (fun _ => rfl)
  · rw [h, BitVec.toNat_ofNat] at ha
    omega
  · have hchon := congrArg BitVec.toNat h
    rw [toNat_slice, BitVec.toNat_ofNat] at hchon
    omega

theorem decode_gctrl (w : CommandWord) (hop : wordOp w = 0x1#4) (ha : wordRegAddr w = 0x80#8) :
    decode w = .wregGctrl (wordChip w) ((wordData w).getLsbD 7) ((wordData w).extractLsb' 0 4) := by
  rw [decode_global w hop (by rw [ha]; rfl), ha, decodeGlobal, if_pos rfl]

/-- Settles O25: reserved commands are quiet, reserved addresses decode to them, and GCTRL's data byte is read in two fields. -/
theorem reservedRegistersAreIgnored : Obligations.ReservedRegistersAreIgnored := by
  refine ⟨fun s i h => exec_quiet i (.inr h) s, fun w hop ha => ?_, fun w w' hop hop' ha ha' hchip hon hbank => ?_⟩
  · obtain ⟨hspace, hfunc⟩ | ha := ha
    · exact decode_isReserved_channel w hop hspace hfunc
    · exact decode_isReserved_global w hop ha
  · have hbank' : (wordData w').extractLsb' 0 4 = (wordData w).extractLsb' 0 4 := by
      apply BitVec.eq_of_toNat_eq
      rw [toNat_slice, toNat_slice, Nat.pow_zero, Nat.div_one, Nat.div_one, hbank]
    rw [decode_gctrl w hop ha, decode_gctrl w' hop' ha', hchip, bit7_eq, bit7_eq, hon, hbank']

end Sys2Proof.Machine

/-! PROOFS. Register writes (spec/40_register_write.md): what a WREG of each space changes and leaves alone, said once
for the ten channel functions (`exec_func_present`), and the value that each function, GCTRL and CHON write. -/

namespace Sys2Proof.Machine

/-! ## The channel that a write reaches (R115, R140) -/

theorem channelIndex_eq_target (s : State) (k : Nat) (slot : BitVec 3) :
    channelIndex s.cfg (s.chip k).bank slot = s.target k slot := by
  rw [channelIndex, State.target, ← Nat.shiftLeft_add_eq_or_of_lt slot.isLt, Nat.shiftLeft_eq, Nat.mul_comm]

theorem State.Inv.target_lt {s : State} (hs : s.Inv) (k : Nat) (slot : BitVec 3) : s.target k slot < s.cfg.nch := by
  obtain ⟨hlegal, -⟩ := hs
  simp only [Config.legal, Bool.and_eq_true, decide_eq_true_eq] at hlegal
  exact Nat.mod_lt _ (by omega)

theorem State.Inv.channel_count {s : State} (hs : s.Inv) {k : Nat} (hk : k < s.cfg.nchip) :
    (s.chip k).ch.length = s.cfg.nch := by
  obtain ⟨-, -, hok⟩ := hs
  obtain ⟨hlen, -⟩ := hok k hk
  exact hlen

theorem State.Inv.channel_pos_lt {s : State} (hs : s.Inv) {k c : Nat} (hk : k < s.cfg.nchip) (hc : c < s.cfg.nch) :
    (s.channel k c).pos < 2 ^ (s.cfg.chip k).pw := by
  have hmem := (s.chip k).channel_mem c (by rwa [hs.channel_count hk])
  obtain ⟨-, -, hok⟩ := hs
  obtain ⟨-, hpos, -⟩ := hok k hk
  exact hpos _ hmem

/-- A legal chip has at least eight address bits (R7). -/
theorem State.Inv.addrBits_ge {s : State} (hs : s.Inv) {k : Nat} (hk : k < s.cfg.nchip) :
    8 ≤ (s.cfg.chip k).addrBits := by
  obtain ⟨hlegal, -⟩ := hs
  have hchip := Config.legal_chip s.cfg hlegal k hk
  simp only [ChipConfig.legal, Bool.and_eq_true, decide_eq_true_eq] at hchip
  omega

/-- A channel's byte address, without the cut to ADDR_BITS bits that its position does not need (R81). -/
theorem State.Inv.byteAddress_channel {s : State} (hs : s.Inv) {k c : Nat} (hk : k < s.cfg.nchip) (hc : c < s.cfg.nch) :
    byteAddress (s.cfg.chip k) (s.channel k c).pos = (s.channel k c).pos / 2 ^ (s.cfg.chip k).frac :=
  byteAddress_of_lt _ _ (hs.channel_pos_lt hk hc)

/-! ## Writes to a chip that is there -/

theorem writeGlobal_chip_present {s : State} (hs : s.Inv) {k : BitVec 4} (hk : k.toNat < s.cfg.nchip)
    (f : Config → ChipConfig → Chip → Chip) :
    (writeGlobal k f s).chip k.toNat = f s.cfg (s.cfg.chip k.toNat) (s.chip k.toNat) := by
  obtain ⟨-, hcount, -⟩ := hs
  rw [writeGlobal_chip, if_pos ⟨rfl, hk, hcount.symm ▸ hk⟩]

theorem writeChannel_channel_present {s : State} (hs : s.Inv) {k : BitVec 4} (hk : k.toNat < s.cfg.nchip)
    (slot : BitVec 3) (f : ChipConfig → Channel → Channel) :
    (writeChannel k slot f s).channel k.toNat (s.target k.toNat slot) =
      f (s.cfg.chip k.toNat) (s.channel k.toNat (s.target k.toNat slot)) := by
  have hc : s.target k.toNat slot < (s.chip k.toNat).ch.length :=
    (hs.channel_count hk).symm ▸ hs.target_lt k.toNat slot
  rw [State.channel, writeChannel, writeGlobal_chip_present hs hk, channelIndex_eq_target, Chip.updateChannel_channel,
    if_pos ⟨rfl, hc⟩, State.channel]

/-- A channel register write changes nothing but the channel its slot reaches, whether or not the chip is there. -/
theorem sameOutsideChannel_writeChannel (k : BitVec 4) (slot : BitVec 3) (f : ChipConfig → Channel → Channel)
    (s : State) : SameOutsideChannel s (writeChannel k slot f s) k.toNat (s.target k.toNat slot) where
  outside := sameOutsideChip_writeGlobal k _ s
  count := writeGlobal_proj k _ s _ (fun x => x.ch.length) fun _ x => x.updateChannel_length _ _
  chipOn := writeGlobal_proj k _ s _ Chip.chipOn fun _ _ => rfl
  bank := writeGlobal_proj k _ s _ Chip.bank fun _ _ => rfl
  lastL := writeGlobal_proj k _ s _ Chip.lastL fun _ _ => rfl
  lastR := writeGlobal_proj k _ s _ Chip.lastR fun _ _ => rfl
  racc := writeGlobal_proj k _ s _ Chip.racc fun _ _ => rfl
  channels e he := by
    rw [State.channel, writeChannel, writeGlobal_chip]
    split
    · rw [channelIndex_eq_target, Chip.updateChannel_channel, if_neg fun h => he h.1, State.channel]
    · rfl
  bytes j a := writeGlobal_proj k _ s j (fun x => Memory.read x.mem a) fun _ _ => rfl

/-- The byte that a channel reads after a write to it is the one at its new address. -/
theorem SameOutsideChannel.fetchByte_eq {s t : State} {k c : Nat} (h : SameOutsideChannel s t k c) (ch : Channel) :
    fetchByte (t.cfg.chip k) (t.chip k).mem ch = s.readByte k (byteAddress (s.cfg.chip k) ch.pos) := by
  rw [fetchByte, h.outside.cfg]
  exact h.bytes k _

/-- A channel function of a chip that is there: its effect on the channel the slot reaches, and on nothing else. -/
theorem exec_func_present {s : State} {k : BitVec 4} {slot : BitVec 3} {c : Nat} (func : ChannelFunc) (d : Byte)
    (hs : s.Inv) (hk : k.toNat < s.cfg.nchip) (hc : c = s.target k.toNat slot) :
    ∃ t, exec (funcInstr func k slot d) s = .next t ∧ t.out = none ∧ SameOutsideChannel s t k.toNat c ∧
      t.channel k.toNat c = funcEffect func d (s.cfg.chip k.toNat) (s.channel k.toNat c) := by
  subst hc
  exact ⟨_, exec_funcInstr func k slot d s, writeGlobal_out k _ s, sameOutsideChannel_writeChannel k slot _ s,
    writeChannel_channel_present hs hk slot _⟩

/-! ## The words of the register writes -/

theorem decode_func (w : CommandWord) (hop : wordOp w = 0x1#4) (h7 : (wordRegAddr w).getLsbD 7 = false)
    (func : ChannelFunc) (hfunc : regFunc (wordRegAddr w) = BitVec.ofNat 4 (funcCode func)) :
    decode w = funcInstr func (wordChip w) (regSlot (wordRegAddr w)) (wordData w) := by
  rw [decode_channel w hop h7, hfunc, decodeChannel_funcCode]

/-- The low bits of a word as a number cut to their width. -/
theorem extractLsb'_zero_eq_ofNat {n : Nat} (x : BitVec n) (len : Nat) :
    x.extractLsb' 0 len = BitVec.ofNat len x.toNat := rfl

/-- The addresses of CHON, `0x90` to `0x9F`. -/
theorem chon_space_iff (a : Byte) : a.extractLsb' 4 4 = 0x9#4 ↔ a.toNat / 16 = 9 := by
  rw [← BitVec.toNat_inj, toNat_slice, BitVec.toNat_ofNat]
  omega

theorem decode_chon (w : CommandWord) (hop : wordOp w = 0x1#4) (ha : (wordRegAddr w).toNat / 16 = 9) :
    decode w = .wregChon (wordChip w) (BitVec.ofNat 4 (wordRegAddr w).toNat) (wordData w) := by
  have h7 : (wordRegAddr w).getLsbD 7 = true := by
    rw [← Bool.not_eq_false, bit7_false_iff]
    omega
  have hgctrl : wordRegAddr w ≠ 0x80#8 := fun h => by
    rw [h, BitVec.toNat_ofNat] at ha
    omega
  rw [decode_global w hop h7, decodeGlobal, if_neg hgctrl, if_pos ((chon_space_iff _).mpr ha), regFunc,
    extractLsb'_zero_eq_ofNat]

/-- The global addresses that are neither GCTRL's nor CHON's are reserved. -/
theorem decode_isReserved_of_ne (w : CommandWord) (hop : wordOp w = 0x1#4) (h7 : (wordRegAddr w).getLsbD 7 = true)
    (hgctrl : wordRegAddr w ≠ 0x80#8) (hchon : (wordRegAddr w).extractLsb' 4 4 ≠ 0x9#4) :
    (decode w).isReserved = true := by
  refine decode_isReserved_global w hop ?_
  rw [← Bool.not_eq_false, bit7_false_iff] at h7
  rw [ne_eq, chon_space_iff] at hchon
  rw [ne_eq, ← BitVec.toNat_inj, BitVec.toNat_ofNat] at hgctrl
  omega

/-! ## What a WREG leaves alone (R140) -/

/-- What no register write changes of a chip: its last pair, its rate accumulator and its memory. -/
structure KeptByWrite (x y : Chip) : Prop where
  lastL : y.lastL = x.lastL
  lastR : y.lastR = x.lastR
  racc : y.racc = x.racc
  mem : y.mem = x.mem

theorem KeptByWrite.refl (x : Chip) : KeptByWrite x x := ⟨rfl, rfl, rfl, rfl⟩

theorem chonGroup_kept (g : BitVec 4) (d : Byte) (cfg : Config) (cc : ChipConfig) (x : Chip) :
    KeptByWrite x (chonGroup g d cfg cc x) :=
  ⟨chonGroup_lastL g d cfg cc x, chonGroup_lastR g d cfg cc x, chonGroup_racc g d cfg cc x, chonGroup_mem g d cfg cc x⟩

theorem chonGroup_registers (g : BitVec 4) (d : Byte) (cfg : Config) (cc : ChipConfig) (x : Chip) (c : Nat) :
    SameRegisters (x.channel c) ((chonGroup g d cfg cc x).channel c) := by
  rw [chonGroup_channel]
  split
  · split <;> exact ⟨rfl, rfl, rfl, rfl, rfl⟩
  · exact ⟨rfl, rfl, rfl, rfl, rfl⟩

/-- A word of the channel space, a reserved one too, writes to the channel of its slot. -/
theorem exec_wreg_channel (w : CommandWord) (hop : wordOp w = 0x1#4) (h7 : (wordRegAddr w).getLsbD 7 = false)
    (s : State) : ∃ f, exec (decode w) s = .next (writeChannel (wordChip w) (regSlot (wordRegAddr w)) f s) := by
  rw [decode_channel w hop h7]
  exact decodeChannel_cases
    (motive := fun i => ∃ f, exec i s = .next (writeChannel (wordChip w) (regSlot (wordRegAddr w)) f s)) _ _ _ _
    (fun func _ => ⟨_, exec_funcInstr func _ _ _ s⟩) (fun _ => ⟨_, rfl⟩) (fun _ => ⟨_, rfl⟩)

/-- Every WREG keeps of its chip what `KeptByWrite` lists. -/
theorem exec_wreg_kept (w : CommandWord) (hop : wordOp w = 0x1#4) (s : State) :
    ∃ f, exec (decode w) s = .next (writeGlobal (wordChip w) f s) ∧ ∀ cfg cc x, KeptByWrite x (f cfg cc x) := by
  cases h7 : (wordRegAddr w).getLsbD 7
  case false =>
    obtain ⟨f, hf⟩ := exec_wreg_channel w hop h7 s
    exact ⟨_, hf, fun _ _ x => ⟨rfl, rfl, rfl, rfl⟩⟩
  case true =>
    by_cases hgctrl : wordRegAddr w = 0x80#8
    · rw [decode_gctrl w hop hgctrl]
      exact ⟨_, rfl, fun _ _ x => ⟨rfl, rfl, rfl, rfl⟩⟩
    by_cases hchon : (wordRegAddr w).extractLsb' 4 4 = 0x9#4
    · rw [decode_chon w hop ((chon_space_iff _).mp hchon)]
      exact ⟨_, rfl, chonGroup_kept _ _⟩
    rw [exec_quiet _ (.inr (decode_isReserved_of_ne w hop h7 hgctrl hchon)) s]
    exact ⟨fun _ _ x => x, congrArg _ (writeGlobal_id _ _ s fun _ _ _ => rfl).symm, fun _ _ x => .refl x⟩

section
variable {s t : State} {w : CommandWord} (hop : wordOp w = 0x1#4) (hexec : exec (decode w) s = .next t)
include hop hexec

theorem wreg_channel_frame (h7 : (wordRegAddr w).getLsbD 7 = false) :
    SameOutsideChannel s t (wordChip w).toNat (s.target (wordChip w).toNat (regSlot (wordRegAddr w))) := by
  obtain ⟨f, hf⟩ := exec_wreg_channel w hop h7 s
  obtain rfl := Host.Outcome.next.inj (hf.symm.trans hexec)
  exact sameOutsideChannel_writeChannel _ _ f s

theorem wreg_gctrl_channel (ha : wordRegAddr w = 0x80#8) (k c : Nat) : t.channel k c = s.channel k c := by
  rw [decode_gctrl w hop ha] at hexec
  obtain rfl := Host.Outcome.next.inj hexec
  exact writeGlobal_proj _ _ s k (fun x => x.channel c) fun _ _ => rfl

theorem wreg_chon_frame (ha : (wordRegAddr w).extractLsb' 4 4 = 0x9#4) (k c : Nat) :
    (t.chip k).chipOn = (s.chip k).chipOn ∧ (t.chip k).bank = (s.chip k).bank ∧
      SameRegisters (s.channel k c) (t.channel k c) := by
  rw [decode_chon w hop ((chon_space_iff _).mp ha)] at hexec
  obtain rfl := Host.Outcome.next.inj hexec
  refine ⟨writeGlobal_proj _ _ s k Chip.chipOn fun cc x => chonGroup_chipOn _ _ s.cfg cc x,
    writeGlobal_proj _ _ s k Chip.bank fun cc x => chonGroup_bank _ _ s.cfg cc x, ?_⟩
  rw [State.channel, State.channel, writeGlobal_chip]
  split
  next hk => exact hk.1 ▸ chonGroup_registers _ _ _ _ _ c
  next => exact ⟨rfl, rfl, rfl, rfl, rfl⟩

theorem wreg_reserved_quiet (h7 : (wordRegAddr w).getLsbD 7 = true) (hgctrl : wordRegAddr w ≠ 0x80#8)
    (hchon : (wordRegAddr w).extractLsb' 4 4 ≠ 0x9#4) : t = s.quiet :=
  Host.Outcome.next.inj
    (hexec.symm.trans (exec_quiet _ (.inr (decode_isReserved_of_ne w hop h7 hgctrl hchon)) s))

end

/-- Settles O16: the frame of every WREG, then one lemma for each part of the register space. -/
theorem registerWritesChangeOnlyTheirTarget : Obligations.RegisterWritesChangeOnlyTheirTarget := by
  intro s w hop
  obtain ⟨f, hexec, hkept⟩ := exec_wreg_kept w hop s
  refine ⟨_, hexec, writeGlobal_out _ f s, sameOutsideChip_writeGlobal _ f s, writeGlobal_absent _ f s,
    fun j => ⟨?_, ?_, ?_, fun a => ?_⟩, wreg_channel_frame hop hexec, fun ha => wreg_gctrl_channel hop hexec ha _,
    wreg_chon_frame hop hexec, wreg_reserved_quiet hop hexec⟩
  · exact writeGlobal_proj _ f s j Chip.lastL fun _ _ => (hkept _ _ _).lastL
  · exact writeGlobal_proj _ f s j Chip.lastR fun _ _ => (hkept _ _ _).lastR
  · exact writeGlobal_proj _ f s j Chip.racc fun _ _ => (hkept _ _ _).racc
  · exact writeGlobal_proj _ f s j (fun x => Memory.read x.mem a) fun _ _ => by rw [(hkept _ _ _).mem]

/-! ## The position (R141, R142) -/

/-- The position of a byte of the memory is that byte's address with fraction 0. -/
theorem positionOf_of_lt (cc : ChipConfig) (a : Nat) (ha : a < cc.memSize) : positionOf cc a = a * 2 ^ cc.frac := by
  rw [positionOf, truncPos, Nat.shiftLeft_eq, ChipConfig.pw, Nat.pow_add]
  exact Nat.mod_eq_of_lt (Nat.mul_lt_mul_of_pos_right ha (Nat.two_pow_pos _))

/-- The fraction and the integer part of that position. -/
theorem positionOf_parts (cc : ChipConfig) (a : Nat) (ha : a < cc.memSize) :
    positionOf cc a % 2 ^ cc.frac = 0 ∧ positionOf cc a / 2 ^ cc.frac = a := by
  rw [positionOf_of_lt cc a ha]
  exact ⟨Nat.mul_mod_left _ _, Nat.mul_div_cancel _ (Nat.two_pow_pos _)⟩

theorem memSize_eq_bytes (cc : ChipConfig) (h : 8 ≤ cc.addrBits) : cc.memSize = 2 ^ 8 * 2 ^ (cc.addrBits - 8) := by
  rw [ChipConfig.memSize, ← Nat.pow_add, Nat.add_sub_cancel' h]

/-- A new low byte takes no address out of the memory. -/
theorem setAddressLow_lt (cc : ChipConfig) (h : 8 ≤ cc.addrBits) (a : Nat) (d : Byte) (ha : a < cc.memSize) :
    setAddressLow a d < cc.memSize := by
  rw [memSize_eq_bytes cc h] at ha ⊢
  rw [setAddressLow]
  omega

section
variable (cc : ChipConfig) (h : 8 ≤ cc.addrBits) (a : Nat) (d : Byte)
include h

/-- POSH keeps the low byte of the address. -/
theorem setAddressHigh_low_byte : setAddressHigh a d % cc.memSize % 2 ^ 8 = a % 2 ^ 8 := by
  rw [memSize_eq_bytes cc h, Nat.mod_mul_right_mod, setAddressHigh]
  omega

/-- The address above its low byte, cut to the address bits there are. -/
theorem setAddressHigh_div : setAddressHigh a d % cc.memSize / 2 ^ 8 =
    (a / 2 ^ 16 * 2 ^ 8 + d.toNat) % 2 ^ (cc.addrBits - 8) := by
  have hdiv : setAddressHigh a d / 2 ^ 8 = a / 2 ^ 16 * 2 ^ 8 + d.toNat := by
    rw [setAddressHigh]
    omega
  rw [memSize_eq_bytes cc h, Nat.mod_mul_right_div_self, hdiv]

/-- Byte 1 after POSH: either it is cut to the address bits there are, or there are at least 16 and it is whole. -/
theorem setAddressHigh_high_byte :
    setAddressHigh a d % cc.memSize / 2 ^ 8 % 2 ^ 8 = d.toNat % 2 ^ (cc.addrBits - 8) := by
  rw [setAddressHigh_div cc h]
  obtain hle | hge := Nat.le_total (cc.addrBits - 8) 8
  · have hdvd := Nat.pow_dvd_pow 2 hle
    have hlt : (a / 2 ^ 16 * 2 ^ 8 + d.toNat) % 2 ^ (cc.addrBits - 8) < 2 ^ 8 :=
      (Nat.mod_lt _ (Nat.two_pow_pos _)).trans_le (Nat.pow_le_pow_right (by omega) hle)
    rw [Nat.mod_eq_of_lt hlt, Nat.add_mod, Nat.mod_eq_zero_of_dvd (hdvd.mul_left _), Nat.zero_add, Nat.mod_mod]
  · have hlt : d.toNat < 2 ^ (cc.addrBits - 8) := d.isLt.trans_le (Nat.pow_le_pow_right (by omega) hge)
    rw [Nat.mod_mod_of_dvd _ (Nat.pow_dvd_pow 2 hge), Nat.mod_eq_of_lt hlt]
    omega

/-- The address bits from 16 up after POSH: either there are none, or nothing is cut. -/
theorem setAddressHigh_upper (ha : a < cc.memSize) : setAddressHigh a d % cc.memSize / 2 ^ 16 = a / 2 ^ 16 := by
  have hbytes (x : Nat) : x / 2 ^ 16 = x / 2 ^ 8 / 2 ^ 8 := by omega
  rw [hbytes (_ % _), setAddressHigh_div cc h]
  rw [memSize_eq_bytes cc h] at ha
  obtain hle | hge := Nat.le_total (cc.addrBits - 8) 8
  · have hpow : 2 ^ (cc.addrBits - 8) ≤ 2 ^ 8 := Nat.pow_le_pow_right (by omega) hle
    have hlt := Nat.mod_lt (a / 2 ^ 16 * 2 ^ 8 + d.toNat) (Nat.two_pow_pos (cc.addrBits - 8))
    omega
  · obtain ⟨n, hn⟩ := Nat.pow_dvd_pow 2 hge
    rw [hn] at ha ⊢
    rw [Nat.mod_eq_of_lt (by omega)]
    omega

end

/-- Settles O17: the new address is an address of the memory, so its position is that address with fraction 0. -/
theorem poslReplacesLowAddressByte : Obligations.PoslReplacesLowAddressByte := by
  refine ⟨fun w hop h7 hfunc => decode_func w hop h7 .posl hfunc, fun s k slot d c hs hk hc => ?_⟩
  obtain ⟨t, hexec, hout, hsame, hch⟩ := exec_func_present .posl d hs hk hc
  have haddr := hs.byteAddress_channel hk (hc ▸ hs.target_lt k.toNat slot)
  have hlt : setAddressLow (byteAddress (s.cfg.chip k.toNat) (s.channel k.toNat c).pos) d <
      (s.cfg.chip k.toNat).memSize := setAddressLow_lt _ (hs.addrBits_ge hk) _ d (byteAddress_lt _ _)
  obtain ⟨hfrac, hdiv⟩ := positionOf_parts _ _ hlt
  rw [funcEffect] at hch
  refine ⟨t, hexec, hout, hsame, by rw [hch], by rw [hch, hfrac], ?_⟩
  rw [hsame.fetchByte_eq, byteAddress_eq, hch, hdiv, Nat.mod_eq_of_lt hlt, setAddressLow, haddr]
  exact ⟨by omega, by omega, rfl⟩

/-- Settles O18: the new address part by part; its position is that address with fraction 0. -/
theorem poshReplacesHighAddressByte : Obligations.PoshReplacesHighAddressByte := by
  refine ⟨fun w hop h7 hfunc => decode_func w hop h7 .posh hfunc, fun s k slot d c hs hk hc => ?_⟩
  obtain ⟨t, hexec, hout, hsame, hch⟩ := exec_func_present .posh d hs hk hc
  have hbits := hs.addrBits_ge hk
  have haddr := hs.byteAddress_channel hk (hc ▸ hs.target_lt k.toNat slot)
  have hold := byteAddress_lt (s.cfg.chip k.toNat) (s.channel k.toNat c).pos
  have hcut (a : Nat) : a % (s.cfg.chip k.toNat).memSize < (s.cfg.chip k.toNat).memSize :=
    Nat.mod_lt _ (Nat.two_pow_pos _)
  obtain ⟨hfrac, hdiv⟩ := positionOf_parts _ _ (hcut (setAddressHigh (byteAddress _ (s.channel k.toNat c).pos) d))
  rw [funcEffect, ← ChipConfig.memSize] at hch
  refine ⟨t, hexec, hout, hsame, by rw [hch], by rw [hch, hfrac], ?_⟩
  rw [hch, hdiv, ← haddr]
  exact ⟨setAddressHigh_low_byte _ hbits _ d, setAddressHigh_high_byte _ hbits _ d,
    setAddressHigh_upper _ hbits _ d hold⟩

/-! ## The byte halves of STEP and LOOP, and the byte registers (R143 to R149) -/

theorem setLowByte_toNat (v : BitVec 16) (d : Byte) :
    (setLowByte v d).toNat = v.toNat / 2 ^ 8 * 2 ^ 8 + d.toNat := by
  have h : (setLowByte v d).toNat = BitVec.toNat (highByte v ++ d) := rfl
  rw [h, toNat_append_eq, highByte, toNat_slice]
  omega

theorem setHighByte_toNat (v : BitVec 16) (d : Byte) :
    (setHighByte v d).toNat = d.toNat * 2 ^ 8 + v.toNat % 2 ^ 8 := by
  have h : (setHighByte v d).toNat = BitVec.toNat (d ++ lowByte v) := rfl
  rw [h, toNat_append_eq, lowByte, toNat_slice, Nat.pow_zero, Nat.div_one]

/-- Settles O19: the effects of STEPL and STEPH. -/
theorem stepBytesAreWrittenSeparately : Obligations.StepBytesAreWrittenSeparately := by
  refine ⟨fun w hop h7 => ⟨decode_func w hop h7 .stepl, decode_func w hop h7 .steph⟩,
    fun s k slot d c hs hk hc => ⟨?_, ?_⟩⟩
  · obtain ⟨t, hexec, hout, hsame, hch⟩ := exec_func_present .stepl d hs hk hc
    rw [funcEffect] at hch
    exact ⟨t, hexec, hout, hsame, by rw [hch], by rw [hch, setLowByte_toNat]⟩
  · obtain ⟨t, hexec, hout, hsame, hch⟩ := exec_func_present .steph d hs hk hc
    rw [funcEffect] at hch
    exact ⟨t, hexec, hout, hsame, by rw [hch], by rw [hch, setHighByte_toNat]⟩

/-- Settles O20: the effects of LOOPL and LOOPH. -/
theorem loopBytesAreWrittenSeparately : Obligations.LoopBytesAreWrittenSeparately := by
  refine ⟨fun w hop h7 => ⟨decode_func w hop h7 .loopl, decode_func w hop h7 .looph⟩,
    fun s k slot d c hs hk hc => ⟨?_, ?_⟩⟩
  · obtain ⟨t, hexec, hout, hsame, hch⟩ := exec_func_present .loopl d hs hk hc
    rw [funcEffect] at hch
    exact ⟨t, hexec, hout, hsame, by rw [hch], by rw [hch, setLowByte_toNat]⟩
  · obtain ⟨t, hexec, hout, hsame, hch⟩ := exec_func_present .looph d hs hk hc
    rw [funcEffect] at hch
    exact ⟨t, hexec, hout, hsame, by rw [hch], by rw [hch, setHighByte_toNat]⟩

/-- Settles O21: the effects of START, VOL and PAN are the statement's. -/
theorem byteRegistersAreReplaced : Obligations.ByteRegistersAreReplaced :=
  ⟨fun w hop h7 => ⟨decode_func w hop h7 .start, decode_func w hop h7 .vol, decode_func w hop h7 .pan⟩,
    fun _ _ _ d _ hs hk hc => ⟨exec_func_present .start d hs hk hc, exec_func_present .vol d hs hk hc,
      exec_func_present .pan d hs hk hc⟩⟩

/-! ## Arming and disarming a channel (R150, R152) -/

theorem startPosition_eq (cc : ChipConfig) (start : Byte) :
    startPosition cc start = start.toNat * 2 ^ (8 + cc.frac) % 2 ^ (cc.addrBits + cc.frac) := by
  rw [startPosition, truncPos, Nat.shiftLeft_eq, ChipConfig.pw]

theorem lowByte_eq (v : BitVec 16) : lowByte v = BitVec.ofNat 8 v.toNat := extractLsb'_zero_eq_ofNat v 8

/-- Settles O22: the effect of TRIG, and the byte address of a start position. -/
theorem trigArmsTheChannel : Obligations.TrigArmsTheChannel := by
  refine ⟨fun w hop h7 hfunc => decode_func w hop h7 .trig hfunc, fun s k slot c hs hk hc => ?_⟩
  obtain ⟨t, hexec, hout, hsame, hch⟩ := exec_func_present .trig 0#8 hs hk hc
  rw [funcEffect, Channel.arm] at hch
  refine ⟨t, hexec, hout, hsame, ?_, ?_⟩
  · rw [hch, startPosition_eq, lowByte_eq]
  · rw [hsame.fetchByte_eq, hch, byteAddress_startPosition, ChipConfig.memSize]

/-! ## Global registers (R151, R152) -/

/-- Settles O23: the two fields of GCTRL's data byte, and its effect on the chip. -/
theorem gctrlWritesEnableAndBank : Obligations.GctrlWritesEnableAndBank := by
  refine ⟨fun w hop ha => ?_, fun s k on bank hs hk => ⟨_, rfl, writeGlobal_out k _ s,
    sameOutsideChip_writeGlobal k _ s, writeGlobal_chip_present hs hk _⟩⟩
  have hon : (wordData w).getLsbD 7 = decide ((wordData w).toNat / 2 ^ 7 = 1) := by
    rw [bit7_eq]
    exact decide_eq_decide.mpr (by omega)
  rw [decode_gctrl w hop ha, hon, extractLsb'_zero_eq_ofNat]

/-- CHON changes nothing of a chip but its channels. -/
theorem chonGroup_with_ch (g : BitVec 4) (d : Byte) (cfg : Config) (cc : ChipConfig) (x : Chip) :
    { chonGroup g d cfg cc x with ch := x.ch } = x := by
  simp

/-- Settles O24: CHON's loop, channel by channel, where every channel below NCH is there. -/
theorem chonEnablesAndDisablesItsGroup : Obligations.ChonEnablesAndDisablesItsGroup := by
  refine ⟨decode_chon, fun s k g d hs hk => ?_⟩
  have hchip := writeGlobal_chip_present hs hk (chonGroup g d)
  refine ⟨_, rfl, writeGlobal_out k _ s, sameOutsideChip_writeGlobal k _ s, ?_, ?_, fun c hc => ?_⟩
  · rw [hchip, chonGroup_with_ch]
  · rw [hchip, chonGroup_length, hs.channel_count hk]
  · have hlen : c < (s.chip k.toNat).ch.length := (hs.channel_count hk).symm ▸ hc
    rw [State.channel, hchip, chonGroup_channel, ← startPosition_eq, ← lowByte_eq]
    by_cases hg : c / 8 = g.toNat
    · rw [if_pos ⟨hg, hc, hlen⟩, if_pos hg, BitVec.testBit_toNat]
      cases d.getLsbD (c % 8) <;> rfl
    · rw [if_neg fun h => hg h.1, if_neg hg, State.channel]

end Sys2Proof.Machine

/-! PROOFS. Generate (spec/42_generate.md): what a tick does to one channel and to the pair, said once for a chip
(`tickChip_channel`, `tickChip_pair`), for TICK (`exec_tick_ticked`) and for repeated TICKs (`afterTicks_channel`);
what a channel step answers (`advanced_of_byte` and the two sentinel cases); and the statements about them. -/

namespace Sys2Proof.Machine

/-! ## A tick of a chip, channel by channel (R210, R211, R213) -/

/-- A disabled channel contributes (0, 0) and is not mutated. -/
theorem advance_disabled (cc : ChipConfig) (mem : Memory) (ch : Channel) (h : ch.en = false) :
    advance cc mem ch = (ch, 0, 0) := by
  rw [advance, h, if_neg Bool.false_ne_true]

/-- A channel after a tick of its chip: its channel step where the chip is on, else as it was. -/
def tickChannel (cc : ChipConfig) (on : Bool) (mem : Memory) (ch : Channel) : Channel :=
  if on then (advance cc mem ch).1 else ch

@[simp] theorem tickChannel_on (cc : ChipConfig) (mem : Memory) (ch : Channel) :
    tickChannel cc true mem ch = (advance cc mem ch).1 := rfl

@[simp] theorem tickChannel_off (cc : ChipConfig) (mem : Memory) (ch : Channel) :
    tickChannel cc false mem ch = ch := rfl

theorem tickChannel_disabled (cc : ChipConfig) (on : Bool) (mem : Memory) (ch : Channel) (h : ch.en = false) :
    tickChannel cc on mem ch = ch := by
  cases on
  · rfl
  · rw [tickChannel_on, advance_disabled cc mem ch h]

theorem Chip.channel_of_length_le (x : Chip) (c : Nat) (h : x.ch.length ≤ c) : x.channel c = Channel.reset :=
  List.getD_eq_default _ _ h

/-- A tick of a chip steps every channel from where it was; an index past the channels reads as a disabled one. -/
theorem tickChip_channel (cfg : Config) (cc : ChipConfig) (x : Chip) (hlen : x.ch.length = cfg.nch) (c : Nat) :
    (tickChip cfg cc x).channel c = tickChannel cc x.chipOn x.mem (x.channel c) := by
  rw [tickChip]
  cases hon : x.chipOn
  · rw [tickInOrder_off _ _ _ hon]
    rfl
  · rw [tickInOrder_on _ _ _ hon]
    refine ((advanceAll_range cfg cc x hlen).channels c).trans ?_
    split
    · rfl
    next hc =>
      rw [List.mem_range, Nat.not_lt, ← hlen] at hc
      rw [x.channel_of_length_le c hc, tickChannel_disabled cc true x.mem _ rfl]

/-- `n` ticks of a chip are `n` steps of each channel. -/
theorem tickTimes_channel (cfg : Config) (cc : ChipConfig) (n : Nat) (x : Chip) (hlen : x.ch.length = cfg.nch)
    (c : Nat) : (tickTimes cfg cc n x).channel c = (tickChannel cc x.chipOn x.mem)^[n] (x.channel c) := by
  induction n generalizing x with
  | zero => rfl
  | succ n ih =>
    have hkept := tickChip_kept cfg cc x
    rw [tickTimes, ih _ (hkept.length.trans hlen), hkept.chipOn, hkept.mem, tickChip_channel cfg cc x hlen,
      Function.iterate_succ_apply]

theorem tickTimes_channel_disabled (cfg : Config) (cc : ChipConfig) (n : Nat) (x : Chip) (hlen : x.ch.length = cfg.nch)
    (c : Nat) (h : (x.channel c).en = false) : (tickTimes cfg cc n x).channel c = x.channel c := by
  rw [tickTimes_channel cfg cc n x hlen, Function.iterate_fixed (tickChannel_disabled cc _ _ _ h)]

/-- What every channel step keeps, a tick of the chip keeps. -/
theorem tickChip_forall {p : Channel → Prop} (cfg : Config) (cc : ChipConfig) (x : Chip) (hlen : x.ch.length = cfg.nch)
    (hadvance : ∀ mem ch, p ch → p (advance cc mem ch).1) (h : ∀ ch ∈ x.ch, p ch) :
    ∀ ch ∈ (tickChip cfg cc x).ch, p ch := by
  refine forall_mem_of_channel _ fun c hc => ?_
  rw [(tickChip_kept cfg cc x).length] at hc
  have hch := h _ (x.channel_mem c hc)
  rw [tickChip_channel cfg cc x hlen]
  cases x.chipOn
  · exact hch
  · exact hadvance _ _ hch

theorem tickTimes_forall {p : Channel → Prop} (cfg : Config) (cc : ChipConfig) (n : Nat) (x : Chip)
    (hlen : x.ch.length = cfg.nch) (hadvance : ∀ mem ch, p ch → p (advance cc mem ch).1) (h : ∀ ch ∈ x.ch, p ch) :
    ∀ ch ∈ (tickTimes cfg cc n x).ch, p ch := by
  induction n generalizing x with
  | zero => exact h
  | succ n ih => exact ih _ ((tickChip_kept cfg cc x).length.trans hlen) (tickChip_forall cfg cc x hlen hadvance h)

/-! ## Whole-byte positions (R218) -/

/-- Cutting a position to PW bits keeps its fraction. -/
theorem truncPos_frac (cc : ChipConfig) (v : Nat) : truncPos cc v % 2 ^ cc.frac = v % 2 ^ cc.frac := by
  rw [truncPos, ChipConfig.pw, Nat.pow_add, Nat.mod_mul_left_mod]

/-- The position at the start of a byte has fraction 0. -/
theorem positionOf_frac (cc : ChipConfig) (a : Nat) : positionOf cc a % 2 ^ cc.frac = 0 := by
  rw [positionOf, truncPos_frac, Nat.shiftLeft_eq, Nat.mul_mod_left]

theorem startPosition_frac (cc : ChipConfig) (start : Byte) : startPosition cc start % 2 ^ cc.frac = 0 := by
  rw [startPosition, truncPos_frac, Nat.shiftLeft_eq, Nat.pow_add, ← Nat.mul_assoc, Nat.mul_mod_left]

/-- The channel is at the start of a byte. -/
def Channel.WholeByte (cc : ChipConfig) (ch : Channel) : Prop := ch.pos % 2 ^ cc.frac = 0

theorem funcEffect_wholeByte (func : ChannelFunc) (d : Byte) (cc : ChipConfig) (ch : Channel) (h : ch.WholeByte cc) :
    (funcEffect func d cc ch).WholeByte cc := by
  cases func with
  | posl | posh => exact positionOf_frac cc _
  | trig => exact startPosition_frac cc _
  | _ => exact h

theorem stepCountdown_wholeByte (cc : ChipConfig) (ch : Channel) (h : ch.WholeByte cc) :
    (stepCountdown cc ch).WholeByte cc := by
  rw [stepCountdown]
  split
  · rw [Channel.WholeByte, truncPos_frac, Nat.add_mod_right]
    exact h
  · exact h

theorem advance_wholeByte (cc : ChipConfig) (hmode : cc.stepMode = .countdown) (mem : Memory) (ch : Channel)
    (h : ch.WholeByte cc) : (advance cc mem ch).1.WholeByte cc := by
  have hstep : stepPosition cc = stepCountdown cc := by
    funext x
    rw [stepPosition, hmode]
  have hreload : (reload cc ch).WholeByte cc := positionOf_frac cc _
  obtain ⟨-, e⟩ | ⟨-, -, -, e⟩ | ⟨-, -, -, e⟩ | ⟨-, -, e⟩ := advance_cases cc mem ch <;> rw [e]
  · exact h
  · exact hreload
  · rw [hstep]
    exact stepCountdown_wholeByte cc _ hreload
  · rw [hstep]
    exact stepCountdown_wholeByte cc _ h

theorem chonGroup_wholeByte (g : BitVec 4) (d : Byte) (cfg : Config) (cc : ChipConfig) (x : Chip)
    (h : ∀ ch ∈ x.ch, ch.WholeByte cc) : ∀ ch ∈ (chonGroup g d cfg cc x).ch, ch.WholeByte cc := by
  refine forall_mem_of_channel _ fun c hc => ?_
  rw [chonGroup_length] at hc
  have hch := h _ (x.channel_mem c hc)
  rw [chonGroup_channel]
  split
  · split
    · exact hch
    · exact startPosition_frac cc _
  · exact hch

/-- No command moves a channel of a COUNTDOWN chip off the start of a byte. -/
theorem ChipChange.wholeByte {cfg : Config} {k : Nat} {x y : Chip} {i : Instr} (h : ChipChange cfg k x i y)
    (hlen : x.ch.length = cfg.nch) (hmode : (cfg.chip k).stepMode = .countdown)
    (hx : ∀ ch ∈ x.ch, ch.WholeByte (cfg.chip k)) : ∀ ch ∈ y.ch, ch.WholeByte (cfg.chip k) := by
  cases h with
  | kept | control | stored => exact hx
  | written func chip slot d c =>
    exact x.updateChannel_forall c _ hx fun ch hch => funcEffect_wholeByte func d _ ch (hx ch hch)
  | chon chip g d => exact chonGroup_wholeByte g d cfg _ x hx
  | ticked => exact tickChip_forall cfg _ x hlen (advance_wholeByte _ hmode) hx
  | rated =>
    rw [rateChip_eq]
    exact tickTimes_forall cfg _ _ _ hlen (advance_wholeByte _ hmode) hx

theorem Transaction.wholeBytes {i : Instr} {s t : State} (h : Transaction i s t) (hs : s.Inv) (hwhole : s.WholeBytes) :
    t.WholeBytes := by
  intro k hk hmode
  rw [h.cfg] at hk hmode ⊢
  exact (h.chip k).wholeByte (hs.channel_count hk) hmode (hwhole k hk hmode)

theorem resetWith_wholeBytes (cfg : Config) (inputs : List HostInput) : (State.resetWith cfg inputs).WholeBytes := by
  intro k hk _ ch hch
  rw [State.resetWith_chip cfg inputs k hk] at hch
  rw [List.eq_of_mem_replicate hch]
  exact Nat.zero_mod _

/-- Settles O12: an idle step keeps the state, a command is a transaction, and reset puts every position at byte 0. -/
theorem countdownPositionsStayWholeBytes : Obligations.CountdownPositionsStayWholeBytes := by
  intro s t hs hwhole h
  obtain ⟨-, ⟨-, rfl⟩ | ⟨w, rest, -, hexec⟩ | ⟨rest, -, rfl⟩⟩ := step_cases h
  · exact hwhole
  · exact (transaction_of_exec hexec).wholeBytes hs hwhole
  · exact resetWith_wholeBytes s.cfg rest

/-! ## The pair of a tick (R224) -/

theorem abs_sum_range_le (f : Nat → Int) (B : Int) (n : Nat) (h : ∀ c, |f c| ≤ B) :
    |∑ c ∈ Finset.range n, f c| ≤ n * B := by
  have hsum := sum_bounds f B (List.range n) fun c => abs_le.mp (h c)
  rw [List.length_range] at hsum
  exact abs_le.mpr hsum

theorem advance_abs_le (cc : ChipConfig) (hcc : cc.legal = true) (mem : Memory) (ch : Channel) :
    |(advance cc mem ch).2.1| ≤ 979200 ∧ |(advance cc mem ch).2.2| ≤ 979200 := by
  obtain ⟨hl, hr⟩ := advance_bounds cc hcc mem ch
  exact ⟨abs_le.mpr hl, abs_le.mpr hr⟩

theorem Config.nch_le (cfg : Config) (hcfg : cfg.legal = true) : cfg.nch ≤ 128 := by
  simp only [Config.legal, Bool.and_eq_true, decide_eq_true_eq] at hcfg
  omega

/-- No sum of contributions of a legal configuration overflows a 32-bit field. -/
theorem store32_sum_toInt (f : Nat → Int) (n : Nat) (hn : n ≤ 128) (h : ∀ c, |f c| ≤ 979200) :
    (store32 (∑ c ∈ Finset.range n, f c)).toInt = ∑ c ∈ Finset.range n, f c := by
  have hsum := abs_le.mp (abs_sum_range_le f 979200 n h)
  exact store32_toInt _ (by omega) (by omega)

/-- A tick of a chip that is on stores the exact sums of what its channels contribute. -/
theorem tickChip_pair (cfg : Config) (hcfg : cfg.legal = true) (cc : ChipConfig) (hcc : cc.legal = true) (x : Chip)
    (hlen : x.ch.length = cfg.nch) (hon : x.chipOn = true) :
    (tickChip cfg cc x).lastL.toInt = ∑ c ∈ Finset.range cfg.nch, (advance cc x.mem (x.channel c)).2.1 ∧
    (tickChip cfg cc x).lastR.toInt = ∑ c ∈ Finset.range cfg.nch, (advance cc x.mem (x.channel c)).2.2 := by
  have hloop := advanceAll_range cfg cc x hlen
  rw [tickChip, tickInOrder_on _ _ _ hon]
  dsimp only
  rw [hloop.sumL, hloop.sumR, zero_add, zero_add]
  exact ⟨store32_sum_toInt _ _ (Config.nch_le cfg hcfg) fun c => (advance_abs_le cc hcc x.mem (x.channel c)).1,
    store32_sum_toInt _ _ (Config.nch_le cfg hcfg) fun c => (advance_abs_le cc hcc x.mem (x.channel c)).2⟩

theorem State.Inv.legal {s : State} (hs : s.Inv) : s.cfg.legal = true := hs.1

theorem State.Inv.legal_chip {s : State} (hs : s.Inv) {k : Nat} (hk : k < s.cfg.nchip) :
    (s.cfg.chip k).legal = true :=
  Config.legal_chip s.cfg hs.legal k hk

/-! ## TICK of a chip that is there -/

/-- What TICK of chip `k` leaves: the chip ticked, its new pair returned, and nothing else changed. -/
structure Ticked (s t : State) (k : Nat) : Prop where
  outside : SameOutsideChip s t k
  chip : t.chip k = tickChip s.cfg (s.cfg.chip k) (s.chip k)
  out : t.out = some ⟨(t.chip k).lastL, (t.chip k).lastR⟩

theorem exec_tick_ticked {s : State} (hs : s.Inv) {k : BitVec 4} (hk : k.toNat < s.cfg.nchip) :
    ∃ t, exec (.tick k) s = .next t ∧ Ticked s t k.toNat := by
  obtain ⟨-, hcount, -⟩ := hs
  exact ⟨_, if_pos hk, (sameOutsideChip_updateChip s _ _).respond _,
    s.updateChip_chip_self _ _ (hcount.symm ▸ hk), rfl⟩

section
variable {s t : State} {k : Nat} (h : Ticked s t k)
include h

theorem Ticked.kept : KeptByTick (s.chip k) (t.chip k) := h.chip ▸ tickChip_kept s.cfg _ (s.chip k)

theorem Ticked.channel (hs : s.Inv) (hk : k < s.cfg.nchip) (c : Nat) :
    t.channel k c = tickChannel (s.cfg.chip k) (s.chip k).chipOn (s.chip k).mem (s.channel k c) := by
  rw [State.channel, h.chip, tickChip_channel _ _ _ (hs.channel_count hk), State.channel]

theorem Ticked.channel_on (hs : s.Inv) (hk : k < s.cfg.nchip) (hon : (s.chip k).chipOn = true) (c : Nat) :
    t.channel k c = (s.advanced k c).1 := by
  rw [h.channel hs hk, hon, tickChannel_on, State.advanced]

theorem Ticked.pair_on (hs : s.Inv) (hk : k < s.cfg.nchip) (hon : (s.chip k).chipOn = true) :
    (t.chip k).lastL.toInt = ∑ c ∈ Finset.range s.cfg.nch, (s.advanced k c).2.1 ∧
    (t.chip k).lastR.toInt = ∑ c ∈ Finset.range s.cfg.nch, (s.advanced k c).2.2 := by
  rw [h.chip]
  exact tickChip_pair s.cfg hs.legal _ (hs.legal_chip hk) _ (hs.channel_count hk) hon

theorem Ticked.sameUnderTick : SameUnderTick s t k where
  outside := h.outside
  count := h.kept.length
  chipOn := h.kept.chipOn
  bank := h.kept.bank
  racc := h.kept.racc
  registers := h.kept.registers
  bytes j a := by
    rw [State.readByte, State.readByte]
    by_cases hj : j = k
    · rw [hj, h.kept.mem]
    · rw [h.outside.chips j hj]

end

/-- Settles O29: the branch of a tick for a chip that is off, and TICK as one tick. -/
theorem idleChipGeneratesSilence : Obligations.IdleChipGeneratesSilence := by
  refine ⟨fun cfg cc chip hoff => tickInOrder_off cc _ chip hoff, fun s k hs hk hoff => ?_⟩
  obtain ⟨t, hexec, h⟩ := exec_tick_ticked hs hk
  have hchip := h.chip.trans (tickInOrder_off _ _ _ hoff)
  exact ⟨t, hexec, by rw [h.out, hchip], h.outside, hchip⟩

/-- Settles O30: TICK as one tick, which steps every channel and sums exactly. -/
theorem tickStepsEveryChannelAndSums : Obligations.TickStepsEveryChannelAndSums := by
  intro s k hs hk hon
  obtain ⟨t, hexec, h⟩ := exec_tick_ticked hs hk
  obtain ⟨hl, hr⟩ := h.pair_on hs hk hon
  exact ⟨t, hexec, h.sameUnderTick, fun c _ => h.channel_on hs hk hon c, hl, hr, h.out⟩

/-! ## Bounds of the reference parameters (R220, R222, R224) -/

theorem advance_contribution (cc : ChipConfig) (mem : Memory) (ch : Channel) :
    (advance cc mem ch).2 = (0, 0) ∨ ∃ b, (advance cc mem ch).2 = output cc ch b := by
  obtain ⟨-, e⟩ | ⟨-, -, -, e⟩ | ⟨-, -, -, e⟩ | ⟨-, -, e⟩ := advance_cases cc mem ch <;> rw [e]
  · exact .inl rfl
  · exact .inl rfl
  · exact .inr ⟨_, rfl⟩
  · exact .inr ⟨_, rfl⟩

theorem volumeGain_reference (v : Nat) : volumeGain ChipConfig.reference v = v * 256 / (v + 10) := rfl

theorem volumeGain_reference_le (v : Nat) (hv : v < 256) : volumeGain ChipConfig.reference v ≤ 246 := by
  rw [volumeGain_reference]
  exact Nat.le_of_lt_succ ((Nat.div_lt_iff_lt_mul (by omega)).mpr (by omega))

/-- A sample of 8 bits about the bias, scaled, panned by `p` and shifted. -/
theorem floorShift_reference_le (b : Byte) (g p : Int) (hg0 : 0 ≤ g) (hg : g ≤ 246) (hp0 : 0 ≤ p) (hp : p ≤ 15) :
    |floorShift (((b.toNat : Int) - 128) * g * p) 4| ≤ 29520 := by
  have hb := b.isLt
  have hs : |(b.toNat : Int) - 128| ≤ 128 := abs_le.mpr ⟨by omega, by omega⟩
  have hprod : |((b.toNat : Int) - 128) * g * p| ≤ 128 * 246 * 15 := by
    rw [abs_mul, abs_mul, abs_of_nonneg hg0, abs_of_nonneg hp0]
    gcongr
  rw [abs_le] at hprod ⊢
  rw [floorShift]
  omega

theorem advance_reference_abs_le (mem : Memory) (ch : Channel) :
    |(advance ChipConfig.reference mem ch).2.1| ≤ 29520 ∧ |(advance ChipConfig.reference mem ch).2.2| ≤ 29520 := by
  obtain e | ⟨b, e⟩ := advance_contribution ChipConfig.reference mem ch <;> rw [e]
  · exact ⟨by decide, by decide⟩
  · have hg : gainOf ChipConfig.reference ch ≤ 246 :=
      Int.ofNat_le.mpr (volumeGain_reference_le _ ch.vol.isLt)
    exact ⟨floorShift_reference_le b _ _ (Int.natCast_nonneg _) hg (Int.natCast_nonneg _)
        (Int.ofNat_le.mpr (panLeft_le ch.pan)),
      floorShift_reference_le b _ _ (Int.natCast_nonneg _) hg (Int.natCast_nonneg _)
        (Int.ofNat_le.mpr (panRight_le ch.pan))⟩

theorem advanced_disabled (s : State) (k c : Nat) (h : (s.channel k c).en = false) :
    s.advanced k c = (s.channel k c, 0, 0) := advance_disabled _ _ _ h

/-- Disabled channels add 0 to a sum over the channels. -/
theorem sum_enabled (s : State) (k : Nat) (side : Int × Int → Int) (hside : side (0, 0) = 0) :
    ∑ c ∈ (Finset.range s.cfg.nch).filter (fun c => (s.channel k c).en = true), side (s.advanced k c).2 =
      ∑ c ∈ Finset.range s.cfg.nch, side (s.advanced k c).2 := by
  refine Finset.sum_filter_of_ne fun c _ hne => ?_
  by_contra hen
  rw [advanced_disabled s k c (Bool.eq_false_of_not_eq_true hen)] at hne
  exact hne hside

/-- Settles O31: the exact sums of O30 without their zeros, and a sum of at most 128 bounded terms. -/
theorem chipSumsNeverOverflow : Obligations.ChipSumsNeverOverflow := by
  intro s k hs hk hon
  obtain ⟨t, hexec, h⟩ := exec_tick_ticked hs hk
  obtain ⟨hl, hr⟩ := h.pair_on hs hk hon
  have hnch := Config.nch_le s.cfg hs.legal
  have hb (c : Nat) := advance_abs_le _ (hs.legal_chip hk) (s.chip k.toNat).mem (s.channel k.toNat c)
  have hsumL := abs_sum_range_le _ _ s.cfg.nch fun c => (hb c).1
  have hsumR := abs_sum_range_le _ _ s.cfg.nch fun c => (hb c).2
  refine ⟨t, hexec, hl.trans (sum_enabled s _ Prod.fst rfl).symm, hr.trans (sum_enabled s _ Prod.snd rfl).symm, hb,
    ?_, ?_, fun href => ?_⟩
  · exact (hl ▸ hsumL).trans (by omega)
  · exact (hr ▸ hsumR).trans (by omega)
  · have hb' (c : Nat) : |(s.advanced k.toNat c).2.1| ≤ 29520 ∧ |(s.advanced k.toNat c).2.2| ≤ 29520 := by
      rw [State.advanced, href]
      exact advance_reference_abs_le _ _
    refine ⟨hb', fun hch => ?_⟩
    rw [hl, hr, hch]
    exact ⟨abs_sum_range_le _ _ 16 fun c => (hb' c).1, abs_sum_range_le _ _ 16 fun c => (hb' c).2⟩

/-- Settles O39: the reference lists of exceptions are empty. -/
theorem referenceVolumeLawAndStepMap : Obligations.ReferenceVolumeLawAndStepMap :=
  ⟨fun v hv => ⟨volumeGain_reference v, by omega, volumeGain_reference_le v hv⟩, rfl, rfl, fun _ => rfl⟩

/-- Settles O53: the one way a channel's VOL can change is WREG.VOL, and the table is configuration. -/
theorem onlyWregVolChangesAGain : Obligations.OnlyWregVolChangesAGain := by
  intro i s hi
  obtain ⟨t, hexec, h⟩ := exec_transaction i s
  refine ⟨t, hexec, fun k c => ?_⟩
  have hvol : (t.channel k c).vol = (s.channel k c).vol := by
    by_contra hne
    obtain ⟨chip, slot, d, -, rfl⟩ := ((h.chip k).channel c).vol_writer hne
    exact hi chip slot d rfl
  exact ⟨hvol, by rw [h.cfg, hvol]⟩

/-! ## The order of the channels (R212, R225) -/

theorem Chip.ch_eq_of_channel {x y : Chip} (hlen : y.ch.length = x.ch.length) (h : ∀ c, y.channel c = x.channel c) :
    y.ch = x.ch := by
  refine List.ext_getElem hlen fun c hy hx => ?_
  have hc := h c
  rwa [Chip.channel, Chip.channel, List.getD_eq_getElem _ _ hy, List.getD_eq_getElem _ _ hx] at hc

section
variable {cc : ChipConfig} {order order' : List Nat} {x : Chip} {l r : Int} {res res' : Chip × Int × Int}

theorem LoopResult.perm (h : LoopResult cc order x l r res) (hperm : order'.Perm order) :
    LoopResult cc order' x l r res where
  channels c := (h.channels c).trans (if_congr hperm.mem_iff.symm rfl rfl)
  length := h.length
  rest := h.rest
  sumL := by rw [h.sumL, (hperm.map _).sum_eq]
  sumR := by rw [h.sumR, (hperm.map _).sum_eq]

theorem LoopResult.unique (h : LoopResult cc order x l r res) (h' : LoopResult cc order x l r res') : res = res' := by
  have hch : res.1.ch = res'.1.ch :=
    Chip.ch_eq_of_channel (h.length.trans h'.length.symm) fun c => (h.channels c).trans (h'.channels c).symm
  obtain ⟨hon, hbank, hmem, hl, hr, hracc⟩ := h.rest
  obtain ⟨hon', hbank', hmem', hl', hr', hracc'⟩ := h'.rest
  refine Prod.ext ?_ (Prod.ext (h.sumL.trans h'.sumL.symm) (h.sumR.trans h'.sumR.symm))
  rw [Chip.mk.injEq]
  exact ⟨hch, hon.trans hon'.symm, hbank.trans hbank'.symm, hmem.trans hmem'.symm, hl.trans hl'.symm,
    hr.trans hr'.symm, hracc.trans hracc'.symm⟩

end

/-- Settles O40: the loop's result has no order in it, and determines the chip. -/
theorem tickIsIndependentOfChannelOrder : Obligations.TickIsIndependentOfChannelOrder := by
  intro cfg cc x order hlen hperm
  have hloop : LoopResult cc order x 0 0 (advanceAll cc order x) :=
    foldl_advanceInto cc order x 0 0 (hperm.nodup_iff.mpr List.nodup_range) fun c hc =>
      hlen.symm ▸ List.mem_range.mp (hperm.mem_iff.mp hc)
  have hsame := hloop.unique ((advanceAll_range cfg cc x hlen).perm hperm)
  rw [tickChip, tickInOrder, tickInOrder, hsame]

/-- Settles O41: a channel after TICK is a function of the enable, the memory and the channel as it was. -/
theorem channelsDoNotAffectEachOther : Obligations.ChannelsDoNotAffectEachOther := by
  intro s s' k c hs hs' hcfg hk hon hread hch
  have hk' : k.toNat < s'.cfg.nchip := hcfg.symm ▸ hk
  obtain ⟨t, hexec, h⟩ := exec_tick_ticked hs hk
  obtain ⟨t', hexec', h'⟩ := exec_tick_ticked hs' hk'
  have hmem := Memory.ext_of_read _ _ (hs'.mem_wf hk') (hs.mem_wf hk) hread
  refine ⟨t, t', hexec, hexec', ?_, ?_⟩
  · rw [h.channel hs hk, h'.channel hs' hk', hcfg, hon, hmem, hch]
  · rw [State.advanced, State.advanced, hcfg, hmem, hch]

/-! ## Repeated ticks -/

theorem afterTicks_chip {s : State} (hs : s.Inv) {k : BitVec 4} (hk : k.toNat < s.cfg.nchip) (n : Nat) :
    (afterTicks k n s).chip k.toNat = tickTimes s.cfg (s.cfg.chip k.toNat) n (s.chip k.toNat) := by
  induction n generalizing s with
  | zero => rfl
  | succ n ih =>
    obtain ⟨t, hexec, h⟩ := exec_tick_ticked hs hk
    have hcfg := h.outside.cfg
    rw [afterTicks, hexec]
    refine (ih ((transaction_of_exec hexec).inv hs) (hcfg.symm ▸ hk)).trans ?_
    rw [hcfg, h.chip, tickTimes]

/-- `n` TICKs of a chip are `n` steps of each of its channels. -/
theorem afterTicks_channel {s : State} (hs : s.Inv) {k : BitVec 4} (hk : k.toNat < s.cfg.nchip) (n c : Nat) :
    (afterTicks k n s).channel k.toNat c =
      (tickChannel (s.cfg.chip k.toNat) (s.chip k.toNat).chipOn (s.chip k.toNat).mem)^[n] (s.channel k.toNat c) := by
  rw [State.channel, afterTicks_chip hs hk, tickTimes_channel _ _ _ _ (hs.channel_count hk), State.channel]

/-! ## Disabled channels (R213) -/

/-- The commands that tick leave a disabled channel of a chip of NCH channels as it was. -/
theorem ChipChange.disabled_kept {cfg : Config} {k c : Nat} {x y : Chip} {i : Instr} (h : ChipChange cfg k x i y)
    (hlen : x.ch.length = cfg.nch) (hticks : i.ticks k) (hdis : (x.channel c).en = false) :
    y.channel c = x.channel c := by
  cases h with
  | kept => rfl
  | ticked => rw [tickChip_channel _ _ _ hlen, tickChannel_disabled _ _ _ _ hdis]
  | rated =>
    rw [rateChip_eq]
    refine (tickTimes_channel_disabled cfg _ _ _ ?_ c ?_).trans rfl
    · exact hlen
    · exact hdis
  | written func => cases func <;> exact absurd hticks (by simp [funcInstr, Instr.ticks])
  | _ => exact absurd hticks (by simp [Instr.ticks])

/-- A chip that is not there stays so. -/
theorem Transaction.chip_absent {i : Instr} {s t : State} (h : Transaction i s t) (hs : s.Inv) {k : Nat}
    (hk : s.cfg.nchip ≤ k) : t.chip k = s.chip k := by
  obtain ⟨-, hcount, -⟩ := hs
  rw [State.chip, State.chip, List.getD_eq_default _ _ (by rw [h.count]; omega), List.getD_eq_default _ _ (by omega)]

theorem Transaction.disabled_kept {i : Instr} {s t : State} (h : Transaction i s t) (hs : s.Inv) {k c : Nat}
    (hticks : i.ticks k) (hdis : (s.channel k c).en = false) : t.channel k c = s.channel k c := by
  obtain hk | hk := Nat.lt_or_ge k s.cfg.nchip
  · exact (h.chip k).disabled_kept (hs.channel_count hk) hticks hdis
  · rw [State.channel, h.chip_absent hs hk, State.channel]

/-- Settles O32: the channel step's first test, and the rules of the commands that tick. -/
theorem disabledChannelsAreNotMutated : Obligations.DisabledChannelsAreNotMutated := by
  refine ⟨advance_disabled, fun s i k c hs hdis hticks => ?_⟩
  obtain ⟨t, hexec, h⟩ := exec_transaction i s
  exact ⟨t, hexec, h.disabled_kept hs hticks hdis⟩

/-! ## The channel step by the bytes it meets (R214 to R216) -/

section
variable {cc : ChipConfig} {mem : Memory} {ch : Channel} (hen : ch.en = true)
include hen

theorem advance_of_byte (h : fetchByte cc mem ch ≠ cc.sentinel) :
    advance cc mem ch = (stepPosition cc ch, output cc ch (fetchByte cc mem ch)) := by
  rw [advance, if_pos hen]
  exact (if_neg h).trans (playByte_eq cc ch _)

variable (h : fetchByte cc mem ch = cc.sentinel)
include h

theorem advance_of_loopByte (h' : fetchByte cc mem (reload cc ch) ≠ cc.sentinel) :
    advance cc mem ch = (stepPosition cc (reload cc ch), output cc ch (fetchByte cc mem (reload cc ch))) := by
  rw [advance, if_pos hen, ← output_congr cc ch (reload cc ch) _ rfl rfl]
  exact (if_pos h).trans ((if_neg h').trans (playByte_eq cc _ _))

theorem advance_of_doubleSentinel (h' : fetchByte cc mem (reload cc ch) = cc.sentinel) :
    advance cc mem ch = ((reload cc ch).silence, 0, 0) := by
  rw [advance, if_pos hen]
  exact (if_pos h).trans (if_pos h')

end

theorem State.fetchByte_reload (s : State) (k c : Nat) :
    fetchByte (s.cfg.chip k) (s.chip k).mem (reload (s.cfg.chip k) (s.channel k c)) =
      s.readByte k ((s.channel k c).loop.toNat % (s.cfg.chip k).memSize) := by
  rw [fetchByte, reload, byteAddress_loopPosition, State.readByte]

section
variable {s : State} {k c : Nat} (hs : s.Inv) (hplay : s.Playing k c)
include hs hplay

theorem State.Inv.fetchByte_channel : fetchByte (s.cfg.chip k) (s.chip k).mem (s.channel k c) =
    s.readByte k ((s.channel k c).pos / 2 ^ (s.cfg.chip k).frac) := by
  obtain ⟨hk, -, hc, -⟩ := hplay
  rw [fetchByte, hs.byteAddress_channel hk hc, State.readByte]

theorem advanced_of_byte
    (h : s.readByte k ((s.channel k c).pos / 2 ^ (s.cfg.chip k).frac) ≠ (s.cfg.chip k).sentinel) :
    s.advanced k c = (stepPosition (s.cfg.chip k) (s.channel k c), output (s.cfg.chip k) (s.channel k c)
      (s.readByte k ((s.channel k c).pos / 2 ^ (s.cfg.chip k).frac))) := by
  have hfetch := hs.fetchByte_channel hplay
  obtain ⟨-, -, -, hen⟩ := hplay
  rw [← hfetch] at h ⊢
  exact advance_of_byte hen h

variable (h : s.readByte k ((s.channel k c).pos / 2 ^ (s.cfg.chip k).frac) = (s.cfg.chip k).sentinel)
include h

theorem advanced_of_loopByte
    (h' : s.readByte k ((s.channel k c).loop.toNat % (s.cfg.chip k).memSize) ≠ (s.cfg.chip k).sentinel) :
    s.advanced k c = (stepPosition (s.cfg.chip k) (reload (s.cfg.chip k) (s.channel k c)),
      output (s.cfg.chip k) (s.channel k c)
        (s.readByte k ((s.channel k c).loop.toNat % (s.cfg.chip k).memSize))) := by
  rw [← hs.fetchByte_channel hplay] at h
  obtain ⟨-, -, -, hen⟩ := hplay
  rw [← s.fetchByte_reload] at h' ⊢
  exact advance_of_loopByte hen h h'

theorem advanced_of_doubleSentinel
    (h' : s.readByte k ((s.channel k c).loop.toNat % (s.cfg.chip k).memSize) = (s.cfg.chip k).sentinel) :
    s.advanced k c = ((reload (s.cfg.chip k) (s.channel k c)).silence, 0, 0) := by
  rw [← hs.fetchByte_channel hplay] at h
  obtain ⟨-, -, -, hen⟩ := hplay
  rw [← s.fetchByte_reload] at h'
  exact advance_of_doubleSentinel hen h h'

end

/-! ## The position step as arithmetic (R82, R215, R217, R218) -/

theorem positionOf_eq (cc : ChipConfig) (a : Nat) : positionOf cc a = a % cc.memSize * 2 ^ cc.frac := by
  rw [positionOf, truncPos, Nat.shiftLeft_eq, ChipConfig.pw, Nat.pow_add, Nat.mul_mod_mul_right, ChipConfig.memSize]

/-- One whole byte past the position of a byte is the position of the next. -/
theorem truncPos_positionOf_add_byte (cc : ChipConfig) (a : Nat) :
    truncPos cc (positionOf cc a + 2 ^ cc.frac) = (a + 1) % cc.memSize * 2 ^ cc.frac := by
  rw [← positionOf_eq, positionOf, positionOf, truncPos, truncPos, truncPos, Nat.mod_add_mod, Nat.shiftLeft_eq,
    Nat.shiftLeft_eq, Nat.add_mul, Nat.one_mul]

theorem stepPosition_accum {cc : ChipConfig} (hmode : cc.stepMode = .accum) (ch : Channel) :
    stepPosition cc ch = { ch with pos := (ch.pos + stepIncrement cc ch.step.toNat) % 2 ^ cc.pw } := by
  rw [stepPosition, hmode]
  rfl

theorem stepPosition_countdown {cc : ChipConfig} (hmode : cc.stepMode = .countdown) (ch : Channel) :
    stepPosition cc ch =
      if ch.cnt.toNat = 0 then
        { ch with pos := truncPos cc (ch.pos + 2 ^ cc.frac), cnt := BitVec.ofNat 8 ch.step.toNat }
      else { ch with cnt := BitVec.ofNat 8 (ch.cnt.toNat - 1) } := by
  have hzero : ch.cnt = 0#8 ↔ ch.cnt.toNat = 0 := BitVec.toNat_inj.symm
  rw [stepPosition, hmode, ← lowByte_eq]
  by_cases h : ch.cnt.toNat = 0
  · exact (if_pos (hzero.mpr h)).trans (if_pos h).symm
  · have hpred : ch.cnt - 1#8 = BitVec.ofNat 8 (ch.cnt.toNat - 1) := by bv_omega
    rw [if_neg h, ← hpred]
    exact if_neg fun h' => h (hzero.mp h')

/-- Settles O33: the channel step at the reloaded position, by step mode. -/
theorem sentinelReloadsFromTheLoopAddress : Obligations.SentinelReloadsFromTheLoopAddress := by
  intro s k c hs hplay hsent hloop
  have hadv := advanced_of_loopByte hs hplay hsent hloop
  obtain ⟨hk, hon, -, -⟩ := hplay
  obtain ⟨t, hexec, h⟩ := exec_tick_ticked hs hk
  refine ⟨t, hexec, by rw [hadv], ?_⟩
  rw [h.channel_on hs hk hon, hadv]
  cases hmode : (s.cfg.chip k.toNat).stepMode
  case accum => rw [stepPosition_accum hmode, reload, loopPosition, positionOf_eq]
  case countdown =>
    rw [stepPosition_countdown hmode, reload, loopPosition, truncPos_positionOf_add_byte, positionOf_eq]

/-- Settles O34: the silenced channel is disabled, which no tick changes and only the writers of `en` undo. -/
theorem doubleSentinelSilencesForGood : Obligations.DoubleSentinelSilencesForGood := by
  intro s k c hs hplay hsent hloop
  have hadv := advanced_of_doubleSentinel hs hplay hsent hloop
  obtain ⟨hk, hon, -, -⟩ := hplay
  obtain ⟨t, hexec, h⟩ := exec_tick_ticked hs hk
  have hch := h.channel_on hs hk hon c
  rw [hadv, Channel.silence, reload, loopPosition, positionOf_eq] at hch
  have hdis : (t.channel k.toNat c).en = false := by rw [hch]
  refine ⟨by rw [hadv], t, hexec, hch, fun n => ?_,
    fun i u v hu hoff hexec' => ⟨fun hticks => ?_, fun htrig hchon => ?_⟩⟩
  · have ht : t.Inv := (transaction_of_exec hexec).inv hs
    have hsame : (afterTicks k n t).channel k.toNat c = t.channel k.toNat c := by
      rw [afterTicks_channel ht (h.outside.cfg.symm ▸ hk),
        Function.iterate_fixed (tickChannel_disabled _ _ _ _ hdis)]
    exact ⟨hsame, by rw [advanced_disabled _ _ _ (hsame ▸ hdis)]⟩
  · exact (transaction_of_exec hexec').disabled_kept hu hticks hoff
  · by_contra hen
    obtain ⟨chip, slot, hchip, rfl⟩ | ⟨chip, g, d, hchip, hgroup, hbit, rfl⟩ :=
      (((transaction_of_exec hexec').chip k.toNat).channel c).enable_writer hoff (Bool.eq_true_of_not_eq_false hen)
    · exact htrig slot (by rw [BitVec.eq_of_toNat_eq hchip])
    · exact hchon g d hgroup hbit (by rw [BitVec.eq_of_toNat_eq hchip])

/-- Settles O35: the exact sum cut to PW bits, its fraction and its integer part. -/
theorem accumModeAddsTheStep : Obligations.AccumModeAddsTheStep := by
  intro s k c hs hplay hmode hbyte
  have hadv := advanced_of_byte hs hplay hbyte
  obtain ⟨hk, hon, -, -⟩ := hplay
  obtain ⟨t, hexec, h⟩ := exec_tick_ticked hs hk
  refine ⟨t, hexec, ?_⟩
  rw [h.channel_on hs hk hon, hadv, stepPosition_accum hmode, ← truncPos]
  exact ⟨rfl, truncPos_frac _ _, by rw [truncPos, ChipConfig.pw, Nat.pow_add, Nat.mod_mul_left_div_self]; rfl⟩

section
variable {cc : ChipConfig} (hmode : cc.stepMode = .countdown) {mem : Memory} {ch : Channel} (hen : ch.en = true)
  (hbyte : fetchByte cc mem ch ≠ cc.sentinel)
include hmode hen hbyte

/-- A tick of a COUNTDOWN channel that meets no sentinel, whatever its counter. -/
theorem advance_countdown (v : BitVec 8) : (advance cc mem { ch with cnt := v }).1 =
    if v.toNat = 0 then
      { ch with pos := truncPos cc (ch.pos + 2 ^ cc.frac), cnt := BitVec.ofNat 8 ch.step.toNat }
    else { ch with cnt := BitVec.ofNat 8 (v.toNat - 1) } := by
  rw [advance_of_byte (ch := { ch with cnt := v }) hen hbyte, stepPosition_countdown hmode]

/-- While the counter runs down the channel stays on its byte. -/
theorem iterate_tickChannel_countdown (n : Nat) (hn : n ≤ ch.cnt.toNat) :
    (tickChannel cc true mem)^[n] ch = { ch with cnt := BitVec.ofNat 8 (ch.cnt.toNat - n) } := by
  induction n with
  | zero => rw [Nat.sub_zero, BitVec.ofNat_toNat]; rfl
  | succ n ih =>
    have hcnt : (BitVec.ofNat 8 (ch.cnt.toNat - n)).toNat = ch.cnt.toNat - n := by
      rw [BitVec.toNat_ofNat, Nat.mod_eq_of_lt (by omega)]
    rw [Function.iterate_succ_apply', ih (by omega), tickChannel_on, advance_countdown hmode hen hbyte, hcnt,
      if_neg (by omega), Nat.sub_sub]

end

/-- Settles O36: by induction on the ticks until the counter is 0, then one step. -/
theorem countdownPlaysEachByteRatePlusOneTicks : Obligations.CountdownPlaysEachByteRatePlusOneTicks := by
  intro s k c hs hplay hmode hbyte
  rw [← hs.fetchByte_channel hplay] at hbyte
  obtain ⟨hk, hon, -, hen⟩ := hplay
  have hdown := iterate_tickChannel_countdown hmode hen hbyte
  refine ⟨fun n hn => ?_, ?_⟩
  · rw [afterTicks_channel hs hk, hon, hdown n hn]
  · rw [afterTicks_channel hs hk, hon, Function.iterate_succ_apply', hdown _ (le_refl _), tickChannel_on, Nat.sub_self,
      advance_countdown hmode hen hbyte]
    rfl

/-! ## The output (R220, R221, R223) -/

theorem panLeft_eq (pan : Byte) : panLeft pan = pan.toNat % 16 := by
  rw [panLeft, toNat_slice, Nat.pow_zero, Nat.div_one]
  rfl

theorem panRight_eq (pan : Byte) : panRight pan = pan.toNat / 16 := by
  have := pan.isLt
  rw [panRight, toNat_slice]
  omega

/-- The magnitude of a sample, scaled, panned by `p` and shifted. -/
def magnitudeOutput (cc : ChipConfig) (ch : Channel) (b : Byte) (p : Nat) : Nat :=
  b.toNat % 128 * volumeGain cc ch.vol.toNat * p / 2 ^ cc.outShift

theorem output_signmag {cc : ChipConfig} (hcoding : cc.coding = .signmag) (ch : Channel) (b : Byte) :
    output cc ch b =
      ((if 128 ≤ b.toNat then -1 else 1) * (magnitudeOutput cc ch b (ch.pan.toNat % 16) : Int),
        (if 128 ≤ b.toNat then -1 else 1) * (magnitudeOutput cc ch b (ch.pan.toNat / 16) : Int)) := by
  have hmag (p : Nat) : floorShift (((b.extractLsb' 0 7).toNat : Int) * gainOf cc ch * (p : Int)) cc.outShift =
      (magnitudeOutput cc ch b p : Int) := by
    rw [toNat_slice, Nat.pow_zero, Nat.div_one, floorShift, gainOf, magnitudeOutput]
    push_cast
    rfl
  rw [output, hcoding]
  simp only [outputSignmag, hmag, panLeft_eq, panRight_eq]
  have h7 : b.getLsbD 7 = decide (128 ≤ b.toNat) := by
    rw [bit7_eq]
    exact decide_eq_decide.mpr (by omega)
  rw [h7]
  by_cases h : 128 ≤ b.toNat <;> simp [h]

theorem output_bias {cc : ChipConfig} (hcoding : cc.coding = .bias) (ch : Channel) (b : Byte) :
    output cc ch b =
      (((b.toNat : Int) - cc.biasVal.toNat) * volumeGain cc ch.vol.toNat * (ch.pan.toNat % 16 : Nat) / 2 ^ cc.outShift,
        ((b.toNat : Int) - cc.biasVal.toNat) * volumeGain cc ch.vol.toNat * (ch.pan.toNat / 16 : Nat) /
          2 ^ cc.outShift) := by
  rw [output, hcoding, ← panLeft_eq, ← panRight_eq]
  rfl

section
variable {s : State} {c : Nat} (hs : s.Inv)
include hs

/-- A playing channel contributes the output of the byte it plays. -/
theorem advanced_of_playedByte {k : Nat} (hplay : s.Playing k c) {b : Byte} (hb : s.playedByte k c = some b) :
    (s.advanced k c).2 = output (s.cfg.chip k) (s.channel k c) b := by
  rw [State.playedByte] at hb
  split at hb
  next hbyte =>
    obtain rfl := Option.some.inj hb
    rw [advanced_of_byte hs hplay hbyte]
  next hsent =>
    rw [ne_eq, not_not] at hsent
    split at hb
    next hloop =>
      obtain rfl := Option.some.inj hb
      rw [advanced_of_loopByte hs hplay hsent hloop]
    next => cases hb

/-- TICK returns the contribution of the one enabled channel. -/
theorem exec_tick_solo {k : BitVec 4} (hplay : s.Playing k.toNat c)
    (hsolo : ∀ e < s.cfg.nch, e ≠ c → (s.channel k.toNat e).en = false) :
    ∃ t p, exec (.tick k) s = .next t ∧ t.out = some p ∧
      p.l.toInt = (s.advanced k.toNat c).2.1 ∧ p.r.toInt = (s.advanced k.toNat c).2.2 := by
  obtain ⟨hk, hon, hc, -⟩ := hplay
  obtain ⟨t, hexec, h⟩ := exec_tick_ticked hs hk
  obtain ⟨hl, hr⟩ := h.pair_on hs hk hon
  have hsum (side : Int × Int → Int) (hside : side (0, 0) = 0) :
      ∑ e ∈ Finset.range s.cfg.nch, side (s.advanced k.toNat e).2 = side (s.advanced k.toNat c).2 :=
    Finset.sum_eq_single_of_mem c (Finset.mem_range.mpr hc) fun e he hne => by
      rw [advanced_disabled _ _ _ (hsolo e (Finset.mem_range.mp he) hne), hside]
  exact ⟨t, _, hexec, h.out, hl.trans (hsum Prod.fst rfl), hr.trans (hsum Prod.snd rfl)⟩

end

/-- Settles O37: the one contribution, and the output of BIAS coding. -/
theorem biasOutputRoundsTowardMinusInfinity : Obligations.BiasOutputRoundsTowardMinusInfinity := by
  intro s k c b hs hplay hsolo hcoding hb
  obtain ⟨t, p, hexec, hout, hl, hr⟩ := exec_tick_solo hs hplay hsolo
  rw [advanced_of_playedByte hs hplay hb, output_bias hcoding] at hl hr
  exact ⟨t, p, hexec, hout, hl, hr⟩

/-- Settles O38: the one contribution, and the output of SIGNMAG coding. -/
theorem signmagOutputNegatesAfterTheShift : Obligations.SignmagOutputNegatesAfterTheShift := by
  intro s k c b hs hplay hsolo hcoding hb
  obtain ⟨t, p, hexec, hout, hl, hr⟩ := exec_tick_solo hs hplay hsolo
  rw [advanced_of_playedByte hs hplay hb, output_signmag hcoding] at hl hr
  exact ⟨t, p, hexec, hout, hl, hr⟩

end Sys2Proof.Machine

/-! PROOFS. The output frame and the mixer (spec/43_frame_and_mixer.md): the mix of the last pairs and its bounds, FRAME's
rate phase as ticks of each chip with the accumulator set apart (`rateChip_eq_setRacc`), its repetition
(`iterate_rateChip`), and the mixer registers. -/

namespace Sys2Proof

open Sys2Proof.Machine

/-! ## The words of WMIX (R119, R276, R277) -/

/-- `A[0]` is the parity of `ADDR`. -/
theorem wordRegAddr_bit0 (w : CommandWord) : (wordRegAddr w).getLsbD 0 = decide ((wordAddr w).toNat % 2 = 1) := by
  rw [wordRegAddr_eq, BitVec.getLsbD_extractLsb', ← BitVec.testBit_toNat, Nat.testBit_zero]
  rfl

theorem decode_wmix (w : CommandWord) (h : wordOp w = 0x5#4) :
    decode w = if (wordRegAddr w).getLsbD 0 = false then .wmixGvoll (wordData w) else .wmixGvolh (wordData w) := by
  unfold decode
  simp only [h]
  rfl

end Sys2Proof

namespace Sys2Proof.Machine

theorem exec_wmixGvoll (d : Byte) (s : State) :
    exec (.wmixGvoll d) s = .next (writeGvol (BitVec.ofNat 16 (s.mix.gvol.toNat / 2 ^ 8 * 2 ^ 8 + d.toNat)) s) := by
  rw [← setLowByte_toNat, BitVec.ofNat_toNat, BitVec.setWidth_eq]
  rfl

theorem exec_wmixGvolh (d : Byte) (s : State) :
    exec (.wmixGvolh d) s = .next (writeGvol (BitVec.ofNat 16 (d.toNat * 2 ^ 8 + s.mix.gvol.toNat % 2 ^ 8)) s) := by
  rw [← setHighByte_toNat, BitVec.ofNat_toNat, BitVec.setWidth_eq]
  rfl

/-- Settles O48: the two rows of WMIX by the parity of the address, and the two halves of GVOL. -/
theorem wmixReplacesOneByteOfGvol : Obligations.WmixReplacesOneByteOfGvol := by
  refine ⟨fun w hop => ⟨fun heven => ?_, fun hodd => ?_⟩, fun s d => ⟨exec_wmixGvoll d s, exec_wmixGvolh d s⟩⟩
  · rw [decode_wmix w hop, if_pos (by rw [wordRegAddr_bit0, heven]; rfl)]
  · rw [decode_wmix w hop, if_neg (by rw [wordRegAddr_bit0, hodd]; decide)]

/-- Settles O49: the codes of the operations without effect, and that their commands are quiet. -/
theorem nopAndReservedOperationsDoNothing : Obligations.NopAndReservedOperationsDoNothing :=
  ⟨fun w hop => decode_nop w (BitVec.eq_of_toNat_eq hop), decode_rsvd,
    fun s => ⟨exec_quiet .nop (.inl rfl) s, exec_quiet .rsvd6 (.inr rfl) s, exec_quiet .rsvd8 (.inr rfl) s⟩⟩

/-! ## FRAME -/

/-- What FRAME leaves: the mix in the mixer and at the output port, and every chip as its rate adapter leaves it. -/
structure Framed (s t : State) : Prop where
  cfg : t.cfg = s.cfg
  inputs : t.inputs = s.inputs
  count : t.chips.length = s.chips.length
  chip : ∀ k < s.cfg.nchip, t.chip k = rateChip s.cfg k (s.chip k)
  mix : t.mix = (mixPhase s).mix
  out : t.out = some ⟨t.mix.frameL, t.mix.frameR⟩

theorem exec_frame_framed {s : State} (hs : s.Inv) : ∃ t, exec .frame s = .next t ∧ Framed s t := by
  obtain ⟨-, hcount, -⟩ := hs
  obtain ⟨hcfg, hmix, hinputs, -, hlen, hchip⟩ := ratePhase_spec (mixPhase s)
  exact ⟨_, rfl, hcfg, hinputs, hlen, fun k hk => (hchip k).trans (if_pos ⟨hk, hcount.symm ▸ hk⟩), hmix, rfl⟩

/-! ## The mix (R271 to R273) -/

theorem mixSums_eq (s : State) : mixSums s = (s.mixedSum Chip.lastL, s.mixedSum Chip.lastR) := by
  have hterm (k : Nat) : mixInto s (0, 0) k =
      (if (s.chip k).chipOn = true then (s.chip k).lastL.toInt * ((s.cfg.chip k).chipGain : Int) else 0,
        if (s.chip k).chipOn = true then (s.chip k).lastR.toInt * ((s.cfg.chip k).chipGain : Int) else 0) := by
    rw [mixInto]
    split <;> simp
  rw [mixSums, foldl_mixInto]
  simp only [hterm, zero_add]
  rfl

/-- A side of the frame is held exactly: the clamp puts it in the range of its field. -/
theorem store32_mixLevel_toInt (sum : Int) (gvol : BitVec 16) :
    (store32 (mixLevel sum gvol)).toInt = max (-2 ^ 31) (min (2 ^ 31 - 1) (sum * gvol.toNat / 2 ^ 16)) := by
  rw [store32_toInt] <;> rw [mixLevel, clamp32, floorShift] <;> omega

theorem abs_mul_natCast_le {v A : Int} {n N : Nat} (hv : |v| ≤ A) (hn : n ≤ N) : |v * n| ≤ A * N := by
  rw [abs_mul, Nat.abs_cast]
  exact mul_le_mul hv (Int.ofNat_le.mpr hn) (Int.natCast_nonneg n) ((abs_nonneg v).trans hv)

/-- A mix of bounded pairs with bounded gains is bounded. -/
theorem State.mixedSum_abs_le (s : State) (side : Chip → BitVec 32) {B : Int} {G : Nat}
    (hpair : ∀ k < s.cfg.nchip, |(side (s.chip k)).toInt| ≤ B)
    (hgain : ∀ k < s.cfg.nchip, (s.cfg.chip k).chipGain ≤ G) : |s.mixedSum side| ≤ s.cfg.nchip * (B * G) := by
  have hterm : ∀ k ∈ Finset.range s.cfg.nchip,
      |if (s.chip k).chipOn = true then (side (s.chip k)).toInt * ((s.cfg.chip k).chipGain : Int) else 0| ≤ B * G := by
    intro k hk
    have hB := abs_mul_natCast_le (hpair k (Finset.mem_range.mp hk)) (hgain k (Finset.mem_range.mp hk))
    split
    · exact hB
    · rw [abs_zero]
      exact (abs_nonneg _).trans hB
  calc |s.mixedSum side| ≤ _ := Finset.abs_sum_le_sum_abs _ _
    _ ≤ _ := Finset.sum_le_card_nsmul _ _ _ hterm
    _ = _ := by rw [Finset.card_range, nsmul_eq_mul]

theorem State.Inv.lastPair_abs_le {s : State} (hs : s.Inv) {k : Nat} (hk : k < s.cfg.nchip) :
    |(s.chip k).lastL.toInt| ≤ 125337600 ∧ |(s.chip k).lastR.toInt| ≤ 125337600 := by
  have hnch := Config.nch_le s.cfg hs.legal
  have hbound : (s.cfg.nch : Int) * contributionBound ≤ 125337600 := by
    unfold contributionBound
    omega
  obtain ⟨-, -, hok⟩ := hs
  obtain ⟨-, -, -, hl, hr, -⟩ := hok k hk
  exact ⟨(abs_le.mpr hl).trans hbound, (abs_le.mpr hr).trans hbound⟩

theorem Config.nchip_le (cfg : Config) (hcfg : cfg.legal = true) : cfg.nchip ≤ 16 := by
  simp only [Config.legal, Bool.and_eq_true, decide_eq_true_eq] at hcfg
  omega

theorem Config.chipGain_le (cfg : Config) (hcfg : cfg.legal = true) (k : Nat) (hk : k < cfg.nchip) :
    (cfg.chip k).chipGain ≤ 65535 := by
  have hchip := Config.legal_chip cfg hcfg k hk
  simp only [ChipConfig.legal, Bool.and_eq_true, decide_eq_true_eq] at hchip
  omega

/-- The product before the shift fits 64 bits (R273). -/
theorem State.Inv.mixedSum_mul_gvol_lt {s : State} (hs : s.Inv) (side : Chip → BitVec 32)
    (hside : ∀ k < s.cfg.nchip, |(side (s.chip k)).toInt| ≤ 125337600) :
    |s.mixedSum side * s.mix.gvol.toNat| < 2 ^ 63 := by
  have hn := Config.nchip_le s.cfg hs.legal
  have hsum : |s.mixedSum side| ≤ 16 * (125337600 * 65535) :=
    (s.mixedSum_abs_le side hside (Config.chipGain_le s.cfg hs.legal)).trans (by omega)
  exact (abs_mul_natCast_le hsum (Nat.le_of_lt_succ s.mix.gvol.isLt)).trans_lt (by norm_num)

/-- With the reference gains on two chips and a global volume of at most 1.0 no side is scaled up (R273). -/
theorem mixLevel_reference_abs_le {s : State} (side : Chip → BitVec 32) (hn : s.cfg.nchip = 2)
    (h : ∀ k < 2, (s.cfg.chip k).chipGain = 0x0100 ∧ |(side (s.chip k)).toInt| ≤ 472320)
    (hgvol : s.mix.gvol.toNat ≤ 0x0100) :
    |max (-2 ^ 31) (min (2 ^ 31 - 1) (s.mixedSum side * s.mix.gvol.toNat / 2 ^ 16))| ≤ 2 * 472320 := by
  have hsum := s.mixedSum_abs_le side (fun k hk => (h k (hn ▸ hk)).2) fun k hk => (h k (hn ▸ hk)).1.le
  rw [hn] at hsum
  have hprod := abs_le.mp (abs_mul_natCast_le hsum hgvol)
  rw [abs_le]
  omega

/-- Settles O43: the mixer's two sides are the clamped levels of the two sums, and the sums are bounded. -/
theorem frameMixesTheLastPairs : Obligations.FrameMixesTheLastPairs := by
  intro s hs
  obtain ⟨t, hexec, h⟩ := exec_frame_framed hs
  have hl : t.mix.frameL.toInt =
      max (-2 ^ 31) (min (2 ^ 31 - 1) (s.mixedSum Chip.lastL * s.mix.gvol.toNat / 2 ^ 16)) := by
    rw [h.mix, mixPhase, mixSums_eq, store32_mixLevel_toInt]
  have hr : t.mix.frameR.toInt =
      max (-2 ^ 31) (min (2 ^ 31 - 1) (s.mixedSum Chip.lastR * s.mix.gvol.toNat / 2 ^ 16)) := by
    rw [h.mix, mixPhase, mixSums_eq, store32_mixLevel_toInt]
  refine ⟨t, hexec, h.out, hl, hr, by rw [h.mix, mixPhase_gvol],
    hs.mixedSum_mul_gvol_lt _ fun k hk => (hs.lastPair_abs_le hk).1,
    hs.mixedSum_mul_gvol_lt _ fun k hk => (hs.lastPair_abs_le hk).2, fun hn href hgvol => ?_⟩
  rw [hl, hr]
  exact ⟨mixLevel_reference_abs_le _ hn (fun k hk => ⟨(href k hk).1, (href k hk).2.1⟩) hgvol,
    mixLevel_reference_abs_le _ hn (fun k hk => ⟨(href k hk).1, (href k hk).2.2⟩) hgvol⟩

/-! ## The accumulator apart from the ticks (R274, R280) -/

/-- A chip with its rate accumulator set. -/
def Chip.setRacc (r : Nat) (x : Chip) : Chip := { x with racc := r }

@[simp] theorem Chip.setRacc_racc (r : Nat) (x : Chip) : (x.setRacc r).racc = r := rfl
@[simp] theorem Chip.setRacc_setRacc (r q : Nat) (x : Chip) : (x.setRacc r).setRacc q = x.setRacc q := rfl
theorem Chip.setRacc_self (x : Chip) : x.setRacc x.racc = x := rfl

theorem advanceInto_setRacc (cc : ChipConfig) (r : Nat) (acc : Chip × Int × Int) (c : Nat) :
    advanceInto cc (acc.map (Chip.setRacc r) id) c = (advanceInto cc acc c).map (Chip.setRacc r) id := by
  obtain ⟨x, sumL, sumR⟩ := acc
  change (if c < x.ch.length then _ else _) = Prod.map _ _ (if c < x.ch.length then _ else _)
  split <;> rfl

theorem advanceAll_setRacc (cc : ChipConfig) (order : List Nat) (r : Nat) (x : Chip) :
    advanceAll cc order (x.setRacc r) = (advanceAll cc order x).map (Chip.setRacc r) id :=
  List.foldl_hom (init := (x, 0, 0)) (Prod.map (Chip.setRacc r) id) (advanceInto_setRacc cc r)

/-- A tick neither reads nor changes the accumulator. -/
theorem tickChip_setRacc (cfg : Config) (cc : ChipConfig) (r : Nat) (x : Chip) :
    tickChip cfg cc (x.setRacc r) = (tickChip cfg cc x).setRacc r := by
  rw [tickChip, tickChip]
  cases hon : x.chipOn
  · rw [tickInOrder_off _ _ _ hon, tickInOrder_off _ _ (x.setRacc r) hon]
    rfl
  · rw [tickInOrder_on _ _ _ hon, tickInOrder_on _ _ (x.setRacc r) hon, advanceAll_setRacc]
    rfl

theorem tickTimes_setRacc (cfg : Config) (cc : ChipConfig) (n r : Nat) (x : Chip) :
    tickTimes cfg cc n (x.setRacc r) = (tickTimes cfg cc n x).setRacc r := by
  induction n generalizing x with
  | zero => rfl
  | succ n ih => rw [tickTimes, tickChip_setRacc, ih, tickTimes]

/-- The rate adapter: the owed ticks, then the remainder in the accumulator. -/
theorem rateChip_eq_setRacc (cfg : Config) (k : Nat) (x : Chip) :
    rateChip cfg k x = (tickTimes cfg (cfg.chip k) ((x.racc + (cfg.chip k).clock) / cfg.thr k) x).setRacc
      ((x.racc + (cfg.chip k).clock) % cfg.thr k) := by
  rw [rateChip_eq, ← tickTimes_setRacc]
  rfl

/-- TICK neither reads nor changes the accumulator of its chip, and does not show it in its pair. -/
theorem exec_tick_setRacc {s : State} {k : BitVec 4} (hk : k.toNat < s.cfg.nchip)
    (hcount : s.chips.length = s.cfg.nchip) (r : Nat) :
    ∃ t t', exec (.tick k) s = .next t ∧ exec (.tick k) (s.updateChip k.toNat (Chip.setRacc r)) = .next t' ∧
      t'.out = t.out ∧ (t.chip k.toNat).racc = (s.chip k.toNat).racc ∧ t' = t.updateChip k.toNat (Chip.setRacc r) := by
  have hlen : k.toNat < s.chips.length := hcount.symm ▸ hk
  have hlen' : k.toNat < (s.updateChip k.toNat (Chip.setRacc r)).chips.length := by rwa [State.updateChip_length]
  have hcomm : tickChip s.cfg (s.cfg.chip k.toNat) ∘ Chip.setRacc r =
      Chip.setRacc r ∘ tickChip s.cfg (s.cfg.chip k.toNat) :=
    funext fun x => tickChip_setRacc s.cfg _ r x
  refine ⟨_, _, execTick_present k s hk hlen, execTick_present k _ hk hlen', ?_, ?_, ?_⟩
  · rw [State.updateChip_cfg, State.updateChip_chip_self _ _ _ hlen, tickChip_setRacc]
    rfl
  · rw [State.respond_chip, State.updateChip_chip_self _ _ _ hlen]
    exact (tickChip_kept s.cfg _ _).racc
  · rw [State.updateChip_cfg, State.updateChip_chip_self _ _ _ hlen, tickChip_setRacc, State.updateChip_updateChip, hcomm,
      ← State.updateChip_updateChip]
    rfl

/-- Settles O44: FRAME's rate adapter is ticks of the chip, and host TICKs are the same ticks. -/
theorem ratePhaseRunsTheOwedTicks : Obligations.RatePhaseRunsTheOwedTicks := by
  refine ⟨fun s hs => ?_, ?_⟩
  · obtain ⟨t, hexec, h⟩ := exec_frame_framed hs
    refine ⟨t, hexec, h.count, h.inputs, fun k hk => ?_⟩
    rw [h.chip _ hk, rateChip_eq_setRacc, afterTicks_chip hs hk]
    rfl
  · rintro s _ k r rfl hk hcount
    exact exec_tick_setRacc hk hcount r

/-! ## Repeated FRAMEs (R275) -/

/-- Whole units counted in two instalments, the remainder carried over. -/
theorem div_add_mod_add_div (a b n : Nat) : a / n + (a % n + b) / n = (a + b) / n := by
  obtain rfl | hn := Nat.eq_zero_or_pos n
  · simp
  · rw [Nat.add_comm, ← Nat.add_mul_div_left _ _ hn, Nat.add_right_comm, Nat.mod_add_div]

/-- Repeated rate phases of a chip: the ticks owed by the sum of the clocks, and its remainder. -/
theorem iterate_rateChip (cfg : Config) (k : Nat) (F : Nat) (x : Chip) (hx : x.racc < cfg.thr k) :
    (rateChip cfg k)^[F] x =
      (tickTimes cfg (cfg.chip k) ((x.racc + F * (cfg.chip k).clock) / cfg.thr k) x).setRacc
        ((x.racc + F * (cfg.chip k).clock) % cfg.thr k) := by
  induction F with
  | zero =>
    rw [Nat.zero_mul, Nat.add_zero, Nat.div_eq_of_lt hx, Nat.mod_eq_of_lt hx]
    rfl
  | succ F ih =>
    rw [Function.iterate_succ_apply', ih, rateChip_eq_setRacc, Chip.setRacc_racc, tickTimes_setRacc, Chip.setRacc_setRacc,
      ← tickTimes_add, div_add_mod_add_div, Nat.mod_add_mod, Nat.succ_mul, Nat.add_assoc]

theorem afterFrames_chip {s : State} (hs : s.Inv) {k : Nat} (hk : k < s.cfg.nchip) (F : Nat) :
    (afterFrames F s).chip k = (rateChip s.cfg k)^[F] (s.chip k) := by
  induction F generalizing s with
  | zero => rfl
  | succ F ih =>
    obtain ⟨t, hexec, h⟩ := exec_frame_framed hs
    rw [afterFrames, hexec]
    refine (ih ((transaction_of_exec hexec).inv hs) (h.cfg.symm ▸ hk)).trans ?_
    rw [h.cfg, h.chip k hk, Function.iterate_succ_apply]

/-- Any number of FRAMEs as host TICKs: no drift. -/
theorem afterFrames_chip_eq_afterTicks {s : State} (hs : s.Inv) {k : BitVec 4} (hk : k.toNat < s.cfg.nchip) (F : Nat) :
    (afterFrames F s).chip k.toNat =
      ((afterTicks k (((s.chip k.toNat).racc + F * (s.cfg.chip k.toNat).clock) / s.cfg.thr k.toNat) s).chip
        k.toNat).setRacc (((s.chip k.toNat).racc + F * (s.cfg.chip k.toNat).clock) % s.cfg.thr k.toNat) := by
  have ⟨_, _, hok⟩ := hs
  obtain ⟨-, -, -, -, -, hracc⟩ := hok _ hk
  rw [afterFrames_chip hs hk, iterate_rateChip _ _ _ _ hracc, afterTicks_chip hs hk]

theorem afterTicks_racc {s : State} (hs : s.Inv) {k : BitVec 4} (hk : k.toNat < s.cfg.nchip) (n : Nat) :
    ((afterTicks k n s).chip k.toNat).racc = (s.chip k.toNat).racc := by
  rw [afterTicks_chip hs hk]
  exact (tickTimes_kept _ _ _ _).racc

/-- A native rate equal to the output rate: every FRAME is one tick. -/
theorem afterFrames_chip_of_unity {s : State} (hs : s.Inv) {k : BitVec 4} (hk : k.toNat < s.cfg.nchip)
    (hracc : (s.chip k.toNat).racc = 0) (hclock : (s.cfg.chip k.toNat).clock = s.cfg.thr k.toNat) (F : Nat) :
    (afterFrames F s).chip k.toNat = (afterTicks k F s).chip k.toNat := by
  have hself : ((afterTicks k F s).chip k.toNat).setRacc 0 = (afterTicks k F s).chip k.toNat := by
    rw [← hracc, ← afterTicks_racc hs hk F, Chip.setRacc_self]
  rw [afterFrames_chip_eq_afterTicks hs hk, hracc, hclock, Nat.zero_add, Nat.mul_mod_left,
    Nat.mul_div_cancel _ (Config.thr_pos s.cfg hs.legal _ hk), hself]

/-! ## FRAMEs presented to `step` -/

/-- The state with other inputs still to be presented. -/
def State.withInputs (inputs : List HostInput) (s : State) : State := { s with inputs := inputs }

theorem ratePhase_withInputs (inputs : List HostInput) (s : State) :
    ratePhase (s.withInputs inputs) = (ratePhase s).withInputs inputs :=
  List.foldl_hom (State.withInputs inputs) fun _ _ => rfl

/-- FRAME neither reads nor changes the inputs. -/
theorem exec_frame_withInputs {s t : State} (h : exec .frame s = .next t) (inputs : List HostInput) :
    exec .frame (s.withInputs inputs) = .next (t.withInputs inputs) := by
  obtain rfl := Host.Outcome.next.inj h
  change execFrame (s.withInputs inputs) = _
  have hmix : mixPhase (s.withInputs inputs) = (mixPhase s).withInputs inputs := rfl
  rw [execFrame, hmix, ratePhase_withInputs]
  rfl

theorem step_frame {s t : State} (hlegal : s.cfg.legal = true) (h : exec .frame s = .next t) {w : CommandWord}
    (hw : wordOp w = 0x4#4) (rest : List HostInput) :
    step (s.withInputs (.command w :: rest)) = .next (t.withInputs rest) := by
  rw [step_of_command (s.withInputs (.command w :: rest)) w rest hlegal rfl, decode_frame w hw]
  exact exec_frame_withInputs h rest

/-- Presented words of operation 0x4 are FRAMEs. -/
theorem stepTimes_frames {s : State} (hs : s.Inv) (ws : List CommandWord) (hws : ∀ w ∈ ws, wordOp w = 0x4#4) :
    stepTimes ws.length (s.withInputs (ws.map .command)) = .next ((afterFrames ws.length s).withInputs []) := by
  induction ws generalizing s with
  | nil => rfl
  | cons w ws ih =>
    obtain ⟨hw, hws'⟩ := List.forall_mem_cons.mp hws
    obtain ⟨t, hexec, -⟩ := exec_frame_framed hs
    rw [List.length_cons, List.map_cons, stepTimes, step_frame hs.legal hexec hw, afterFrames, hexec]
    exact ih ((transaction_of_exec hexec).inv hs) hws'

/-- Settles O45: repeated rate phases add up, from any state, from reset, at unity, and through `step`. -/
theorem rateAdapterHasZeroDrift : Obligations.RateAdapterHasZeroDrift := by
  refine ⟨fun s k F hs hk => afterFrames_chip_eq_afterTicks hs hk F, fun cfg inputs k F hcfg hk => ?_,
    fun s k F hs hk hracc hclock => ?_, fun s ws hs hws => ⟨_, stepTimes_frames hs ws hws, rfl⟩⟩
  · rw [afterFrames_chip_eq_afterTicks (resetWith_inv cfg inputs hcfg) hk, Chip.setRacc_racc,
      State.resetWith_chip cfg inputs _ hk, Chip.reset, Nat.zero_add]
    rfl
  · have hchip := afterFrames_chip_of_unity hs hk hracc hclock F
    exact ⟨hchip, by rw [hchip, afterTicks_racc hs hk, hracc]⟩

end Sys2Proof.Machine

/-! PROOFS. Exceptions and isolation (spec/60_exceptions.md): every command and every step of a legal configuration completes
(R300), and a chip depends on no other chip, since every command keeps the agreement of two states on it (R308). -/

namespace Sys2Proof.Machine

/-! ## Completion (R300) -/

theorem exec_completes (i : Instr) (s : State) : ∃ t, exec i s = .next t := by
  obtain ⟨t, hexec, -⟩ := exec_transaction i s
  exact ⟨t, hexec⟩

theorem ingest_completes (input : HostInput) (s : State) : ∃ t, ingest input s = .next t := by
  cases input with
  | command w => exact exec_completes (decode w) s
  | reset => exact ⟨s.applyReset, rfl⟩

/-- Settles O13: every command is a transaction, and a step idles or takes an input. -/
theorem everyCommandCompletes : Obligations.EveryCommandCompletes := by
  refine ⟨exec_completes, fun s hlegal => ?_⟩
  rw [step, if_pos hlegal]
  split
  · exact ⟨s, rfl⟩
  · exact ingest_completes _ _

/-! ## States that agree on a chip (R308) -/

/-- Two states of one configuration that agree on chip `j`; their other chips, mixers, inputs and output ports may differ. -/
structure AgreeOn (j : Nat) (s s' : State) : Prop where
  cfg : s'.cfg = s.cfg
  count : s'.chips.length = s.chips.length
  chip : s'.chip j = s.chip j

namespace AgreeOn
variable {j : Nat} {s s' : State} (h : AgreeOn j s s')
include h

theorem respond (o o' : Option Pair) : AgreeOn j (s.respond o) (s'.respond o') := ⟨h.cfg, h.count, h.chip⟩

theorem writeGvol (v v' : BitVec 16) : AgreeOn j (writeGvol v s) (writeGvol v' s') := ⟨h.cfg, h.count, h.chip⟩

theorem mixPhase : AgreeOn j (mixPhase s) (mixPhase s') := ⟨h.cfg, h.count, h.chip⟩

/-- One update of chip `k` in both states, whether `k` is the chip agreed on or another. -/
theorem updateChip (k : Nat) (f : Chip → Chip) : AgreeOn j (s.updateChip k f) (s'.updateChip k f) where
  cfg := h.cfg
  count := by rw [State.updateChip_length, State.updateChip_length, h.count]
  chip := by
    obtain rfl | hjk := eq_or_ne j k
    · rw [State.updateChip_chip, State.updateChip_chip, h.count, h.chip]
    · rw [State.updateChip_chip_ne _ _ _ _ hjk, State.updateChip_chip_ne _ _ _ _ hjk, h.chip]

theorem writeGlobal (k : BitVec 4) (f : Config → ChipConfig → Chip → Chip) :
    AgreeOn j (writeGlobal k f s) (writeGlobal k f s') := by
  unfold Machine.writeGlobal
  rw [h.cfg]
  split
  · exact (h.updateChip _ _).respond _ _
  · exact h.respond _ _

theorem store (k a : Nat) (d : Byte) : AgreeOn j (s.store k a d) (s'.store k a d) := by
  unfold State.store State.Addresses
  rw [h.cfg]
  split
  · exact h.updateChip _ _
  · exact h

/-- The rate phase runs each chip's own adapter. -/
theorem ratePhase : AgreeOn j (ratePhase s) (ratePhase s') := by
  obtain ⟨hcfg, -, -, -, hcount, hchip⟩ := ratePhase_spec s
  obtain ⟨hcfg', -, -, -, hcount', hchip'⟩ := ratePhase_spec s'
  refine ⟨by rw [hcfg', hcfg, h.cfg], by rw [hcount', hcount, h.count], ?_⟩
  rw [hchip', hchip, h.cfg, h.count, h.chip]

theorem exec_tick (k : BitVec 4) : ∃ t t', exec (.tick k) s = .next t ∧ exec (.tick k) s' = .next t' ∧ AgreeOn j t t' := by
  change ∃ t t', execTick k s = .next t ∧ execTick k s' = .next t' ∧ AgreeOn j t t'
  unfold execTick
  rw [h.cfg]
  split
  · exact ⟨_, _, rfl, rfl, (h.updateChip _ _).respond _ _⟩
  · exact ⟨_, _, rfl, rfl, h.respond _ _⟩

/-- Every command keeps the agreement of two states on a chip. -/
theorem exec (i : Instr) : ∃ t t', exec i s = .next t ∧ exec i s' = .next t' ∧ AgreeOn j t t' := by
  cases i using Instr.families with
  | channel func k slot d =>
    exact ⟨_, _, exec_funcInstr func k slot d s, exec_funcInstr func k slot d s', h.writeGlobal k _⟩
  | quiet i hi => exact ⟨_, _, exec_quiet i hi s, exec_quiet i hi s', h.respond _ _⟩
  | gctrl k | chon k => exact ⟨_, _, rfl, rfl, h.writeGlobal k _⟩
  | wmem k a d => exact ⟨_, _, exec_wmem k a d s, exec_wmem k a d s', (h.store _ _ d).respond _ _⟩
  | tick k => exact h.exec_tick k
  | frame => exact ⟨_, _, rfl, rfl, h.mixPhase.ratePhase.respond _ _⟩
  | wmixGvoll | wmixGvolh => exact ⟨_, _, rfl, rfl, h.writeGvol _ _⟩

end AgreeOn

/-- Settles O55: states of one configuration have equally many chips, and every command keeps their agreement on a chip. -/
theorem chipInstancesShareNoState : Obligations.ChipInstancesShareNoState := by
  intro i s s' j hs hs' hcfg hchip
  obtain ⟨-, hcount, -⟩ := hs
  obtain ⟨-, hcount', -⟩ := hs'
  have hagree : AgreeOn j s s' := ⟨hcfg, by rw [hcount', hcfg, hcount], hchip⟩
  obtain ⟨t, t', hexec, hexec', h⟩ := hagree.exec i
  exact ⟨t, t', hexec, hexec', h.chip⟩

end Sys2Proof.Machine

/-! PROOFS. Reset and hazards (spec/70_reset_and_hazards.md): the reset state meets both invariants and is silent (R330,
R332), a channel that meets no sentinel plays on (R334), and the mix reads nothing that a voice write changes (R340). -/

namespace Sys2Proof.Machine

/-! ## Reset (R330, R332) -/

/-- Settles O11: the reference configuration is legal, and reset meets both invariants in every legal one. -/
theorem resetMeetsInvariants : Obligations.ResetMeetsInvariants :=
  ⟨resetWith_inv _ _ (by decide),
    fun cfg inputs hcfg => ⟨resetWith_inv cfg inputs hcfg, resetWith_wholeBytes cfg inputs⟩⟩

/-- A mix to which no chip contributes is (0, 0). -/
theorem mixPhase_mix_of_off {s : State} (hoff : ∀ k < s.cfg.nchip, (s.chip k).chipOn = false) :
    (mixPhase s).mix = { s.mix with frameL := 0#32, frameR := 0#32 } := by
  have hsum (side : Chip → BitVec 32) : s.mixedSum side = 0 := Finset.sum_eq_zero fun k hk => by
    rw [hoff k (Finset.mem_range.mp hk), if_neg Bool.false_ne_true]
  have hlevel : store32 (mixLevel 0 s.mix.gvol) = 0#32 := by
    rw [mixLevel, Int.zero_mul]
    rfl
  rw [mixPhase, mixSums_eq, hsum, hsum, hlevel]

theorem exec_tick_resetWith (cfg : Config) (inputs : List HostInput) (hcfg : cfg.legal = true) (k : BitVec 4) :
    ∃ t, exec (.tick k) (State.resetWith cfg inputs) = .next t ∧ t.out = some ⟨0#32, 0#32⟩ := by
  obtain hk | hk := Nat.lt_or_ge k.toNat cfg.nchip
  · have hoff : ((State.resetWith cfg inputs).chip k.toNat).chipOn = false := by
      rw [State.resetWith_chip cfg inputs _ hk]
      rfl
    obtain ⟨-, htick⟩ := idleChipGeneratesSilence
    obtain ⟨t, hexec, hout, -⟩ := htick _ k (resetWith_inv cfg inputs hcfg) hk hoff
    exact ⟨t, hexec, hout⟩
  · exact ⟨_, execTick_absent k _ hk, rfl⟩

/-- Settles O46: after reset every chip is off, so a TICK and the mix are silent, and FRAME adds the clock to an
accumulator of 0. -/
theorem silenceAfterReset : Obligations.SilenceAfterReset := by
  intro cfg inputs hcfg
  refine ⟨exec_tick_resetWith cfg inputs hcfg, ?_⟩
  obtain ⟨t, hexec, h⟩ := exec_frame_framed (resetWith_inv cfg inputs hcfg)
  have hmix := h.mix.trans (mixPhase_mix_of_off fun k hk => by rw [State.resetWith_chip cfg inputs k hk]; rfl)
  refine ⟨t, hexec, by rw [h.out, hmix], fun k hk => ?_⟩
  rw [h.chip k hk, (rateChip_kept _ k _).racc, State.resetWith_chip cfg inputs k hk]
  exact congrArg (· % cfg.thr k) (Nat.zero_add _)

/-! ## A channel that meets no sentinel (R334) -/

section
variable {s : State} (hs : s.Inv)
include hs

/-- A tick of a chip whose memory holds no sentinel stops no channel. -/
theorem Ticked.playing {t : State} {k c : Nat} (h : Ticked s t k) (hplay : s.Playing k c)
    (hbytes : ∀ a, s.readByte k a ≠ (s.cfg.chip k).sentinel) : t.Playing k c := by
  have ⟨hk, hon, hc, hen⟩ := hplay
  rw [State.Playing, h.outside.cfg, h.kept.chipOn, h.channel_on hs hk hon, advanced_of_byte hs hplay (hbytes _),
    stepPosition_en]
  exact ⟨hk, hon, hc, hen⟩

theorem afterTicks_playing {k : BitVec 4} {c : Nat} (hplay : s.Playing k.toNat c)
    (hbytes : ∀ a, s.readByte k.toNat a ≠ (s.cfg.chip k.toNat).sentinel) (n : Nat) :
    (afterTicks k n s).Playing k.toNat c := by
  induction n generalizing s with
  | zero => exact hplay
  | succ n ih =>
    have ⟨hk, _⟩ := hplay
    obtain ⟨t, hexec, h⟩ := exec_tick_ticked hs hk
    rw [afterTicks, hexec]
    refine ih ((transaction_of_exec hexec).inv hs) (h.playing hs hplay hbytes) fun a => ?_
    rw [h.outside.cfg, h.sameUnderTick.bytes]
    exact hbytes a

end

/-- Settles O42: 0x00 is not the reference sentinel, so it is the byte played, at -128 after the bias. -/
theorem unloadedMemoryNeverStopsAChannel : Obligations.UnloadedMemoryNeverStopsAChannel := by
  intro s k c hs hplay href hzero
  have hbytes (a : Nat) : s.readByte k.toNat a ≠ (s.cfg.chip k.toNat).sentinel := by
    rw [hzero, href]
    decide
  have hout : (s.advanced k.toNat c).2 = output ChipConfig.reference (s.channel k.toNat c) 0x00#8 := by
    rw [advanced_of_byte hs hplay (hbytes _), hzero, href]
  rw [hout, output_bias rfl]
  exact ⟨rfl, rfl, afterTicks_playing hs hplay hbytes⟩

/-! ## Output latency (R340) -/

/-- Two states of one configuration that agree on all that the mix reads: the global volume, and each chip's enable and
last pair. -/
structure MixAlike (s t : State) : Prop where
  cfg : t.cfg = s.cfg
  gvol : t.mix.gvol = s.mix.gvol
  chipOn : ∀ k, (t.chip k).chipOn = (s.chip k).chipOn
  lastL : ∀ k, (t.chip k).lastL = (s.chip k).lastL
  lastR : ∀ k, (t.chip k).lastR = (s.chip k).lastR

theorem MixAlike.mixPhase_mix {s t : State} (h : MixAlike s t) : (mixPhase t).mix = (mixPhase s).mix := by
  have hsums : mixSums t = mixSums s := by
    simp only [mixSums_eq, State.mixedSum, h.cfg, h.chipOn, h.lastL, h.lastR]
  simp only [mixPhase, hsums, h.gvol]

/-- A voice write is none of the commands that write a field the mix reads. -/
theorem mixAlike_of_exec {i : Instr} {s t : State} (hi : i.writesVoices = true) (hexec : exec i s = .next t) :
    MixAlike s t := by
  have h := transaction_of_exec hexec
  have hpair (k : Nat) : (t.chip k).lastL = (s.chip k).lastL ∧ (t.chip k).lastR = (s.chip k).lastR := by
    by_contra hne
    obtain ⟨_, rfl, -⟩ | rfl := (h.chip k).pair_writer (not_and_or.mp hne) <;> cases hi
  refine ⟨h.cfg, ?_, fun k => ?_, fun k => (hpair k).1, fun k => (hpair k).2⟩
  · obtain hgvol | ⟨_, rfl | rfl⟩ := h.gvol
    · exact hgvol
    all_goals cases hi
  · by_contra hne
    obtain ⟨_, _, -, rfl⟩ := (h.chip k).chipOn_writer hne
    cases hi

/-- FRAME returns, and leaves in the mixer, the mix of the state it begins in. -/
theorem exec_frame_mix (s : State) : ∃ u, exec .frame s = .next u ∧ u.mix = (mixPhase s).mix ∧
    u.out = some ⟨(mixPhase s).mix.frameL, (mixPhase s).mix.frameR⟩ := by
  obtain ⟨-, hmix, -⟩ := ratePhase_spec (mixPhase s)
  exact ⟨_, execFrame_eq s, hmix, rfl⟩

/-- Settles O47: the states before and after the write mix alike. -/
theorem voiceWritesAreNotHeardInTheNextFrame : Obligations.VoiceWritesAreNotHeardInTheNextFrame := by
  intro i s hi
  obtain ⟨t, hexec⟩ := exec_completes i s
  obtain ⟨u, hu, hmix, hout⟩ := exec_frame_mix s
  obtain ⟨u', hu', hmix', hout'⟩ := exec_frame_mix t
  have hsame := (mixAlike_of_exec hi hexec).mixPhase_mix
  exact ⟨t, u, u', hexec, hu, hu', by rw [hout', hout, hsame], by rw [hmix', hmix, hsame]⟩

end Sys2Proof.Machine
